-- ==== Sys2Proof/Word.lean ====
section
/-! DEFINITION. The words of bitio-core: bytes, 64-bit words, command words (spec 00_scope.md R8, R9). -/

namespace Sys2Proof

/-- A byte, the spec's `u8` (R8). -/
abbrev Byte := BitVec 8

/-- A 64-bit word: a `u64` value or a lane word (R8, R17). -/
abbrev U64 := BitVec 64

/-- A command word: `op` in bits 15:8, `n` in bits 7:0 (R91). -/
abbrev CmdWord := BitVec 16

end Sys2Proof
end

