-- ==== Sys2Proof/Syntax.lean ====
section
/-! DEFINITION. The commands of bitio-core: one constructor per row of spec/opcode_table.json (30_encoding.md R92). -/

namespace Sys2Proof

/-- A command. `n` is the count field CMD[7:0] of the commands that take one; the 64-bit operand is not in the word
(R91), it is the interface field OPND. -/
inductive Instr where
  | pack   (n : BitVec 8)
  | unpack (n : BitVec 8)
  | rBitb  (n : BitVec 8)
  | rByte
  | rBool
  | rBits  (n : BitVec 8)
  | rField (n : BitVec 8)
  | rAlign
  | rArr   (n : BitVec 8)
  | rPos
  | rRst
  | wBitb  (n : BitVec 8)
  | wByte
  | wBool
  | wBits  (n : BitVec 8)
  | wField (n : BitVec 8)
  | wAlign
  | wGrow
  | wFlush
  | wLen
  | wPos
  | wRst
  | sysStat
  deriving DecidableEq, Repr

/-- The count field of a command; 0 for a command that takes none (R91). -/
def Instr.countField : Instr → BitVec 8
  | .pack n => n
  | .unpack n => n
  | .rBitb n => n
  | .rByte => 0
  | .rBool => 0
  | .rBits n => n
  | .rField n => n
  | .rAlign => 0
  | .rArr n => n
  | .rPos => 0
  | .rRst => 0
  | .wBitb n => n
  | .wByte => 0
  | .wBool => 0
  | .wBits n => n
  | .wField n => n
  | .wAlign => 0
  | .wGrow => 0
  | .wFlush => 0
  | .wLen => 0
  | .wPos => 0
  | .wRst => 0
  | .sysStat => 0

end Sys2Proof
end

