-- ==== Sys2Proof/Decode.lean ====
section
/-! DEFINITION. Decoding and encoding of command words (30_encoding.md R91, R92, R97, R98). -/

namespace Sys2Proof

/-- Why a word is no command (R98): its `op` is reserved, or its `op` takes no count and `n` is not 0. -/
inductive DecodeError where
  | reservedOp (op : BitVec 8)
  | countNotZero (op n : BitVec 8)
  deriving DecidableEq, Repr

/-- A row of the opcode table: a word `w` selects it when `w &&& mask = value` (R97). `build` makes the command from the
word's low byte. -/
structure Row where
  mask  : CmdWord
  value : CmdWord
  build : BitVec 8 → Instr

/-- A row whose command takes a count: mask 0xFF00 (R97). -/
def countRow (op : BitVec 8) (build : BitVec 8 → Instr) : Row := ⟨0xFF00, op ++ (0 : BitVec 8), build⟩

/-- A row whose command takes no count: mask 0xFFFF (R97). -/
def plainRow (op : BitVec 8) (i : Instr) : Row := ⟨0xFFFF, op ++ (0 : BitVec 8), fun _ => i⟩

/-- The opcode map of R92, in the table's order. -/
def rows : List Row := [
  countRow 0x01 .pack, countRow 0x02 .unpack,
  countRow 0x10 .rBitb, plainRow 0x11 .rByte, plainRow 0x12 .rBool, countRow 0x13 .rBits, countRow 0x14 .rField,
  plainRow 0x15 .rAlign, countRow 0x16 .rArr, plainRow 0x17 .rPos, plainRow 0x18 .rRst,
  countRow 0x20 .wBitb, plainRow 0x21 .wByte, plainRow 0x22 .wBool, countRow 0x23 .wBits, countRow 0x24 .wField,
  plainRow 0x25 .wAlign, plainRow 0x26 .wGrow, plainRow 0x27 .wFlush, plainRow 0x28 .wLen, plainRow 0x29 .wPos,
  plainRow 0x2A .wRst, plainRow 0x30 .sysStat]

/-- The word selects the row (R97). -/
def Row.selects (r : Row) (w : CmdWord) : Bool := (w &&& r.mask) == r.value

/-- CMD[15:8] (R91). -/
def opField (w : CmdWord) : BitVec 8 := w.extractLsb' 8 8

/-- CMD[7:0] (R91). -/
def countOf (w : CmdWord) : BitVec 8 := w.extractLsb' 0 8

/-- The command a word stands for, or why it stands for none (R97, R98). A count outside its row's range still decodes:
the row's meaning raises PRECOND (R100). -/
def decode (w : CmdWord) : Except DecodeError Instr :=
  match rows.find? (fun r => r.selects w) with
  | some r => .ok (r.build (countOf w))
  | none =>
    if rows.any (fun r => r.value == (opField w ++ (0 : BitVec 8))) then .error (.countNotZero (opField w) (countOf w))
    else .error (.reservedOp (opField w))

/-- The command the decoder reads from an instruction whose bits are `w`, numbered as the opcode table numbers them: a
command is one 16-bit word (R91), so anything wider is none. -/
def decodeTableWord (nbits w : Nat) : Option Instr :=
  if nbits ≤ 16 ∧ w < 2 ^ nbits then (decode (BitVec.ofNat 16 w)).toOption else none

/-- The word of a command, `op` · 256 + `n` (R92, R102). -/
def encode : Instr → CmdWord
  | .pack n => (0x01 : BitVec 8) ++ n
  | .unpack n => (0x02 : BitVec 8) ++ n
  | .rBitb n => (0x10 : BitVec 8) ++ n
  | .rByte => 0x1100
  | .rBool => 0x1200
  | .rBits n => (0x13 : BitVec 8) ++ n
  | .rField n => (0x14 : BitVec 8) ++ n
  | .rAlign => 0x1500
  | .rArr n => (0x16 : BitVec 8) ++ n
  | .rPos => 0x1700
  | .rRst => 0x1800
  | .wBitb n => (0x20 : BitVec 8) ++ n
  | .wByte => 0x2100
  | .wBool => 0x2200
  | .wBits n => (0x23 : BitVec 8) ++ n
  | .wField n => (0x24 : BitVec 8) ++ n
  | .wAlign => 0x2500
  | .wGrow => 0x2600
  | .wFlush => 0x2700
  | .wLen => 0x2800
  | .wPos => 0x2900
  | .wRst => 0x2A00
  | .sysStat => 0x3000

end Sys2Proof
end

