-- ==== Sys2Proof/Config.lean ====
section
/-! DEFINITION. What an implementation or a platform fixes: the store variants, the parameters of R6, what the
environment will answer (R35), and the free values (R134, U2; R6). -/

namespace Sys2Proof

/-- The reader's store variant (R6, R7). -/
inductive RVar where
  | buffer
  | stream
  deriving DecidableEq, Repr

/-- The writer's store variant (R6, R7). -/
inductive WVar where
  | fixed
  | growable
  | stream
  deriving DecidableEq, Repr

/-- The parameters of R6 that hold between two resets. Which sets are legal is R222. -/
structure Params where
  rvar      : RVar
  wvar      : WVar
  /-- RLEN: bytes in the reader's buffer. -/
  rlen      : Nat
  /-- WCAP0: bytes of capacity of the writer's buffer at reset. -/
  wcap0     : Nat
  rposInit  : Nat
  rpendInit : Byte
  wposInit  : Nat
  wpendInit : Byte
  deriving DecidableEq, Repr

/-- One answer of the growable store to `GrowEnsure(m)` (R55). `ok extra fill`: it grows by `m + extra` bytes (at most up
to the limit of R222 item 1), and the new bytes hold what `fill` says, else what the store held there. -/
inductive GrowAnswer where
  | fail
  | ok (extra : Nat) (fill : List (Nat × Byte))
  deriving DecidableEq, Repr, Inhabited

/-- What follows the listed start of a feed: nothing, or an endless continuation, the one of this name from its element
`next` on. -/
inductive After where
  | ends
  | endless (name next : Nat)
  deriving DecidableEq, Repr

/-- A finite or infinite sequence from outside, as plain data (R6): its listed start and what follows it. The elements of an
endless continuation are those of an opaque constant below, so any sequence at all. DESIGN CHOICE, log entry 17. -/
structure Feed (α : Type) where
  listed : List α
  after  : After
  deriving DecidableEq, Repr

/-- What the environment will answer (R35), as plain data: one answer for each coming request; when a feed has ended, the
answers are those of the reference environment of R57. DESIGN CHOICE, log entries 3 and 17. -/
structure Env where
  /-- Coming `SrcPull` answers: `true` delivers the next byte of SRC if there is one, `false` answers `Exhausted`. -/
  pulls   : Feed Bool
  /-- Coming `SnkPush` answers: `true` is `ok`, `false` is `fail`. -/
  accepts : Feed Bool
  /-- Coming `GrowEnsure` answers. -/
  grows   : Feed GrowAnswer
  /-- GROW_MAX of the reference environment (R57). -/
  growMax : Nat
  /-- SINK_MAX of the reference environment (R57); `none` is a sink without a limit. -/
  sinkMax : Option Nat
  deriving DecidableEq, Repr

/-- The largest legal RLEN and WCAP in bytes (R222 item 1, R160). -/
def maxBytes : Nat := 2 ^ 61 - 1

/-- The largest position a 64-bit cursor holds (R195). -/
def maxPos : Nat := 2 ^ 64 - 1

/-- The FREE VALUE for RESULT of R.FIELD under EOD: any 64-bit value (R134, 93 U2). No body: nothing can evaluate it or
prove a value of it. Log entry 5. -/
opaque Config.freeField : Nat → U64

/-- The FREE bytes of endless sources, by name and place: any infinite byte sequences (R6, R34). Log entry 17. -/
opaque Config.endlessByte : Nat → Nat → Byte

/-- The FREE answers of endless feeds of `SrcPull` answers (R6, R53). Log entry 17. -/
opaque Config.endlessPull : Nat → Nat → Bool

/-- The FREE answers of endless feeds of `SnkPush` answers (R6, R56). Log entry 17. -/
opaque Config.endlessPush : Nat → Nat → Bool

/-- The FREE answers of endless feeds of `GrowEnsure` answers (R6, R55). Log entry 17. -/
opaque Config.endlessGrow : Nat → Nat → GrowAnswer

end Sys2Proof
end

