-- ==== Sys2Proof/Machine/State.lean ====
section
/-! DEFINITION. The state of bitio-core (10_state.md R20, R21, R34), the reasons a step can stop, and the state right after
reset (R36). Plain data only. -/

namespace Sys2Proof.Machine

/-- The contents of a byte store, as address and byte pairs in the canonical form `Memory.wf`: addresses strictly rising,
no entry equal to what an unlisted byte reads as (log entry 6). -/
abbrev Memory := List Host.Cell

/-- The seven values STATUS can take (30_encoding.md R94; codes 7 to 15 are never produced, 93 U11). -/
inductive Status where
  | ok
  | eod
  | capacity
  | precond
  | illegal
  | posovf
  | faulted
  deriving DecidableEq, Repr

/-- What the platform binds the block to before a reset (70_reset_and_hazards.md R220, R223): parameters, store contents
and the environment. -/
structure Binding where
  cfg  : Params
  rbuf : Memory
  src  : Feed Byte
  wbuf : Memory
  env  : Env
  deriving DecidableEq, Repr

/-- What the host can do between two steps (10_state.md R38): issue a command, apply hardware reset (R220, R221), or bind
the block anew and then reset it (R220, R223). -/
inductive HostEvent where
  | command (cmd : CmdWord) (opnd : U64)
  | reset
  | rebind (b : Binding)
  deriving DecidableEq, Repr

/-- The whole state (R20, R21, R34); `cfg`, `env`, `pending` and `freeIdx` are the model's own fields (log entries 1, 2, 3,
5). -/
structure State where
  /-- The parameters of R6, fixed between resets (R35). -/
  cfg     : Params
  /-- What the environment will answer (R35). -/
  env     : Env
  /-- The host's next inputs, first one first (R38). -/
  pending : List HostEvent
  /-- CMD, the command word of the current transaction (R21). -/
  cmd     : CmdWord
  /-- OPND, its operand (R21). -/
  opnd    : U64
  /-- STATUS of the last response (R21, R94). -/
  status  : Status
  /-- COUNT of the last response (R21, R96). -/
  count   : BitVec 8
  /-- RESULT of the last response (R21). -/
  result  : U64
  /-- RPOS, the reader's bit position (R24). -/
  rpos    : U64
  /-- RPEND, the reader's pending byte, as it was pulled (R25). -/
  rpend   : Byte
  /-- RPCNT, how many bits of RPEND are already consumed (R25). -/
  rpcnt   : BitVec 3
  /-- WPOS, the writer's bit position (R26). -/
  wpos    : U64
  /-- WPEND, the writer's pending bits, left-justified, zeros below (R27). -/
  wpend   : Byte
  /-- WPCNT, how many bits of WPEND are valid (R27). -/
  wpcnt   : BitVec 3
  /-- FAULT, sticky (R28). -/
  fault   : Bool
  /-- FCAUSE (R28). -/
  fcause  : BitVec 4
  /-- RBUF, the reader's buffer; its length is `cfg.rlen` (R34). -/
  rbuf    : Memory
  /-- SRC, the bytes the source has yet to deliver, finitely many or not (R6, R34). -/
  src     : Feed Byte
  /-- WBUF, the writer's buffer; its capacity is `wcap` (R34). -/
  wbuf    : Memory
  /-- WCAP (R34, R55). -/
  wcap    : Nat
  /-- SNK, the bytes pushed since reset, oldest first (R34). -/
  snk     : List Byte
  /-- Which free value the next R.FIELD under EOD shows (R134, U2). -/
  freeIdx : Nat
  deriving DecidableEq, Repr

/-- Why a step can stop with a fault. The block raises neither: it checks every bound first (R52, R54), so both are
unreachable and SAFE (log entry 13). The spec's own conditions (R190) are NEXT states. -/
inductive Fault where
  /-- Raised by the store port `memReadR` for a byte index at or above RLEN, an address R52 says does not exist. Safe. -/
  | rbufRange (i : Nat)
  /-- Raised by the store ports `memReadW` and `memWriteW` for a byte index at or above WCAP, an address R54 says does not
  exist. Safe. -/
  | wbufRange (i : Nat)
  deriving DecidableEq, Repr

/-- Why a step can be refused. -/
inductive Refusal where
  /-- An instruction without a meaning: no arm of `exec` answers it. Safe. -/
  | notModelled (mnemonic : String)
  /-- Raised by a reset whose parameters break R222: not a configuration of bitio-core, "a model refuses it" (93 U15).
  Safe (log entry 10). -/
  | configuration
  deriving DecidableEq, Repr

/-- The default parameters: the INIT values are the spec's (R6); the variants, RLEN and WCAP0 are the model's pick among
those R6 leaves open. DESIGN CHOICE, log entry 1. -/
def defaultParams : Params where
  rvar := .buffer
  wvar := .growable
  rlen := 0
  wcap0 := 0
  rposInit := 0
  rpendInit := 0
  wposInit := 0
  wpendInit := 0

/-- The default environment: no listed answers, a reference environment (R57) that grows as far as R222 lets a store go and
accepts without a limit. DESIGN CHOICE, log entry 3. -/
def defaultEnv : Env where
  pulls := ⟨[], .ends⟩
  accepts := ⟨[], .ends⟩
  grows := ⟨[], .ends⟩
  growMax := maxBytes
  sinkMax := none

/-- The machine right after reset with the default parameters (R36): every register 0, empty stores, no input pending. -/
def State.reset : State where
  cfg := defaultParams
  env := defaultEnv
  pending := []
  cmd := 0
  opnd := 0
  status := .ok
  count := 0
  result := 0
  rpos := 0
  rpend := 0
  rpcnt := 0
  wpos := 0
  wpend := 0
  wpcnt := 0
  fault := false
  fcause := 0
  rbuf := []
  src := ⟨[], .ends⟩
  wbuf := []
  wcap := 0
  snk := []
  freeIdx := 0

end Sys2Proof.Machine
end

