-- ==== Sys2Proof/Machine/Feed.lean ====
section
/-! DEFINITION. Reading a feed: a finite or infinite sequence from outside, a source's bytes or a store's answers
(00_scope.md R6, 10_state.md R34, R35). -/

namespace Sys2Proof

/-- The next element, if there is one; `endless` gives the elements of endless continuations. -/
def Feed.head {α : Type} (endless : Nat → Nat → α) (f : Feed α) : Option α :=
  match f.listed, f.after with
  | a :: _, _ => some a
  | [], .ends => none
  | [], .endless name next => some (endless name next)

/-- The feed without its next element; a feed that has ended stays so. -/
def Feed.rest {α : Type} (f : Feed α) : Feed α :=
  match f.listed, f.after with
  | _ :: l, after => ⟨l, after⟩
  | [], .ends => ⟨[], .ends⟩
  | [], .endless name next => ⟨[], .endless name (next + 1)⟩

end Sys2Proof
end

