-- ==== Sys2Proof/Machine/Memory.lean ====
section
/-! DEFINITION. Reading and writing one byte of a byte store, and the canonical form the operations keep (log entry 6). -/

namespace Sys2Proof.Machine

/-- What an unlisted byte reads as. DESIGN CHOICE, log entry 6. -/
def unlistedByte : Byte := 0

/-- The byte at index `i`. -/
def Memory.read (m : Memory) (i : Nat) : Byte :=
  match m with
  | [] => unlistedByte
  | (a, b) :: rest => if a = i then b else Memory.read rest i

/-- Replace the byte at index `i`; writing what an unlisted byte reads as removes the entry. -/
def Memory.write (m : Memory) (i : Nat) (v : Byte) : Memory :=
  match m with
  | [] => if v = unlistedByte then [] else [(i, v)]
  | (a, b) :: rest =>
    if i < a then (if v = unlistedByte then (a, b) :: rest else (i, v) :: (a, b) :: rest)
    else if i = a then (if v = unlistedByte then rest else (i, v) :: rest)
    else (a, b) :: Memory.write rest i v

/-- Every listed address is at least `lo`, addresses rise strictly, and no entry holds the unlisted byte. -/
def Memory.wfFrom (m : Memory) (lo : Nat) : Bool :=
  match m with
  | [] => true
  | (a, b) :: rest => decide (lo ≤ a) && decide (b ≠ unlistedByte) && Memory.wfFrom rest (a + 1)

/-- The canonical form: equal stores are equal lists. -/
def Memory.wf (m : Memory) : Bool := Memory.wfFrom m 0

/-- Write those cells whose address lies in `lo ≤ a < hi`, in list order: the contents a growth gives its new bytes
(20_memory.md R55). -/
def Memory.fill (m : Memory) (lo hi : Nat) (cells : List Host.Cell) : Memory :=
  match cells with
  | [] => m
  | (a, b) :: rest => Memory.fill (if lo ≤ a ∧ a < hi then Memory.write m a b else m) lo hi rest

end Sys2Proof.Machine
end

