-- ==== Sys2Proof/Machine/Bits.lean ====
section
/-! DEFINITION. The bit arithmetic of bitio-core: the helpers of 00_scope.md R11 and R15, the bit position tracker
(10_state.md R30 to R33), byte-boundary crossing (20_memory.md R60, R61), the codec's two functions (40_codec.md R120,
R121) and the bit-stream view (R51). -/

namespace Sys2Proof.Machine

/-- ⌈n/8⌉ (R8). -/
def ceil8 (n : Nat) : Nat := (n + 7) / 8

/-- ByteIndex(p) (R30). -/
def byteIndex (p : Nat) : Nat := p / 8

/-- BitOffset(p) (R31). -/
def bitOffset (p : Nat) : Nat := p % 8

/-- AlignUp(p) (R32). -/
def alignUp (p : Nat) : Nat := 8 * ceil8 p

/-- PadBits(p) (R32). -/
def padBits (p : Nat) : Nat := alignUp p - p

/-- Crosses(p, n): a chunk of n bits at p reaches into the next byte (R33). -/
def crosses (p n : Nat) : Bool := decide (8 < bitOffset p + n)

/-- Fills(p, n): a chunk of n bits at p completes its byte (R33). -/
def fills (p n : Nat) : Bool := decide (8 ≤ bitOffset p + n)

/-- TopMask(n): the top n bits of a byte (R11). -/
def topMask (n : Nat) : Byte := BitVec.ofNat 8 (256 - 2 ^ (8 - n))

/-- Lane(x, i) = x[63−8i : 56−8i] (R11). -/
def lane (x : U64) (i : Nat) : Byte := x.extractLsb' (56 - 8 * i) 8

/-- A byte in lane j of a lane word that is zero elsewhere (R11, R137). -/
def inLane (b : Byte) (j : Nat) : U64 := b.setWidth 64 <<< (56 - 8 * j)

/-- Lanes(b): a lane word of one byte (R11). -/
def lanes (b : Byte) : U64 := inLane b 0

/-- TopBits64(x, n): all but the top n bits cleared (R11). -/
def topBits64 (x : U64) (n : Nat) : U64 := BitVec.ofNat 64 (x.toNat - x.toNat % 2 ^ (64 - n))

/-- The sizes of the chunks a request for n bits is cut into, in order (R15). -/
def chunkSizes (n : Nat) : List Nat := List.replicate (n / 8) 8 ++ (if n % 8 = 0 then [] else [n % 8])

/-- ReadWindow(b0, b1, k, n): the n bits that start k bits into b0 ++ b1, left-justified (R60). -/
def readWindow (b0 b1 : Byte) (k n : Nat) : Byte := ((b0 ++ b1) <<< k).extractLsb' 8 8 &&& topMask n

/-- SplitHi(ch, k): the part that lands in the current byte at offset k (R61). -/
def splitHi (ch : Byte) (k : Nat) : Byte := ch >>> k

/-- SplitLo(ch, k): the carry into the next byte, left-justified (R61). -/
def splitLo (ch : Byte) (k : Nat) : Byte := ch <<< (8 - k)

/-- Pack(v, w) = shl64(v, 64 − w) (R120). -/
def packWord (v : U64) (w : Nat) : U64 := v <<< (64 - w)

/-- Unpack(L, w) = shr64(L, 64 − w) (R121). -/
def unpackWord (l : U64) (w : Nat) : U64 := l >>> (64 - w)

/-- BitAt(M, j): bit index 0 is the MSB of byte 0 (R51). -/
def bitAt (m : Memory) (j : Nat) : Bool := (Memory.read m (j / 8)).getLsbD (7 - j % 8)

/-- The n bits from bit index p on, in stream order (R51). -/
def bitsAt (m : Memory) (p n : Nat) : List Bool := (List.range n).map (fun t => bitAt m (p + t))

/-- The natural whose bits are these, most significant first (R51, R123). -/
def bitsValue : List Bool → Nat
  | [] => 0
  | b :: bs => b.toNat * 2 ^ bs.length + bitsValue bs

/-- Extract(M, p, n) (R51). -/
def extract (m : Memory) (p n : Nat) : Nat := bitsValue (bitsAt m p n)

/-- The bits of a byte in stream order (R10, R58). -/
def byteBits (b : Byte) : List Bool := (List.range 8).map (fun t => b.getLsbD (7 - t))

/-- The first n stream bits of a lane word: stream bit t is bit 63 − t (R58). -/
def laneBits (l : U64) (n : Nat) : List Bool := (List.range n).map (fun t => l.getLsbD (63 - t))

end Sys2Proof.Machine
end

