-- ==== Sys2Proof/Machine/Flags.lean ====
section
/-! DEFINITION. The status codes, FAULT and FCAUSE, and the conditions that raise them (30_encoding.md R94, R99, R100;
60_exceptions.md R190 to R198). bitio-core has no arithmetic flags: no command's "Flags" entry names one. -/

namespace Sys2Proof.Machine

/-- The 4-bit code of a status (R94). -/
def Status.code : Status → BitVec 4
  | .ok => 0
  | .eod => 1
  | .capacity => 2
  | .precond => 3
  | .illegal => 4
  | .posovf => 5
  | .faulted => 6

/-- The three conditions that set FAULT (R190). -/
def Status.isFatal : Status → Bool
  | .ok => false
  | .eod => false
  | .capacity => false
  | .precond => true
  | .illegal => true
  | .posovf => true
  | .faulted => false

/-- FAULT · 16 + FCAUSE (R180). -/
def statWord (s : State) : U64 := BitVec.ofNat 64 (s.fault.toNat * 16 + s.fcause.toNat)

/-- A stream reader's position would leave 64 bits (R195). -/
def readOverflows (s : State) (n : Nat) : Bool := decide (s.cfg.rvar = .stream ∧ maxPos < s.rpos.toNat + n)

/-- A stream writer's position would leave 64 bits (R195). -/
def writeOverflows (s : State) (n : Nat) : Bool := decide (s.cfg.wvar = .stream ∧ maxPos < s.wpos.toNat + n)

/-- A bit-field width, 1 to 64 (R100). -/
def fieldWidthOk (n : BitVec 8) : Bool := decide (1 ≤ n.toNat ∧ n.toNat ≤ 64)

/-- A chunk width, 1 to 8 (R100). -/
def chunkWidthOk (n : BitVec 8) : Bool := decide (1 ≤ n.toNat ∧ n.toNat ≤ 8)

/-- A bit count, 0 to 64 (R100). -/
def bitCountOk (n : BitVec 8) : Bool := decide (n.toNat ≤ 64)

/-- A byte count, 0 to 8 (R100). -/
def byteCountOk (n : BitVec 8) : Bool := decide (n.toNat ≤ 8)

/-- The constraints on the parameters (70_reset_and_hazards.md R222, items 1 to 5). -/
def Params.valid (c : Params) : Bool :=
  decide (c.rlen ≤ maxBytes ∧ c.wcap0 ≤ maxBytes) &&
  decide (c.rposInit < 2 ^ 64 ∧ c.wposInit < 2 ^ 64) &&
  decide (c.rvar = .buffer → c.rposInit ≤ 8 * c.rlen ∧ c.rpendInit = 0) &&
  decide (c.wvar ≠ .stream → c.wposInit ≤ 8 * c.wcap0 ∧ c.wpendInit = 0) &&
  decide (c.rvar = .stream → c.rposInit % 8 = 0 → c.rpendInit = 0) &&
  decide (c.wvar = .stream → c.wpendInit &&& (0xFF - topMask (c.wposInit % 8)) = 0)

/-- A binding the block can be reset with: its parameters meet R222 and its buffers are in canonical form (log entry
10). -/
def Binding.valid (b : Binding) : Bool := Params.valid b.cfg && Memory.wf b.rbuf && Memory.wf b.wbuf

end Sys2Proof.Machine
end

