-- ==== Sys2Proof/Machine/Operands.lean ====
section
/-! DEFINITION. The operand forms: how each command reads OPND and where its result goes (30_encoding.md R95). -/

namespace Sys2Proof.Machine

/-- The value or nbits form: OPND whole, as a `u64` (R95). -/
def opndValue (s : State) : U64 := s.opnd

/-- The lane word form: OPND whole, byte i in lane i (R95). -/
def opndLanes (s : State) : U64 := s.opnd

/-- The byte in lane 0: OPND[63:56] (R95). -/
def opndByte (s : State) : Byte := lane s.opnd 0

/-- The boolean in bit 0: OPND[0] (R95). -/
def opndBool (s : State) : Bool := s.opnd.getLsbD 0

/-- A boolean result in RESULT[0] (R95). -/
def boolResult (b : Bool) : U64 := BitVec.ofNat 64 b.toNat

end Sys2Proof.Machine
end

