-- ==== Sys2Proof/Machine/Ops.lean ====
section
/-! DEFINITION. The named operations every meaning is built from: responses, raising a condition and returning from it
(hardware reset), the fixed order of the checks, and the store ports (00_scope.md R13, R14; 20_memory.md R52 to R56;
60_exceptions.md R196 to R201; 70_reset_and_hazards.md R220 to R222). -/

namespace Sys2Proof.Machine

/-- The outcome of a command. -/
abbrev Result := Host.Outcome State Fault Refusal

/-! ### Field updates -/

/-- respond(status, count, result) (R14): the three response fields, nothing else. -/
def State.respond (s : State) (st : Status) (count : Nat) (result : U64) : State :=
  { s with status := st, count := BitVec.ofNat 8 count, result := result }

/-- Load the reader's cursor: RPOS, RPEND, RPCNT. -/
def State.setReader (s : State) (pos : Nat) (pend : Byte) (cnt : Nat) : State :=
  { s with rpos := BitVec.ofNat 64 pos, rpend := pend, rpcnt := BitVec.ofNat 3 cnt }

/-- Load the writer's cursor: WPOS, WPEND, WPCNT. -/
def State.setWriter (s : State) (pos : Nat) (pend : Byte) (cnt : Nat) : State :=
  { s with wpos := BitVec.ofNat 64 pos, wpend := pend, wpcnt := BitVec.ofNat 3 cnt }

/-- RPOS <- pos. -/
def State.setRpos (s : State) (pos : Nat) : State := { s with rpos := BitVec.ofNat 64 pos }

/-- WPOS <- pos. -/
def State.setWpos (s : State) (pos : Nat) : State := { s with wpos := BitVec.ofNat 64 pos }

/-- Replace WBUF's contents. -/
def State.setWbuf (s : State) (m : Memory) : State := { s with wbuf := m }

/-- The source after a pull: what it has yet to deliver and its coming answers. -/
def State.setSource (s : State) (src : Feed Byte) (pulls : Feed Bool) : State :=
  { s with src := src, env := { s.env with pulls := pulls } }

/-- The sink after a push: what it has received and its coming answers. -/
def State.setSink (s : State) (snk : List Byte) (accepts : Feed Bool) : State :=
  { s with snk := snk, env := { s.env with accepts := accepts } }

/-- The growable store after a request: its capacity, its contents and its coming answers. -/
def State.setGrown (s : State) (wcap : Nat) (wbuf : Memory) (grows : Feed GrowAnswer) : State :=
  { s with wcap := wcap, wbuf := wbuf, env := { s.env with grows := grows } }

/-- A transaction begins: the input leaves the list, CMD and OPND take the host's words (R90). -/
def State.issue (s : State) (w : CmdWord) (o : U64) (rest : List HostEvent) : State :=
  { s with pending := rest, cmd := w, opnd := o }

/-- The next free value is another one (log entry 5). -/
def State.nextFree (s : State) : State := { s with freeIdx := s.freeIdx + 1 }

/-! ### Raising a condition, and the checks before a command's own rule -/

/-- Entry for a fatal condition (R200, R14): `FAULT <- 1; FCAUSE <- code; respond(code, 0, 0)`, no other state changed. -/
def State.raise (s : State) (st : Status) : State :=
  State.respond { s with fault := true, fcause := st.code } st 0 0

/-- The answer while FAULT = 1 (R196): nothing changes but the response. -/
def State.refuseFaulted (s : State) : State := s.respond .faulted 0 0

/-- The checks of R198 in their order (FAULT already set, variant, count range, position overflow), then the command's own
rule. The check for a word that matches no row is `illegalWord`. -/
def command (available countOk overflows : Bool) (own : State → Result) (s : State) : Result :=
  if s.fault then .next s.refuseFaulted
  else if !available then .next (s.raise .illegal)
  else if !countOk then .next (s.raise .precond)
  else if overflows then .next (s.raise .posovf)
  else own s

/-- A word that matches no row (R98, R194): ILLEGAL, or FAULTED when FAULT is already set (R196). -/
def illegalWord (s : State) : State := if s.fault then s.refuseFaulted else s.raise .illegal

/-! ### Hardware reset -/

/-- What hardware reset loads (R36, R221): the registers from the parameters, FAULT and FCAUSE cleared, WCAP and SNK
counted afresh; store contents, source and environment are not touched. The interface fields show no response (log
entry 9). -/
def State.load (s : State) : State :=
  { s with
    cmd := 0, opnd := 0, status := .ok, count := 0, result := 0
    rpos := BitVec.ofNat 64 s.cfg.rposInit
    rpend := s.cfg.rpendInit
    rpcnt := BitVec.ofNat 3 (if s.cfg.rvar = .stream then s.cfg.rposInit % 8 else 0)
    wpos := BitVec.ofNat 64 s.cfg.wposInit
    wpend := s.cfg.wpendInit
    wpcnt := BitVec.ofNat 3 (if s.cfg.wvar = .stream then s.cfg.wposInit % 8 else 0)
    fault := false, fcause := 0, wcap := s.cfg.wcap0, snk := [] }

/-- The platform binds the block to new stores and parameters (R220, R223). -/
def State.bind (s : State) (b : Binding) : State :=
  { s with cfg := b.cfg, rbuf := b.rbuf, src := b.src, wbuf := b.wbuf, env := b.env }

/-- Hardware reset, the only return from a fatal condition (R201, R220). Parameters that break R222 are no configuration of
bitio-core: refused (93 U15). -/
def hardwareReset (s : State) : Result :=
  if Params.valid s.cfg then .next s.load else .refused .configuration

/-- Bind anew, then reset (R220, R223). -/
def rebindAndReset (b : Binding) (s : State) : Result :=
  if Binding.valid b then .next (s.bind b).load else .refused .configuration

/-! ### Store ports -/

/-- MemRead(RBUF, i, 1) (R52); an index at or above RLEN does not exist. -/
def memReadR (s : State) (i : Nat) : Except Fault Byte :=
  if i < s.cfg.rlen then .ok (Memory.read s.rbuf i) else .error (.rbufRange i)

/-- MemRead(WBUF, i, 1) (R54); an index at or above WCAP does not exist. -/
def memReadW (s : State) (i : Nat) : Except Fault Byte :=
  if i < s.wcap then .ok (Memory.read s.wbuf i) else .error (.wbufRange i)

/-- MemWrite(WBUF, i, 1, b) (R54); an index at or above WCAP does not exist. -/
def memWriteW (s : State) (i : Nat) (b : Byte) : Except Fault State :=
  if i < s.wcap then .ok (s.setWbuf (Memory.write s.wbuf i b)) else .error (.wbufRange i)

/-- The source delivers its next byte, or has none (R34, R57). -/
def deliver (s : State) : Option Byte × State :=
  match s.src.head Config.endlessByte with
  | some b => (some b, s.setSource s.src.rest s.env.pulls.rest)
  | none => (none, s.setSource s.src s.env.pulls.rest)

/-- SrcPull() (R53): `some b` is `Byte(b)`, `none` is `Exhausted`. -/
def srcPull (s : State) : Option Byte × State :=
  match s.env.pulls.head Config.endlessPull with
  | some false => (none, s.setSource s.src s.env.pulls.rest)
  | some true => deliver s
  | none => deliver s

/-- The reference environment's sink has accepted `n` bytes and takes another (R57). -/
def belowLimit (limit : Option Nat) (n : Nat) : Bool :=
  match limit with
  | some m => decide (n < m)
  | none => true

/-- SnkPush(b) (R56): `true` is `ok`. -/
def snkPush (b : Byte) (s : State) : Bool × State :=
  if (s.env.accepts.head Config.endlessPush).getD (belowLimit s.env.sinkMax s.snk.length) then
    (true, s.setSink (s.snk ++ [b]) s.env.accepts.rest)
  else (false, s.setSink s.snk s.env.accepts.rest)

/-- GrowEnsure(m) (R55): `true` is `ok`, and then WCAP has grown by at least m, within the limit of R222 item 1 (log
entry 7). -/
def growEnsure (m : Nat) (s : State) : Bool × State :=
  match s.env.grows.head Config.endlessGrow with
  | none =>
    if s.wcap + m ≤ s.env.growMax then (true, s.setGrown (s.wcap + m) s.wbuf s.env.grows.rest)
    else (false, s.setGrown s.wcap s.wbuf s.env.grows.rest)
  | some .fail => (false, s.setGrown s.wcap s.wbuf s.env.grows.rest)
  | some (.ok extra cells) =>
    let cap := max (s.wcap + m) (min (s.wcap + m + extra) maxBytes)
    (true, s.setGrown cap (Memory.fill s.wbuf s.wcap cap cells) s.env.grows.rest)

end Sys2Proof.Machine
end

