-- ==== Sys2Proof/Machine/Codec.lean ====
section
/-! DEFINITION. The codec: PACK and UNPACK (40_codec.md). -/

namespace Sys2Proof.Machine

/-- PACK w (R120). -/
def execPack (n : BitVec 8) (s : State) : Result :=
  command true (fieldWidthOk n) false
    (fun s => .next (s.respond .ok (ceil8 n.toNat) (packWord (opndValue s) n.toNat))) s

/-- UNPACK w (R121). -/
def execUnpack (n : BitVec 8) (s : State) : Result :=
  command true (fieldWidthOk n) false
    (fun s => .next (s.respond .ok (ceil8 n.toNat) (unpackWord (opndLanes s) n.toNat))) s

end Sys2Proof.Machine
end

