-- ==== Sys2Proof/Machine/Reader.lean ====
section
/-! DEFINITION. The bit reader: its chunk functions (20_memory.md R62, R63), its shared bodies and its commands
(41_reader.md). -/

namespace Sys2Proof.Machine

/-! ### Shared parts -/

/-- RBufChunk(n) (R62). -/
def rBufChunk (n : Nat) (s : State) : Except Fault (Byte × State) :=
  let p := s.rpos.toNat
  match memReadR s (byteIndex p) with
  | .error f => .error f
  | .ok b0 =>
    match (if crosses p n then memReadR s (byteIndex p + 1) else .ok 0) with
    | .error f => .error f
    | .ok b1 => .ok (readWindow b0 b1 (bitOffset p) n, s.setRpos (p + n))

/-- RStreamChunk(n) (R63); `none` is the spec's None. -/
def rStreamChunk (n : Nat) (s : State) : Option Byte × State :=
  let p := s.rpos.toNat
  let c := s.rpcnt.toNat
  if c = 0 then
    match srcPull s with
    | (none, s') => (none, s')
    | (some b, s') =>
      (some (b &&& topMask n), if n < 8 then s'.setReader (p + n) b n else s'.setRpos (p + n))
  else if n ≤ 8 - c then
    (some (readWindow s.rpend 0 c n),
      if c + n = 8 then s.setReader (p + n) 0 0 else s.setReader (p + n) s.rpend (c + n))
  else
    match srcPull s with
    | (none, s') => (none, s')
    | (some b, s') => (some (readWindow s.rpend b c n), s'.setReader (p + n) b (c + n - 8))

/-- RChunk(m) (R136). -/
def rChunk (m : Nat) (s : State) : Except Fault (Option Byte × State) :=
  match s.cfg.rvar with
  | .buffer =>
    if 8 * s.cfg.rlen < s.rpos.toNat + m then .ok (none, s)
    else
      match rBufChunk m s with
      | .error f => .error f
      | .ok (out, s') => .ok (some out, s')
  | .stream => .ok (rStreamChunk m s)

/-- What RBits hands back: (status, done, res) and the state it leaves (R137). -/
structure ReadRun where
  status : Status
  done   : Nat
  res    : U64
  post   : State
  deriving DecidableEq, Repr

/-- The loop of RBits over the chunks still to move: chunk j goes to lane j (R137, R15). -/
def rChunks (sizes : List Nat) (j done : Nat) (res : U64) (s : State) : Except Fault ReadRun :=
  match sizes with
  | [] => .ok ⟨.ok, done, res, s⟩
  | m :: rest =>
    match rChunk m s with
    | .error f => .error f
    | .ok (none, s') => .ok ⟨.eod, done, res, s'⟩
    | .ok (some out, s') => rChunks rest (j + 1) (done + m) (res ||| inLane out j) s'

/-- RBits(n) after its position check, which `command` makes (R137): on a Buffer one bounds check for the whole request. -/
def rBits (n : Nat) (s : State) : Except Fault ReadRun :=
  if s.cfg.rvar = .buffer ∧ 8 * s.cfg.rlen < s.rpos.toNat + n then .ok ⟨.eod, 0, 0, s⟩
  else rChunks (chunkSizes n) 0 0 0 s

/-- Respond with what RBits handed back (R133, R142). -/
def respondRead (r : Except Fault ReadRun) : Result :=
  match r with
  | .error f => .fault f
  | .ok run => .next (run.post.respond run.status run.done run.res)

/-- Respond as R.FIELD does (R134): the unpacked value on OK; under EOD RESULT is a free value (U2, log entry 5). -/
def respondField (n : Nat) (r : Except Fault ReadRun) : Result :=
  match r with
  | .error f => .fault f
  | .ok run =>
    match run.status with
    | .ok => .next (run.post.respond .ok n (unpackWord run.res n))
    | st => .next (run.post.nextFree.respond st run.done (Config.freeField run.post.freeIdx))

/-- One chunk as a command: its byte through `result` (R130 to R132). -/
def respondChunk (n : Nat) (result : Byte → U64) (r : Except Fault (Option Byte × State)) : Result :=
  match r with
  | .error f => .fault f
  | .ok (none, s') => .next (s'.respond .eod 0 0)
  | .ok (some out, s') => .next (s'.respond .ok n (result out))

/-! ### Commands -/

/-- R.BITB n (R130). -/
def execRBitb (n : BitVec 8) (s : State) : Result :=
  command true (chunkWidthOk n) (readOverflows s n.toNat)
    (fun s => respondChunk n.toNat lanes (rChunk n.toNat s)) s

/-- R.BYTE (R131): R.BITB with n = 8. -/
def execRByte (s : State) : Result :=
  command true true (readOverflows s 8) (fun s => respondChunk 8 lanes (rChunk 8 s)) s

/-- R.BOOL (R132). -/
def execRBool (s : State) : Result :=
  command true true (readOverflows s 1)
    (fun s => respondChunk 1 (fun out => boolResult (out.getLsbD 7)) (rChunk 1 s)) s

/-- R.BITS n (R133). -/
def execRBits (n : BitVec 8) (s : State) : Result :=
  command true (bitCountOk n) (readOverflows s n.toNat) (fun s => respondRead (rBits n.toNat s)) s

/-- R.FIELD n (R134). -/
def execRField (n : BitVec 8) (s : State) : Result :=
  command true (fieldWidthOk n) (readOverflows s n.toNat)
    (fun s => respondField n.toNat (rBits n.toNat s)) s

/-- R.ALIGN (R135). -/
def execRAlign (s : State) : Result :=
  command true true (readOverflows s (padBits s.rpos.toNat))
    (fun s => .next ((s.setReader (s.rpos.toNat + padBits s.rpos.toNat) 0 0).respond .ok (padBits s.rpos.toNat) 0)) s

/-- R.ARR n, n whole bytes, Buffer only (R142, R99). -/
def execRArr (n : BitVec 8) (s : State) : Result :=
  command (decide (s.cfg.rvar = .buffer)) (byteCountOk n) false
    (fun s => respondRead (rBits (8 * n.toNat) s)) s

/-- R.POS (R143): answered whatever FAULT is (R196). -/
def execRPos (s : State) : Result := .next (s.respond .ok 0 s.rpos)

/-- R.RST (R144): position and pending byte to 0, no store touched. -/
def execRRst (s : State) : Result :=
  command true true false (fun s => .next ((s.setReader 0 0 0).respond .ok 0 0)) s

end Sys2Proof.Machine
end

