-- ==== Sys2Proof/Machine/System.lean ====
section
/-! DEFINITION. The system command SYS.STAT (43_system.md). -/

namespace Sys2Proof.Machine

/-- SYS.STAT (R180): answered whatever FAULT is (R196); it clears nothing. -/
def execSysStat (s : State) : Result := .next (s.respond .ok 0 (statWord s))

end Sys2Proof.Machine
end

