-- ==== Sys2Proof/Machine/Writer.lean ====
section
/-! DEFINITION. The bit writer: its chunk functions (20_memory.md R64, R65), its shared bodies and its commands
(42_writer.md). -/

namespace Sys2Proof.Machine

/-! ### Shared parts -/

/-- WBufChunk(ch, n) (R64): the bits already produced are kept, the rest of every touched byte is replaced. -/
def wBufChunk (ch : Byte) (n : Nat) (s : State) : Except Fault State :=
  let p := s.wpos.toNat
  let k := bitOffset p
  match (if k = 0 then .ok 0 else memReadW s (byteIndex p)) with
  | .error f => .error f
  | .ok old =>
    match memWriteW s (byteIndex p) ((old &&& topMask k) ||| splitHi ch k) with
    | .error f => .error f
    | .ok s1 =>
      match (if crosses p n then memWriteW s1 (byteIndex p + 1) (splitLo ch k) else .ok s1) with
      | .error f => .error f
      | .ok s2 => .ok (s2.setWpos (p + n))

/-- WStreamChunk(ch, n) (R65); `true` is the spec's ok. -/
def wStreamChunk (ch : Byte) (n : Nat) (s : State) : Bool × State :=
  let p := s.wpos.toNat
  let c := s.wpcnt.toNat
  if c + n < 8 then (true, s.setWriter (p + n) (s.wpend ||| splitHi ch c) (c + n))
  else
    match snkPush (s.wpend ||| splitHi ch c) s with
    | (false, s') => (false, s')
    | (true, s') => (true, s'.setWriter (p + n) (splitLo ch c) (c + n - 8))

/-- WEnsure(nbits), Growable only (R160); `true` is ok. -/
def wEnsure (nbits : Nat) (s : State) : Bool × State :=
  let need := ceil8 (s.wpos.toNat + nbits)
  if need ≤ s.wcap then (true, s)
  else if maxBytes < need then (false, s)
  else growEnsure (need - s.wcap) s

/-- WChunk(ch, m) (R161); `true` is ok. -/
def wChunk (ch : Byte) (m : Nat) (s : State) : Except Fault (Bool × State) :=
  match s.cfg.wvar with
  | .stream => .ok (wStreamChunk ch m s)
  | .fixed =>
    if 8 * s.wcap < s.wpos.toNat + m then .ok (false, s)
    else
      match wBufChunk ch m s with
      | .error f => .error f
      | .ok s' => .ok (true, s')
  | .growable =>
    match wBufChunk ch m s with
    | .error f => .error f
    | .ok s' => .ok (true, s')

/-- What WBits and WPushPending hand back: (status, amount) and the state they leave (R162, R164). -/
structure WriteRun where
  status : Status
  done   : Nat
  post   : State
  deriving DecidableEq, Repr

/-- The loop of WBits over the chunks still to move: chunk j comes from lane j, only its top bits are consumed (R162). -/
def wChunks (sizes : List Nat) (j done : Nat) (l : U64) (s : State) : Except Fault WriteRun :=
  match sizes with
  | [] => .ok ⟨.ok, done, s⟩
  | m :: rest =>
    match wChunk (lane l j &&& topMask m) m s with
    | .error f => .error f
    | .ok (false, s') => .ok ⟨.capacity, done, s'⟩
    | .ok (true, s') => wChunks rest (j + 1) (done + m) l s'

/-- WBits(L, n) after its position check, which `command` makes (R162): on Growable the whole request is ensured first. -/
def wBits (l : U64) (n : Nat) (s : State) : Except Fault WriteRun :=
  if s.cfg.wvar = .growable then
    match wEnsure n s with
    | (false, s') => .ok ⟨.capacity, 0, s'⟩
    | (true, s') => wChunks (chunkSizes n) 0 0 l s'
  else wChunks (chunkSizes n) 0 0 l s

/-- WPushPending() after its position check (R164). -/
def wPushPending (s : State) : WriteRun :=
  let pad := padBits s.wpos.toNat
  if pad = 0 then ⟨.ok, 0, s⟩
  else
    match snkPush s.wpend s with
    | (false, s') => ⟨.capacity, 0, s'⟩
    | (true, s') => ⟨.ok, pad, s'.setWriter (s.wpos.toNat + pad) 0 0⟩

/-- Respond with what a writer body handed back; RESULT is 0. -/
def respondWrite (r : Except Fault WriteRun) : Result :=
  match r with
  | .error f => .fault f
  | .ok run => .next (run.post.respond run.status run.done 0)

/-! ### Commands -/

/-- W.BITB n (R150). -/
def execWBitb (n : BitVec 8) (s : State) : Result :=
  command true (chunkWidthOk n) (writeOverflows s n.toNat)
    (fun s => respondWrite (wBits (lanes (opndByte s)) n.toNat s)) s

/-- W.BYTE (R151). -/
def execWByte (s : State) : Result :=
  command true true (writeOverflows s 8) (fun s => respondWrite (wBits (lanes (opndByte s)) 8 s)) s

/-- W.BOOL (R152). -/
def execWBool (s : State) : Result :=
  command true true (writeOverflows s 1)
    (fun s => respondWrite (wBits (lanes (if opndBool s then 0x80 else 0x00)) 1 s)) s

/-- W.BITS n (R153). -/
def execWBits (n : BitVec 8) (s : State) : Result :=
  command true (bitCountOk n) (writeOverflows s n.toNat)
    (fun s => respondWrite (wBits (opndLanes s) n.toNat s)) s

/-- W.FIELD n (R154). -/
def execWField (n : BitVec 8) (s : State) : Result :=
  command true (fieldWidthOk n) (writeOverflows s n.toNat)
    (fun s => respondWrite (wBits (packWord (opndValue s) n.toNat) n.toNat s)) s

/-- W.ALIGN (R155): on a Stream push and advance, on a buffer position only. -/
def execWAlign (s : State) : Result :=
  command true true (writeOverflows s (padBits s.wpos.toNat))
    (fun s =>
      if s.cfg.wvar = .stream then respondWrite (.ok (wPushPending s))
      else .next ((s.setWpos (s.wpos.toNat + padBits s.wpos.toNat)).respond .ok (padBits s.wpos.toNat) 0)) s

/-- W.GROW, Growable only (R156, R99). -/
def execWGrow (s : State) : Result :=
  command (decide (s.cfg.wvar = .growable)) true false
    (fun s =>
      match wEnsure (opndValue s).toNat s with
      | (true, s') => .next (s'.respond .ok 0 0)
      | (false, s') => .next (s'.respond .capacity 0 0)) s

/-- W.FLUSH, Stream only (R157, R99). -/
def execWFlush (s : State) : Result :=
  command (decide (s.cfg.wvar = .stream)) true (writeOverflows s (padBits s.wpos.toNat))
    (fun s => respondWrite (.ok (wPushPending s))) s

/-- W.LEN, Fixed or Growable (R169, R99). -/
def execWLen (s : State) : Result :=
  command (decide (s.cfg.wvar ≠ .stream)) true false
    (fun s => .next (s.respond .ok 0 (BitVec.ofNat 64 (ceil8 s.wpos.toNat)))) s

/-- W.POS (R170): answered whatever FAULT is (R196). -/
def execWPos (s : State) : Result := .next (s.respond .ok 0 s.wpos)

/-- W.RST (R171): position and pending bits to 0, no store touched, nothing flushed. -/
def execWRst (s : State) : Result :=
  command true true false (fun s => .next ((s.setWriter 0 0 0).respond .ok 0 0)) s

end Sys2Proof.Machine
end

