-- ==== Sys2Proof/Machine/Dispatch.lean ====
section
/-! DEFINITION. One arm per command of Instr, each a direct call of its meaning. -/

namespace Sys2Proof.Machine

def exec (i : Instr) (s : State) : Host.Outcome State Fault Refusal :=
  match i with
  | .pack n => Sys2Proof.Machine.execPack n s
  | .unpack n => Sys2Proof.Machine.execUnpack n s
  | .rBitb n => Sys2Proof.Machine.execRBitb n s
  | .rByte => Sys2Proof.Machine.execRByte s
  | .rBool => Sys2Proof.Machine.execRBool s
  | .rBits n => Sys2Proof.Machine.execRBits n s
  | .rField n => Sys2Proof.Machine.execRField n s
  | .rAlign => Sys2Proof.Machine.execRAlign s
  | .rArr n => Sys2Proof.Machine.execRArr n s
  | .rPos => Sys2Proof.Machine.execRPos s
  | .rRst => Sys2Proof.Machine.execRRst s
  | .wBitb n => Sys2Proof.Machine.execWBitb n s
  | .wByte => Sys2Proof.Machine.execWByte s
  | .wBool => Sys2Proof.Machine.execWBool s
  | .wBits n => Sys2Proof.Machine.execWBits n s
  | .wField n => Sys2Proof.Machine.execWField n s
  | .wAlign => Sys2Proof.Machine.execWAlign s
  | .wGrow => Sys2Proof.Machine.execWGrow s
  | .wFlush => Sys2Proof.Machine.execWFlush s
  | .wLen => Sys2Proof.Machine.execWLen s
  | .wPos => Sys2Proof.Machine.execWPos s
  | .wRst => Sys2Proof.Machine.execWRst s
  | .sysStat => Sys2Proof.Machine.execSysStat s

end Sys2Proof.Machine
end

