-- ==== Sys2Proof/Machine/Step.lean ====
section
/-! DEFINITION. One step: the host's next input, run to its end (10_state.md R38). -/

namespace Sys2Proof.Machine

/-- `s` with the command `w` as the host's next input, its operand the OPND that `s` holds: the very next step runs it
(log entry 2). -/
def State.withFetchWord (s : State) (nbits w : Nat) : State :=
  { s with pending := .command (BitVec.ofNat 16 (w % 2 ^ nbits)) s.opnd :: s.pending }

/-- One step: idle when the host does nothing (R208), one whole transaction for a command word (R38, R90), hardware reset
(R220). -/
def step (s : State) : Host.Outcome State Fault Refusal :=
  match s.pending with
  | [] => .next s
  | .command w o :: rest =>
    match decode w with
    | .ok i => exec i (s.issue w o rest)
    | .error _ => .next (illegalWord (s.issue w o rest))
  | .reset :: rest => hardwareReset { s with pending := rest }
  | .rebind b :: rest => rebindAndReset b { s with pending := rest }

end Sys2Proof.Machine
end

