-- ==== Sys2Proof/WellFormed.lean ====
section
/-! DEFINITION. Well-formed commands: the count field is in its row's range (30_encoding.md R92, R100). An ill-formed
command still has a word and a meaning: it raises PRECOND (R193). -/

namespace Sys2Proof

/-- The legal range of `n` as R92's column gives it, lowest and highest value; rows marked "=0" take 0 only. -/
def Instr.countRange : Instr → Nat × Nat
  | .pack _ => (1, 64)
  | .unpack _ => (1, 64)
  | .rBitb _ => (1, 8)
  | .rByte => (0, 0)
  | .rBool => (0, 0)
  | .rBits _ => (0, 64)
  | .rField _ => (1, 64)
  | .rAlign => (0, 0)
  | .rArr _ => (0, 8)
  | .rPos => (0, 0)
  | .rRst => (0, 0)
  | .wBitb _ => (1, 8)
  | .wByte => (0, 0)
  | .wBool => (0, 0)
  | .wBits _ => (0, 64)
  | .wField _ => (1, 64)
  | .wAlign => (0, 0)
  | .wGrow => (0, 0)
  | .wFlush => (0, 0)
  | .wLen => (0, 0)
  | .wPos => (0, 0)
  | .wRst => (0, 0)
  | .sysStat => (0, 0)

/-- The count field lies in the row's range (R92, R100). -/
def Instr.wellFormed (i : Instr) : Bool :=
  i.countRange.1 ≤ i.countField.toNat && i.countField.toNat ≤ i.countRange.2

end Sys2Proof
end

