-- ==== Sys2Proof/Safety.lean ====
section
/-! DEFINITION. The terms the claims use: the invariants of 10_state.md R29, the bits a reader has yet to deliver and a
writer has produced (R51, R58, R66), and what a command may change. Nothing here is called by the machine. -/

namespace Sys2Proof

/-! ### Feeds -/

/-- The feed without its next `k` elements. -/
def Feed.skip {α : Type} (k : Nat) (f : Feed α) : Feed α :=
  match k with
  | 0 => f
  | k + 1 => Feed.skip k f.rest

/-- The first `k` elements of a feed, or all there are. -/
def Feed.take {α : Type} (endless : Nat → Nat → α) (k : Nat) (f : Feed α) : List α :=
  match k with
  | 0 => []
  | k + 1 =>
    match f.head endless with
    | none => []
    | some a => a :: Feed.take endless k f.rest

end Sys2Proof

namespace Sys2Proof.Machine

/-! ### Invariants -/

/-- The reader's part of R29, items 2 to 5. -/
abbrev ReaderInv (s : State) : Prop :=
  (s.cfg.rvar = .stream → s.rpcnt.toNat = s.rpos.toNat % 8) ∧
  (s.cfg.rvar = .buffer → s.rpend = 0 ∧ s.rpcnt = 0 ∧ s.rpos.toNat ≤ 8 * s.cfg.rlen) ∧
  (s.rpcnt = 0 → s.rpend = 0)

/-- The writer's part of R29, items 2 to 5. -/
abbrev WriterInv (s : State) : Prop :=
  (s.cfg.wvar = .stream → s.wpcnt.toNat = s.wpos.toNat % 8) ∧
  (s.cfg.wvar ≠ .stream → s.wpend = 0 ∧ s.wpcnt = 0 ∧ s.wpos.toNat ≤ 8 * s.wcap) ∧
  s.wpend &&& (0xFF - topMask s.wpcnt.toNat) = 0

/-- FAULT and FCAUSE, R29 item 6. -/
abbrev FaultInv (s : State) : Prop :=
  (s.fault = false → s.fcause = 0) ∧ (s.fault = true → s.fcause = 3 ∨ s.fcause = 4 ∨ s.fcause = 5)

/-- The stores: canonical contents, legal parameters and capacity (R222). -/
abbrev StoreInv (s : State) : Prop :=
  Params.valid s.cfg = true ∧ Memory.wf s.rbuf = true ∧ Memory.wf s.wbuf = true ∧ s.wcap ≤ maxBytes

/-- The invariants of R29, items 1 to 6, with R222 and the canonical form of the stores. -/
abbrev Inv (s : State) : Prop := ReaderInv s ∧ WriterInv s ∧ FaultInv s ∧ StoreInv s

/-- The bits of byte `p / 8` of the buffer below its top `p % 8` are zero. -/
abbrev TailZeroAt (m : Memory) (p : Nat) : Prop :=
  Memory.read m (p / 8) &&& (0xFF - topMask (p % 8)) = 0

/-- R29 item 7: on an in-memory store the tail of the in-progress byte is zero. -/
abbrev TailZero (s : State) : Prop :=
  s.cfg.wvar ≠ .stream → s.wpos.toNat % 8 ≠ 0 → TailZeroAt s.wbuf s.wpos.toNat

/-- The boot requirement of R224, for a store bound with these parameters. -/
abbrev BootTail (c : Params) (m : Memory) : Prop :=
  c.wvar ≠ .stream → c.wposInit % 8 ≠ 0 → TailZeroAt m c.wposInit

/-- The boot requirement of R224 for the reset, if any, that the next step performs. -/
def BootReady (s : State) : Prop :=
  match s.pending with
  | .reset :: _ => BootTail s.cfg s.wbuf
  | .rebind b :: _ => BootTail b.cfg b.wbuf
  | _ => True

/-! ### Bits to come and bits produced -/

/-- The first `h` of the bits the reader has yet to deliver, in stream order, or all there are when they are fewer: on a
buffer those from RPOS to its end; on a stream the unread pending bits, then those of the bytes the source has yet to deliver
(R25, R34, R51). How far to look, `h`, is there because a source need not end (R6). -/
def unreadBits (h : Nat) (s : State) : List Bool :=
  match s.cfg.rvar with
  | .buffer => bitsAt s.rbuf s.rpos.toNat (min h (8 * s.cfg.rlen - s.rpos.toNat))
  | .stream =>
    ((if s.rpcnt = 0 then [] else (byteBits s.rpend).drop s.rpcnt.toNat) ++
      (s.src.take Config.endlessByte h).flatMap byteBits).take h

/-- The bits the writer has produced, in stream order: the committed bits of a buffer; a sink's bytes, then the pending
bits (R27, R66, R169). -/
def writtenBits (s : State) : List Bool :=
  match s.cfg.wvar with
  | .stream => s.snk.flatMap byteBits ++ (byteBits s.wpend).take s.wpcnt.toNat
  | .fixed => bitsAt s.wbuf 0 s.wpos.toNat
  | .growable => bitsAt s.wbuf 0 s.wpos.toNat

/-- The low `n` bits of a value, most significant first (R123). -/
def valueBits (v : U64) (n : Nat) : List Bool := (List.range n).map (fun t => v.getLsbD (n - 1 - t))

/-- A lane word that holds these bits in its top bits and zeros below (R137). -/
def leftJustified (bits : List Bool) : U64 := BitVec.ofNat 64 (bitsValue bits * 2 ^ (64 - bits.length))

/-! ### What the stores are willing to do -/

/-- The source's answer to its pull number `j` from now on is not `Exhausted` while it still has a byte (R53, R57). -/
def sourceAnswers (s : State) (j : Nat) : Bool := ((s.env.pulls.skip j).head Config.endlessPull).getD true

/-- It is so for each of the next `k` pulls. -/
abbrev SourceWilling (s : State) (k : Nat) : Prop := ∀ j, j < k → sourceAnswers s j = true

/-- How many bytes a stream reader with `c` bits of its pending byte consumed pulls for `n` more bits (R63). -/
def pullsNeeded (c n : Nat) : Nat := ceil8 (c + n) - ceil8 c

/-- The sink accepts its push number `j` from now on, given that it accepts those before (R56, R57). -/
def sinkAccepts (s : State) (j : Nat) : Bool :=
  ((s.env.accepts.skip j).head Config.endlessPush).getD (belowLimit s.env.sinkMax (s.snk.length + j))

/-- The sink accepts its next `k` bytes (R56, R57). -/
abbrev SinkWilling (s : State) (k : Nat) : Prop := ∀ j, j < k → sinkAccepts s j = true

/-- The growable store answers `ok` to a request that ends at `need` bytes (R55, R57). -/
def GrowWilling (s : State) (need : Nat) : Bool :=
  match s.env.grows.head Config.endlessGrow with
  | none => decide (need ≤ s.env.growMax)
  | some .fail => false
  | some (.ok _ _) => true

/-- There is room for `n` more bits: in the fixed buffer; in the growable store, which has them or grows to them; in the
stream, whose position and sink take them (R160 to R162). -/
def RoomFor (s : State) (n : Nat) : Prop :=
  match s.cfg.wvar with
  | .fixed => s.wpos.toNat + n ≤ 8 * s.wcap
  | .growable =>
    ceil8 (s.wpos.toNat + n) ≤ s.wcap ∨
      (ceil8 (s.wpos.toNat + n) ≤ maxBytes ∧ GrowWilling s (ceil8 (s.wpos.toNat + n)) = true)
  | .stream => s.wpos.toNat + n ≤ maxPos ∧ SinkWilling s ((s.wpcnt.toNat + n) / 8)

/-! ### What may change -/

/-- Only the reader's registers, its source, the response and the free-value counter differ. -/
def OnlyReaderMoved (s t : State) : Prop :=
  t = { s with
    rpos := t.rpos, rpend := t.rpend, rpcnt := t.rpcnt, src := t.src
    env := { s.env with pulls := t.env.pulls }
    status := t.status, count := t.count, result := t.result, freeIdx := t.freeIdx }

/-- Only the writer's registers, its stores and the response differ. -/
def OnlyWriterMoved (s t : State) : Prop :=
  t = { s with
    wpos := t.wpos, wpend := t.wpend, wpcnt := t.wpcnt, wbuf := t.wbuf, wcap := t.wcap, snk := t.snk
    env := { s.env with accepts := t.env.accepts, grows := t.env.grows }
    status := t.status, count := t.count, result := t.result }

/-- What a read on a buffer has no use for: the pending byte, the source and its coming answers (R25, R50). -/
def BufferReaderKept (s t : State) : Prop :=
  s.cfg.rvar = .buffer → t.rpend = s.rpend ∧ t.rpcnt = s.rpcnt ∧ t.src = s.src ∧ t.env.pulls = s.env.pulls

/-- What a write has no use for in its variant: on a buffer the pending byte, the sink and its coming answers; on a stream
WBUF; on a store that cannot grow its capacity and the coming growth answers (R27, R50, R55). -/
def OtherVariantsKept (s t : State) : Prop :=
  (s.cfg.wvar ≠ .stream →
    t.wpend = s.wpend ∧ t.wpcnt = s.wpcnt ∧ t.snk = s.snk ∧ t.env.accepts = s.env.accepts) ∧
  (s.cfg.wvar = .stream → t.wbuf = s.wbuf) ∧
  (s.cfg.wvar ≠ .growable → t.wcap = s.wcap ∧ t.env.grows = s.env.grows)

/-- After `k` bits written from WPOS on, every byte of WBUF but those the bits lie in reads as before, every byte when `k` is
0. On a growable store this is said of the bytes that existed: a growth may set new ones (R55, R64). -/
def OtherBytesKept (s t : State) (k : Nat) : Prop :=
  ∀ a, a < s.wcap ∨ s.cfg.wvar ≠ .growable → a < s.wpos.toNat / 8 ∨ s.wpos.toNat + k ≤ 8 * a ∨ k = 0 →
    Memory.read t.wbuf a = Memory.read s.wbuf a

/-! ### Two readers over the same bits -/

/-- A buffer reader and a stream reader at the same position with the same bits to come, neither faulted, the source
willing to deliver them (R66 item 2). -/
def SameBitsToCome (s u : State) : Prop :=
  s.fault = false ∧ u.fault = false ∧ s.cfg.rvar = .buffer ∧ u.cfg.rvar = .stream ∧
  s.cfg.rlen ≤ maxBytes ∧ s.rpos.toNat ≤ 8 * s.cfg.rlen ∧
  u.rpos = s.rpos ∧ u.rpcnt.toNat = u.rpos.toNat % 8 ∧ (∀ h, unreadBits h u = unreadBits h s) ∧ ∀ k, SourceWilling u k

/-! ### Sequences of fields -/

/-- A sequence of W.FIELD commands, each with its width and its value as operand; `none` unless every one ends OK. -/
def writeFields (fields : List (BitVec 8 × U64)) (s : State) : Option State :=
  match fields with
  | [] => some s
  | (n, v) :: rest =>
    match exec (.wField n) { s with opnd := v } with
    | .next t => if t.status = .ok then writeFields rest t else none
    | .fault _ => none
    | .refused _ => none

/-- The results of a sequence of R.FIELD commands of these widths; `none` unless every one ends OK. -/
def readFields (widths : List (BitVec 8)) (s : State) : Option (List U64) :=
  match widths with
  | [] => some []
  | n :: rest =>
    match exec (.rField n) s with
    | .next t => if t.status = .ok then (readFields rest t).map (fun vs => t.result :: vs) else none
    | .fault _ => none
    | .refused _ => none

end Sys2Proof.Machine

namespace Sys2Proof

open Machine

/-- The commands of the reader unit (R2). -/
def Instr.isReader : Instr → Bool
  | .rBitb _ | .rByte | .rBool | .rBits _ | .rField _ | .rAlign | .rArr _ | .rPos | .rRst => true
  | .pack _ | .unpack _ | .wBitb _ | .wByte | .wBool | .wBits _ | .wField _ | .wAlign | .wGrow | .wFlush | .wLen | .wPos
  | .wRst | .sysStat => false

/-- The commands of the writer unit (R2). -/
def Instr.isWriter : Instr → Bool
  | .wBitb _ | .wByte | .wBool | .wBits _ | .wField _ | .wAlign | .wGrow | .wFlush | .wLen | .wPos | .wRst => true
  | .pack _ | .unpack _ | .rBitb _ | .rByte | .rBool | .rBits _ | .rField _ | .rAlign | .rArr _ | .rPos | .rRst
  | .sysStat => false

/-- How many bits a reader data command asks for; `none` for every other command (R130 to R134, R142). -/
def Instr.readBits : Instr → Option Nat
  | .rBitb n => some n.toNat
  | .rByte => some 8
  | .rBool => some 1
  | .rBits n => some n.toNat
  | .rField n => some n.toNat
  | .rArr n => some (8 * n.toNat)
  | .pack _ | .unpack _ | .rAlign | .rPos | .rRst | .wBitb _ | .wByte | .wBool | .wBits _ | .wField _ | .wAlign | .wGrow
  | .wFlush | .wLen | .wPos | .wRst | .sysStat => none

/-- The value of these bits in the place the command puts its result: a lane word, or a value or boolean at the bottom
(R95, R130 to R134, R142). -/
def Instr.readResult (bits : List Bool) : Instr → U64
  | .rBitb _ | .rByte | .rBits _ | .rArr _ => leftJustified bits
  | .rBool | .rField _ => BitVec.ofNat 64 (bitsValue bits)
  | .pack _ | .unpack _ | .rAlign | .rPos | .rRst | .wBitb _ | .wByte | .wBool | .wBits _ | .wField _ | .wAlign | .wGrow
  | .wFlush | .wLen | .wPos | .wRst | .sysStat => 0

/-- The bits a writer data command takes from its operand, in stream order; `none` for every other command (R150 to
R154). -/
def Instr.operandBits (o : U64) : Instr → Option (List Bool)
  | .wBitb n => some (laneBits o n.toNat)
  | .wByte => some (laneBits o 8)
  | .wBool => some [o.getLsbD 0]
  | .wBits n => some (laneBits o n.toNat)
  | .wField n => some (valueBits o n.toNat)
  | .pack _ | .unpack _ | .rBitb _ | .rByte | .rBool | .rBits _ | .rField _ | .rAlign | .rArr _ | .rPos | .rRst | .wAlign
  | .wGrow | .wFlush | .wLen | .wPos | .wRst | .sysStat => none

/-- The command exists in the configured variants (R99). -/
def Instr.availableIn (c : Params) : Instr → Bool
  | .rArr _ => decide (c.rvar = .buffer)
  | .wGrow => decide (c.wvar = .growable)
  | .wFlush => decide (c.wvar = .stream)
  | .wLen => decide (c.wvar ≠ .stream)
  | .pack _ | .unpack _ | .rBitb _ | .rByte | .rBool | .rBits _ | .rField _ | .rAlign | .rPos | .rRst | .wBitb _ | .wByte
  | .wBool | .wBits _ | .wField _ | .wAlign | .wPos | .wRst | .sysStat => true

/-- The commands answered even when FAULT = 1 (R196). -/
def Instr.isReadout : Instr → Bool
  | .rPos | .wPos | .sysStat => true
  | .pack _ | .unpack _ | .rBitb _ | .rByte | .rBool | .rBits _ | .rField _ | .rAlign | .rArr _ | .rRst | .wBitb _ | .wByte
  | .wBool | .wBits _ | .wField _ | .wAlign | .wGrow | .wFlush | .wLen | .wRst => false

end Sys2Proof
end

