-- ==== Sys2Proof/Certificates/Slice0/Obligations.lean ====
section
/-! DEFINITION. The statements for the provers, from the numbered rules of spec/. An equation with a record update is its own
frame: what the update does not name is unchanged, every byte of both buffers included. -/

open Sys2Proof Sys2Proof.Machine

/-! ### Encoding (30_encoding.md) -/

/-- The word of a command decodes to that command: no bit of the encoding is dropped (R92, R97). -/
def Obligations.DecodeOfEncodeIsTheCommand : Prop := ∀ i : Instr, decode (encode i) = .ok i

/-- A word that decodes is the word of its command: no two words stand for one command (R92, R97). -/
def Obligations.DecodedWordIsTheCommandsWord : Prop :=
  ∀ (w : CmdWord) (i : Instr), decode w = .ok i → encode i = w

/-- No two rows of the opcode table match the same word (R97). -/
def Obligations.AtMostOneRowSelectsAWord : Prop :=
  ∀ (w : CmdWord) (a b : Nat) (ra rb : Row), rows[a]? = some ra → rows[b]? = some rb →
    ra.selects w = true → rb.selects w = true → a = b

/-- Words written out from R92 and R102: `op` · 256 + `n`. -/
def Obligations.SampleWordsDecodeAsTheTableSays : Prop :=
  decode 0x240B = .ok (.wField 11) ∧ decode 0x0109 = .ok (.pack 9) ∧ decode 0x0220 = .ok (.unpack 32) ∧
  decode 0x1311 = .ok (.rBits 17) ∧ decode 0x1602 = .ok (.rArr 2) ∧ decode 0x1800 = .ok .rRst ∧
  decode 0x2100 = .ok .wByte ∧ decode 0x2600 = .ok .wGrow ∧ decode 0x3000 = .ok .sysStat

/-- A word with a reserved `op`, or with a count where the command takes none, matches no row: it raises ILLEGAL and
changes no other state (R98); with FAULT set it is answered FAULTED (R196). -/
def Obligations.WordThatMatchesNoRowIsIllegal : Prop :=
  ∀ (s : State) (w : CmdWord) (o : U64) (rest : List HostEvent),
    s.pending = .command w o :: rest →
    (opField w ∉ ([0x01, 0x02, 0x10, 0x11, 0x12, 0x13, 0x14, 0x15, 0x16, 0x17, 0x18, 0x20, 0x21, 0x22, 0x23, 0x24, 0x25,
        0x26, 0x27, 0x28, 0x29, 0x2A, 0x30] : List (BitVec 8)) ∨
      (opField w ∈ ([0x11, 0x12, 0x15, 0x17, 0x18, 0x21, 0x22, 0x25, 0x26, 0x27, 0x28, 0x29, 0x2A, 0x30] :
        List (BitVec 8)) ∧ countOf w ≠ 0)) →
    (s.fault = false →
      step s = .next { s with pending := rest, cmd := w, opnd := o, fault := true, fcause := 4, status := .illegal, count := 0, result := 0 }) ∧
    (s.fault = true →
      step s = .next { s with pending := rest, cmd := w, opnd := o, status := .faulted, count := 0, result := 0 })

/-- A step runs the decoded command: the input leaves the list, CMD and OPND take the host's words, and the outcome is that
of `exec` (R38, R90). The model's input list is log entry 2. -/
def Obligations.StepRunsTheDecodedCommand : Prop :=
  ∀ (s : State) (w : CmdWord) (o : U64) (rest : List HostEvent) (i : Instr),
    s.pending = .command w o :: rest → decode w = .ok i →
    step s = exec i { s with pending := rest, cmd := w, opnd := o }

/-- With no input the block is idle and all state survives (R38, R208). The model's choice to let an idle step answer the
same state is log entry 8. -/
def Obligations.IdleStepKeepsTheState : Prop := ∀ s : State, s.pending = [] → step s = .next s

/-! ### Conditions (60_exceptions.md) -/

/-- While FAULT = 1 every command but the three readouts, and every word that matches no row, is answered FAULTED and
changes nothing; the readouts are performed normally (R196). -/
def Obligations.FaultedBlockPerformsOnlyTheReadouts : Prop :=
  (∀ (i : Instr) (s : State), s.fault = true → i ≠ .rPos → i ≠ .wPos → i ≠ .sysStat →
    exec i s = .next { s with status := .faulted, count := 0, result := 0 }) ∧
  (∀ (s : State) (w : CmdWord) (o : U64) (rest : List HostEvent) (e : DecodeError), s.fault = true →
    s.pending = .command w o :: rest → decode w = .error e →
    step s = .next { s with pending := rest, cmd := w, opnd := o, status := .faulted, count := 0, result := 0 }) ∧
  (∀ s : State, s.fault = true →
    exec .rPos s = .next { s with status := .ok, count := 0, result := s.rpos } ∧
    exec .wPos s = .next { s with status := .ok, count := 0, result := s.wpos } ∧
    exec .sysStat s = .next { s with status := .ok, count := 0, result := BitVec.ofNat 64 (16 + s.fcause.toNat) })

/-- A fatal condition, of a command or of a word that matches no row, sets FAULT and FCAUSE to its code, answers COUNT = 0
and RESULT = 0, and changes no cursor, pending byte, store or store port (R200). -/
def Obligations.FatalConditionChangesOnlyFault : Prop :=
  (∀ (s : State) (w : CmdWord) (o : U64) (rest : List HostEvent) (e : DecodeError), s.fault = false →
    s.pending = .command w o :: rest → decode w = .error e →
    step s = .next { s with pending := rest, cmd := w, opnd := o, fault := true, fcause := 4, status := .illegal, count := 0, result := 0 }) ∧
  ∀ (i : Instr) (s t : State), exec i s = .next t →
    (t.status = .precond →
      t = { s with fault := true, fcause := 3, status := .precond, count := 0, result := 0 }) ∧
    (t.status = .illegal →
      t = { s with fault := true, fcause := 4, status := .illegal, count := 0, result := 0 }) ∧
    (t.status = .posovf →
      t = { s with fault := true, fcause := 5, status := .posovf, count := 0, result := 0 })

/-- OK, EOD and CAPACITY leave FAULT and FCAUSE as they were (R138, R163, R199). -/
def Obligations.RecoverableConditionLeavesFaultAlone : Prop :=
  ∀ (i : Instr) (s t : State), exec i s = .next t →
    t.status = .ok ∨ t.status = .eod ∨ t.status = .capacity → t.fault = s.fault ∧ t.fcause = s.fcause

/-- Once FAULT = 1 no command word, legal or not, changes any state of the block: only the interface fields move (R28,
R201). -/
def Obligations.NoCommandLeavesTheFaultedState : Prop :=
  ∀ (s t : State) (w : CmdWord) (o : U64) (rest : List HostEvent), s.fault = true →
    s.pending = .command w o :: rest → step s = .next t →
    t = { s with pending := rest, cmd := w, opnd := o, status := t.status, count := t.count, result := t.result }

/-- PRECOND is raised exactly when a command that exists is given a count outside its row's range (R193, R100). -/
def Obligations.PrecondIsACountOutOfRange : Prop :=
  (∀ (i : Instr) (s : State), s.fault = false → i.availableIn s.cfg = true → i.wellFormed = false →
    exec i s = .next { s with fault := true, fcause := 3, status := .precond, count := 0, result := 0 }) ∧
  (∀ (i : Instr) (s t : State), exec i s = .next t → t.status = .precond →
    s.fault = false ∧ i.availableIn s.cfg = true ∧ i.wellFormed = false)

/-- R.ARR exists only with RVAR = Buffer, W.GROW only with WVAR = Growable, W.FLUSH only with WVAR = Stream, W.LEN only
with WVAR = Fixed or Growable; elsewhere they raise ILLEGAL, and no other command does (R99). -/
def Obligations.AbsentCommandIsIllegal : Prop :=
  (∀ (n : BitVec 8) (s : State), s.fault = false → s.cfg.rvar = .stream →
    exec (.rArr n) s = .next { s with fault := true, fcause := 4, status := .illegal, count := 0, result := 0 }) ∧
  (∀ s : State, s.fault = false → s.cfg.wvar ≠ .growable →
    exec .wGrow s = .next { s with fault := true, fcause := 4, status := .illegal, count := 0, result := 0 }) ∧
  (∀ s : State, s.fault = false → s.cfg.wvar ≠ .stream →
    exec .wFlush s = .next { s with fault := true, fcause := 4, status := .illegal, count := 0, result := 0 }) ∧
  (∀ s : State, s.fault = false → s.cfg.wvar = .stream →
    exec .wLen s = .next { s with fault := true, fcause := 4, status := .illegal, count := 0, result := 0 }) ∧
  (∀ (i : Instr) (s t : State), exec i s = .next t → t.status = .illegal →
    ((∃ n, i = .rArr n) ∧ s.cfg.rvar = .stream) ∨ (i = .wGrow ∧ s.cfg.wvar ≠ .growable) ∨
    (i = .wFlush ∧ s.cfg.wvar ≠ .stream) ∨ (i = .wLen ∧ s.cfg.wvar = .stream))

/-- A stream command whose full request would carry the position past 2^64 − 1 raises POSOVF before any bit moves; a
buffer command never does (R195). -/
def Obligations.PositionOverflowStopsBeforeAnyTransfer : Prop :=
  (∀ (i : Instr) (n : Nat) (s : State), s.fault = false → s.cfg.rvar = .stream → i.availableIn s.cfg = true →
    i.wellFormed = true → i.readBits = some n ∨ (i = .rAlign ∧ n = padBits s.rpos.toNat) →
    2 ^ 64 - 1 < s.rpos.toNat + n →
    exec i s = .next { s with fault := true, fcause := 5, status := .posovf, count := 0, result := 0 }) ∧
  (∀ (i : Instr) (n : Nat) (s : State), s.fault = false → s.cfg.wvar = .stream → i.wellFormed = true →
    (∃ bits, i.operandBits s.opnd = some bits ∧ n = bits.length) ∨
      ((i = .wAlign ∨ i = .wFlush) ∧ n = padBits s.wpos.toNat) →
    2 ^ 64 - 1 < s.wpos.toNat + n →
    exec i s = .next { s with fault := true, fcause := 5, status := .posovf, count := 0, result := 0 }) ∧
  (∀ (i : Instr) (s t : State), exec i s = .next t → t.status = .posovf →
    (i.isReader = true ∧ s.cfg.rvar = .stream) ∨ (i.isWriter = true ∧ s.cfg.wvar = .stream))

/-! ### Codec (40_codec.md) -/

/-- PACK, word 0x0100 + w: the value shifted to the top, ⌈w/8⌉ bytes, nothing but the response changed; PRECOND outside 1
to 64; FAULTED when FAULT is set (R120). -/
def Obligations.PackShiftsTheValueToTheTop : Prop :=
  ∀ (n : BitVec 8) (s : State), (encode (.pack n)).toNat = 0x0100 + n.toNat ∧
    (s.fault = true → exec (.pack n) s = .next { s with status := .faulted, count := 0, result := 0 }) ∧
    (s.fault = false → 1 ≤ n.toNat → n.toNat ≤ 64 → exec (.pack n) s = .next { s with status := .ok, count := BitVec.ofNat 8 ((n.toNat + 7) / 8), result := BitVec.ofNat 64 (s.opnd.toNat * 2 ^ (64 - n.toNat)) }) ∧
    (s.fault = false → n.toNat = 0 ∨ 64 < n.toNat → exec (.pack n) s =
      .next { s with fault := true, fcause := 3, status := .precond, count := 0, result := 0 })

/-- UNPACK, word 0x0200 + w: the lane word shifted to the bottom, nothing but the response changed; PRECOND outside 1 to
64; FAULTED when FAULT is set (R121). -/
def Obligations.UnpackShiftsTheFieldToTheBottom : Prop :=
  ∀ (n : BitVec 8) (s : State), (encode (.unpack n)).toNat = 0x0200 + n.toNat ∧
    (s.fault = true → exec (.unpack n) s = .next { s with status := .faulted, count := 0, result := 0 }) ∧
    (s.fault = false → 1 ≤ n.toNat → n.toNat ≤ 64 → exec (.unpack n) s = .next { s with status := .ok, count := BitVec.ofNat 8 ((n.toNat + 7) / 8), result := BitVec.ofNat 64 (s.opnd.toNat / 2 ^ (64 - n.toNat)) }) ∧
    (s.fault = false → n.toNat = 0 ∨ 64 < n.toNat → exec (.unpack n) s =
      .next { s with fault := true, fcause := 3, status := .precond, count := 0, result := 0 })

/-- The laws of the codec's two functions: both are defined for every width and word, and each law is one of R122's. -/
def Obligations.CodecLaws : Prop :=
  ∀ (v l : U64) (w : Nat), 1 ≤ w → w ≤ 64 →
    (v.toNat < 2 ^ w → unpackWord (packWord v w) w = v) ∧
    (unpackWord (packWord v w) w).toNat = v.toNat % 2 ^ w ∧
    packWord (unpackWord l w) w = topBits64 l w ∧
    packWord v w = topBits64 (packWord v w) w

/-- PACK and then UNPACK of its result gives the value's low w bits (R122, items 1 and 2, as commands). -/
def Obligations.PackThenUnpackGivesTheValue : Prop :=
  ∀ (n : BitVec 8) (s : State), s.fault = false → 1 ≤ n.toNat → n.toNat ≤ 64 →
    ∃ t, exec (.pack n) s = .next t ∧
      exec (.unpack n) { t with opnd := t.result } = .next { t with opnd := t.result, result := BitVec.ofNat 64 (s.opnd.toNat % 2 ^ n.toNat) }

/-! ### Reader (41_reader.md) -/

/-- On a Buffer with the bits there, R.BITS, R.ARR, R.FIELD, R.BITB, R.BYTE and R.BOOL complete with the bits
Extract(RBUF, p, n), left-justified or as a value, advance RPOS by the bits moved and change nothing else (R139 item 3, R62,
R130 to R134, R142). -/
def Obligations.BufferReadsReturnTheExtractedBits : Prop :=
  ∀ (n : BitVec 8) (s : State), s.fault = false → s.cfg.rvar = .buffer → s.cfg.rlen ≤ 2 ^ 61 - 1 →
    (n.toNat ≤ 64 → s.rpos.toNat + n.toNat ≤ 8 * s.cfg.rlen → exec (.rBits n) s = .next { s with rpos := BitVec.ofNat 64 (s.rpos.toNat + n.toNat), status := .ok, count := n, result := BitVec.ofNat 64 (extract s.rbuf s.rpos.toNat n.toNat * 2 ^ (64 - n.toNat)) }) ∧
    (n.toNat ≤ 8 → s.rpos.toNat + 8 * n.toNat ≤ 8 * s.cfg.rlen → exec (.rArr n) s = .next { s with rpos := BitVec.ofNat 64 (s.rpos.toNat + 8 * n.toNat), status := .ok, count := BitVec.ofNat 8 (8 * n.toNat), result := BitVec.ofNat 64 (extract s.rbuf s.rpos.toNat (8 * n.toNat) * 2 ^ (64 - 8 * n.toNat)) }) ∧
    (1 ≤ n.toNat → n.toNat ≤ 64 → s.rpos.toNat + n.toNat ≤ 8 * s.cfg.rlen → exec (.rField n) s = .next { s with rpos := BitVec.ofNat 64 (s.rpos.toNat + n.toNat), status := .ok, count := n, result := BitVec.ofNat 64 (extract s.rbuf s.rpos.toNat n.toNat) }) ∧
    (1 ≤ n.toNat → n.toNat ≤ 8 → s.rpos.toNat + n.toNat ≤ 8 * s.cfg.rlen → exec (.rBitb n) s = .next { s with rpos := BitVec.ofNat 64 (s.rpos.toNat + n.toNat), status := .ok, count := n, result := BitVec.ofNat 64 (extract s.rbuf s.rpos.toNat n.toNat * 2 ^ (64 - n.toNat)) }) ∧
    (s.rpos.toNat + 8 ≤ 8 * s.cfg.rlen → exec .rByte s = .next { s with rpos := BitVec.ofNat 64 (s.rpos.toNat + 8), status := .ok, count := 8, result := BitVec.ofNat 64 (extract s.rbuf s.rpos.toNat 8 * 2 ^ 56) }) ∧
    (s.rpos.toNat + 1 ≤ 8 * s.cfg.rlen → exec .rBool s = .next { s with rpos := BitVec.ofNat 64 (s.rpos.toNat + 1), status := .ok, count := 1, result := BitVec.ofNat 64 (extract s.rbuf s.rpos.toNat 1) })

/-- On a Buffer a request past the end answers EOD with COUNT = 0 and changes nothing (R191, R138); RESULT is 0, but any
value for R.FIELD (R134; the free-value counter is log entry 5). -/
def Obligations.BufferReadPastTheEndChangesNothing : Prop :=
  ∀ (i : Instr) (n : Nat) (s : State), s.fault = false → s.cfg.rvar = .buffer → i.wellFormed = true →
    i.readBits = some n → 8 * s.cfg.rlen < s.rpos.toNat + n →
    ((∀ m, i ≠ .rField m) → exec i s = .next { s with status := .eod, count := 0, result := 0 }) ∧
    (∀ m, i = .rField m → ∃ r, exec i s = .next { s with status := .eod, count := 0, result := r, freeIdx := s.freeIdx + 1 })

/-- In either variant, R.BITB, R.BYTE, R.BOOL, R.BITS, R.FIELD and (on a Buffer) R.ARR complete when the bits are there
and the source gives them: the next bits in stream order are the result, they leave the bits to come, RPOS advances by
their number, a stream pulls exactly the bytes it needs, and only the reader has moved; a request for no bits changes nothing
(R63, R130 to R134, R137, R142, R66). -/
def Obligations.ReadsWithEnoughBitsComplete : Prop :=
  ∀ (i : Instr) (n : Nat) (s : State), s.fault = false → i.availableIn s.cfg = true → i.wellFormed = true →
    i.readBits = some n → (unreadBits n s).length = n →
    (s.cfg.rvar = .buffer → s.cfg.rlen ≤ 2 ^ 61 - 1 ∧ s.rpos.toNat ≤ 8 * s.cfg.rlen) →
    (s.cfg.rvar = .stream → s.rpos.toNat + n ≤ 2 ^ 64 - 1 ∧ SourceWilling s (pullsNeeded s.rpcnt.toNat n)) →
    ∃ t, exec i s = .next t ∧ t.status = .ok ∧ t.count = BitVec.ofNat 8 n ∧
      t.result = i.readResult (unreadBits n s) ∧ (∀ h, unreadBits h t = (unreadBits (n + h) s).drop n) ∧
      t.rpos = BitVec.ofNat 64 (s.rpos.toNat + n) ∧ t.freeIdx = s.freeIdx ∧
      (s.cfg.rvar = .stream → t.src = s.src.skip (pullsNeeded s.rpcnt.toNat n) ∧
        t.env.pulls = s.env.pulls.skip (pullsNeeded s.rpcnt.toNat n)) ∧
      (n = 0 → t = { s with status := .ok, count := 0, result := 0 }) ∧ BufferReaderKept s t ∧ OnlyReaderMoved s t

/-- On a Stream that runs dry a request delivers whole leading bytes and answers EOD: COUNT is the bits obtained, RPOS
advances by COUNT, the bits obtained are valid and zero-padded, the rest stay to come (R137, R138, R191). -/
def Obligations.ShortStreamReadDeliversWholeBytes : Prop :=
  ∀ (i : Instr) (n : Nat) (s : State), s.fault = false → s.cfg.rvar = .stream → i.availableIn s.cfg = true →
    i.wellFormed = true → i.readBits = some n → s.rpos.toNat + n ≤ 2 ^ 64 - 1 →
    SourceWilling s (pullsNeeded s.rpcnt.toNat n) → (unreadBits n s).length < n →
    ∃ t, exec i s = .next t ∧ t.status = .eod ∧ t.count = BitVec.ofNat 8 (8 * ((unreadBits n s).length / 8)) ∧
      t.rpos = BitVec.ofNat 64 (s.rpos.toNat + 8 * ((unreadBits n s).length / 8)) ∧
      (∀ h, unreadBits h t =
        (unreadBits (8 * ((unreadBits n s).length / 8) + h) s).drop (8 * ((unreadBits n s).length / 8))) ∧
      ((∀ m, i ≠ .rField m) →
        t.result = leftJustified (unreadBits (8 * ((unreadBits n s).length / 8)) s) ∧ t.freeIdx = s.freeIdx) ∧
      OnlyReaderMoved s t

/-- A stream reader stops at the pull that answers `Exhausted`, though the source may hold more bytes: the k chunks before
it are delivered and reported, the failing chunk takes nothing, and the pull is not repeated, so that the bytes still to come
and the answers after the refused one are untouched (R53, R137, R191, R197). The listed answers are log entry 3. -/
def Obligations.StreamReadsStopAtTheExhaustedPull : Prop :=
  ∀ (i : Instr) (n k : Nat) (q : List Bool) (after : After) (s : State), s.fault = false → s.cfg.rvar = .stream →
    i.availableIn s.cfg = true → i.wellFormed = true → i.readBits = some n → s.rpos.toNat + n ≤ 2 ^ 64 - 1 →
    s.env.pulls = ⟨List.replicate k true ++ false :: q, after⟩ → (s.src.take Config.endlessByte k).length = k →
    k < pullsNeeded s.rpcnt.toNat n →
    ∃ t, exec i s = .next t ∧ t.status = .eod ∧ t.count = BitVec.ofNat 8 (8 * k) ∧
      t.rpos = BitVec.ofNat 64 (s.rpos.toNat + 8 * k) ∧ t.src = s.src.skip k ∧ t.env.pulls = ⟨q, after⟩ ∧
      (∀ h, unreadBits h t = (unreadBits (8 * k + h) s).drop (8 * k)) ∧
      ((∀ m, i ≠ .rField m) → t.result = leftJustified (unreadBits (8 * k) s) ∧ t.freeIdx = s.freeIdx) ∧
      (k = 0 → t.rpend = s.rpend ∧ t.rpcnt = s.rpcnt) ∧ OnlyReaderMoved s t

/-- Whatever the source answers, a reader data command that ends OK or EOD has taken exactly COUNT bits off the bits to
come and advanced RPOS by COUNT, COUNT = n on OK and 0 on a Buffer's EOD, with those bits as its result (R138, R139 item
1, R191). -/
def Obligations.ReadsConsumeExactlyWhatTheyReport : Prop :=
  ∀ (i : Instr) (n : Nat) (s t : State),
    (s.cfg.rvar = .buffer → s.cfg.rlen ≤ 2 ^ 61 - 1 ∧ s.rpos.toNat ≤ 8 * s.cfg.rlen) →
    i.readBits = some n → exec i s = .next t → t.status = .ok ∨ t.status = .eod →
    t.count.toNat ≤ n ∧ (t.status = .ok → t.count.toNat = n) ∧
    (t.status = .eod → t.count.toNat % 8 = 0 ∧ (s.cfg.rvar = .buffer → t.count.toNat = 0)) ∧
    (unreadBits t.count.toNat s).length = t.count.toNat ∧
    (∀ h, unreadBits h t = (unreadBits (t.count.toNat + h) s).drop t.count.toNat) ∧
    t.rpos = BitVec.ofNat 64 (s.rpos.toNat + t.count.toNat) ∧
    (t.status = .ok → t.result = i.readResult (unreadBits n s)) ∧
    (t.status = .eod → (∀ m, i ≠ .rField m) → t.result = leftJustified (unreadBits t.count.toNat s)) ∧
    (t.status = .ok ∨ (∀ m, i ≠ .rField m) → t.freeIdx = s.freeIdx) ∧ BufferReaderKept s t ∧ OnlyReaderMoved s t

/-- A stream reader and a buffer reader over the same bytes return the same bits, from any position on: with the same
position and the same bits to come, a read of no more bits than there are, R.ALIGN and R.POS give both the same response,
the same position and the same bits to come again, so that any sequence of them does (R66 item 2). Log entry 3 has the
source's answers. -/
def Obligations.StreamAndBufferReadersAgree : Prop :=
  ∀ (i : Instr) (s u : State), SameBitsToCome s u → i.wellFormed = true → (∀ m, i ≠ .rArr m) →
    (∃ n, i.readBits = some n ∧ (unreadBits n s).length = n) ∨ i = .rAlign ∨ i = .rPos →
    ∃ t v, exec i s = .next t ∧ exec i u = .next v ∧ t.status = .ok ∧ v.status = .ok ∧ v.count = t.count ∧
      v.result = t.result ∧ SameBitsToCome t v

/-- For 1 to 8 bits R.BITB n and R.BITS n are the same; R.BYTE = R.BITB 8 = R.BITS 8, and R.ARR 1 on a Buffer (R139 item
2, R131). -/
def Obligations.ShortReadsAreOneCommand : Prop :=
  encode .rByte = 0x1100 ∧ ∀ s : State,
    (∀ n : BitVec 8, 1 ≤ n.toNat → n.toNat ≤ 8 → exec (.rBitb n) s = exec (.rBits n) s) ∧
    exec .rByte s = exec (.rBitb 8) s ∧
    (s.cfg.rvar = .buffer → exec (.rArr 1) s = exec (.rBits 8) s)

/-- R.FIELD n is R.BITS n unpacked: the same cursor, stores and COUNT, and on OK the value of its lane word (R134, R139 item
3); under EOD any value (log entry 5). -/
def Obligations.FieldReadIsUnpackOfBitsRead : Prop :=
  ∀ (n : BitVec 8) (s t : State), 1 ≤ n.toNat → n.toNat ≤ 64 → exec (.rBits n) s = .next t →
    (t.status = .ok → exec (.rField n) s = .next { t with result := BitVec.ofNat 64 (t.result.toNat / 2 ^ (64 - n.toNat)) }) ∧
    (t.status = .eod → ∃ r, exec (.rField n) s = .next { t with result := r, freeIdx := t.freeIdx + 1 })

/-- Reading a bits and then b bits, a a multiple of 8, is reading a + b bits: the same state, the second result's lanes
placed after the first's (R139 item 4). -/
def Obligations.SplitReadIsTheWholeRead : Prop :=
  ∀ (a b : BitVec 8) (s t u : State), a.toNat % 8 = 0 → a.toNat + b.toNat ≤ 64 →
    (s.cfg.rvar = .buffer → s.cfg.rlen ≤ 2 ^ 61 - 1) →
    exec (.rBits a) s = .next t → t.status = .ok → exec (.rBits b) t = .next u → u.status = .ok →
    exec (.rBits (a + b)) s = .next { u with count := a + b, result := t.result ||| (u.result >>> a.toNat) }

/-- R.ALIGN, word 0x1500, advances RPOS to the next multiple of 8, discards the pending byte, answers the bits skipped, and on a second
call changes nothing more (R135, R139 item 5). -/
def Obligations.ReaderAlignAdvancesToTheByteBoundary : Prop :=
  encode .rAlign = 0x1500 ∧ ∀ s : State, s.fault = false →
    (s.cfg.rvar = .buffer ∨ alignUp s.rpos.toNat ≤ 2 ^ 64 - 1 →
      exec .rAlign s = .next { s with rpos := BitVec.ofNat 64 (alignUp s.rpos.toNat), rpend := 0, rpcnt := 0, status := .ok, count := BitVec.ofNat 8 ((8 - s.rpos.toNat % 8) % 8), result := 0 }) ∧
    (s.cfg.rvar = .stream → 2 ^ 64 - 1 < alignUp s.rpos.toNat →
      exec .rAlign s = .next { s with fault := true, fcause := 5, status := .posovf, count := 0, result := 0 }) ∧
    (∀ t, exec .rAlign s = .next t → t.status = .ok → exec .rAlign t = .next { t with count := 0 })

/-- R.RST, word 0x1800, sets the reader's position to 0 and clears its pending byte and count, W.RST, word 0x2A00, the
writer's; neither touches a store, FAULT or FCAUSE, and both are answered FAULTED while FAULT is set (R144, R171). -/
def Obligations.SoftResetsClearOneCursor : Prop :=
  encode .rRst = 0x1800 ∧ encode .wRst = 0x2A00 ∧ ∀ s : State,
    (s.fault = false →
      exec .rRst s = .next { s with rpos := 0, rpend := 0, rpcnt := 0, status := .ok, count := 0, result := 0 } ∧
      exec .wRst s = .next { s with wpos := 0, wpend := 0, wpcnt := 0, status := .ok, count := 0, result := 0 }) ∧
    (s.fault = true →
      exec .rRst s = .next { s with status := .faulted, count := 0, result := 0 } ∧
      exec .wRst s = .next { s with status := .faulted, count := 0, result := 0 })

/-- R.POS, W.POS and SYS.STAT answer the positions and FAULT · 16 + FCAUSE in every state, and W.LEN answers the number of
committed bytes on a buffer; none changes anything but the response (R143, R169, R170, R180). -/
def Obligations.ReadoutsAnswerTheRegisters : Prop :=
  encode .rPos = 0x1700 ∧ encode .wPos = 0x2900 ∧ encode .sysStat = 0x3000 ∧ encode .wLen = 0x2800 ∧ ∀ s : State,
    exec .rPos s = .next { s with status := .ok, count := 0, result := s.rpos } ∧
    exec .wPos s = .next { s with status := .ok, count := 0, result := s.wpos } ∧
    exec .sysStat s = .next { s with status := .ok, count := 0, result := BitVec.ofNat 64 (s.fault.toNat * 16 + s.fcause.toNat) } ∧
    (s.fault = false → s.cfg.wvar ≠ .stream → exec .wLen s = .next { s with status := .ok, count := 0, result := BitVec.ofNat 64 ((s.wpos.toNat + 7) / 8) })

/-! ### Writer (42_writer.md) -/

/-- With room, W.BITB, W.BYTE, W.BOOL, W.BITS and W.FIELD complete in every variant: the operand's bits are appended to the
bits produced, WPOS advances by their number, bytes of WBUF they do not touch read as before (a growth may set new bytes),
the stores and registers the variant does not use are untouched, a growable store that covers the need is not asked, a request
for no bits changes nothing, and only the writer has moved (R50, R150 to R154, R160, R162, R172 items 1 and 2). -/
def Obligations.WritesWithRoomComplete : Prop :=
  ∀ (i : Instr) (bits : List Bool) (s : State), Inv s → s.fault = false → i.wellFormed = true →
    i.operandBits s.opnd = some bits → RoomFor s bits.length →
    ∃ t, exec i s = .next t ∧ t.status = .ok ∧ t.count = BitVec.ofNat 8 bits.length ∧ t.result = 0 ∧
      t.wpos = BitVec.ofNat 64 (s.wpos.toNat + bits.length) ∧ writtenBits t = writtenBits s ++ bits ∧
      OtherBytesKept s t bits.length ∧ OtherVariantsKept s t ∧
      (ceil8 (s.wpos.toNat + bits.length) ≤ s.wcap → t.wcap = s.wcap ∧ t.env.grows = s.env.grows) ∧
      (bits = [] → t = { s with status := .ok, count := 0, result := 0 }) ∧
      OnlyWriterMoved s t

/-- Whatever the stores answer, a bit-writing command that ends OK or CAPACITY has appended exactly the first COUNT bits of
its operand and advanced WPOS by COUNT: all of them on OK, whole bytes on CAPACITY, none on a growable store. The bytes of
WBUF those COUNT bits do not lie in read as before, all of WBUF where COUNT is 0: the failing chunk and those after it have
no effect, and W.BITS 0 changes nothing (R50, R153, R162, R163, R172 item 1, R199). -/
def Obligations.WritesAppendExactlyWhatTheyReport : Prop :=
  ∀ (i : Instr) (bits : List Bool) (s t : State), Inv s → i.operandBits s.opnd = some bits → exec i s = .next t →
    t.status = .ok ∨ t.status = .capacity →
    t.count.toNat ≤ bits.length ∧ (t.status = .ok → t.count.toNat = bits.length) ∧
    (t.status = .capacity → t.count.toNat % 8 = 0 ∧ (s.cfg.wvar = .growable → t.count = 0)) ∧
    writtenBits t = writtenBits s ++ bits.take t.count.toNat ∧
    t.wpos = BitVec.ofNat 64 (s.wpos.toNat + t.count.toNat) ∧ t.result = 0 ∧
    OtherBytesKept s t t.count.toNat ∧ OtherVariantsKept s t ∧ (t.count = 0 → t.wbuf = s.wbuf) ∧
    (t.status = .capacity → s.cfg.wvar = .growable → t.wbuf = s.wbuf ∧ t.wcap = s.wcap) ∧ OnlyWriterMoved s t

/-- A growable writer that cannot grow writes nothing: CAPACITY with COUNT = 0, WPOS and WBUF as before (R162, R160). -/
def Obligations.GrowableWritesAreAllOrNothing : Prop :=
  ∀ (i : Instr) (bits : List Bool) (s : State), s.fault = false → s.cfg.wvar = .growable → i.wellFormed = true →
    i.operandBits s.opnd = some bits → s.wcap < ceil8 (s.wpos.toNat + bits.length) →
    2 ^ 61 - 1 < ceil8 (s.wpos.toNat + bits.length) ∨ GrowWilling s (ceil8 (s.wpos.toNat + bits.length)) = false →
    ∃ q, exec i s = .next { s with env := { s.env with grows := q }, status := .capacity, count := 0, result := 0 }

/-- A fixed writer that would overflow commits the whole bytes that fit, answers CAPACITY with their bits, and leaves WPOS
after them (R161, R162, R192). -/
def Obligations.FixedWritesCommitTheBytesThatFit : Prop :=
  ∀ (i : Instr) (bits : List Bool) (s : State), Inv s → s.fault = false → s.cfg.wvar = .fixed → i.wellFormed = true →
    i.operandBits s.opnd = some bits → 8 * s.wcap < s.wpos.toNat + bits.length →
    ∃ t, exec i s = .next t ∧ t.status = .capacity ∧
      t.count = BitVec.ofNat 8 (8 * ((8 * s.wcap - s.wpos.toNat) / 8)) ∧
      t.wpos = BitVec.ofNat 64 (s.wpos.toNat + 8 * ((8 * s.wcap - s.wpos.toNat) / 8)) ∧
      writtenBits t = writtenBits s ++ bits.take (8 * ((8 * s.wcap - s.wpos.toNat) / 8)) ∧
      OtherBytesKept s t (8 * ((8 * s.wcap - s.wpos.toNat) / 8)) ∧ OtherVariantsKept s t ∧ OnlyWriterMoved s t

/-- A stream writer stops at the push the sink refuses: the k chunks before it are written and reported, the k bytes pushed
stay pushed (R65, R162, R192). The listed answers are log entry 3. -/
def Obligations.StreamWritesStopAtTheRefusedPush : Prop :=
  ∀ (i : Instr) (bits : List Bool) (k : Nat) (q : List Bool) (after : After) (s : State), Inv s → s.fault = false →
    s.cfg.wvar = .stream → i.wellFormed = true → i.operandBits s.opnd = some bits →
    s.wpos.toNat + bits.length ≤ 2 ^ 64 - 1 → s.env.accepts = ⟨List.replicate k true ++ false :: q, after⟩ →
    k < (s.wpcnt.toNat + bits.length) / 8 →
    ∃ t, exec i s = .next t ∧ t.status = .capacity ∧ t.count = BitVec.ofNat 8 (8 * k) ∧
      t.wpos = BitVec.ofNat 64 (s.wpos.toNat + 8 * k) ∧ t.snk.length = s.snk.length + k ∧ t.env.accepts = ⟨q, after⟩ ∧
      writtenBits t = writtenBits s ++ bits.take (8 * k) ∧ OtherVariantsKept s t ∧ OnlyWriterMoved s t

/-- W.BITB n and W.BITS n are the same for 1 to 8 bits, W.BYTE is W.BITS 8, W.FIELD n is W.BITS n of the packed value (R172
item 3, R154). -/
def Obligations.ShortWritesAreOneCommand : Prop :=
  ∀ s : State,
    (∀ n : BitVec 8, 1 ≤ n.toNat → n.toNat ≤ 8 → exec (.wBitb n) s = exec (.wBits n) s) ∧
    exec .wByte s = exec (.wBits 8) s ∧
    (∀ (n : BitVec 8) (t : State), 1 ≤ n.toNat → n.toNat ≤ 64 → exec (.wField n) s = .next t →
      exec (.wBits n) { s with opnd := packWord s.opnd n.toNat } = .next { t with opnd := packWord s.opnd n.toNat })

/-- W.ALIGN on a buffer moves the position to the next byte boundary and touches no store; with the in-progress byte's tail
zero (R29 item 7) the padding bits produced are zeros (R155). -/
def Obligations.WriterAlignOnABufferOnlyMovesThePosition : Prop :=
  ∀ s : State, s.fault = false → s.cfg.wvar ≠ .stream →
    exec .wAlign s = .next { s with wpos := BitVec.ofNat 64 (alignUp s.wpos.toNat), status := .ok, count := BitVec.ofNat 8 ((8 - s.wpos.toNat % 8) % 8), result := 0 } ∧
    (∀ t, Inv s → TailZero s → exec .wAlign s = .next t →
      writtenBits t = writtenBits s ++ List.replicate ((8 - s.wpos.toNat % 8) % 8) false)

/-- W.ALIGN and W.FLUSH on a stream are one operation: nothing when nothing is pending; else the pending byte is pushed and
the position advances to the boundary, or, refused, nothing changes; past the last position POSOVF (R164, R155, R157). W.FLUSH
elsewhere is ILLEGAL. -/
def Obligations.FlushPushesThePendingByte : Prop :=
  (∀ (i : Instr) (s : State), i = .wAlign ∨ i = .wFlush → s.fault = false → s.cfg.wvar = .stream →
    (s.wpos.toNat % 8 = 0 → exec i s = .next { s with status := .ok, count := 0, result := 0 }) ∧
    (s.wpos.toNat % 8 ≠ 0 → alignUp s.wpos.toNat ≤ 2 ^ 64 - 1 → SinkWilling s 1 →
      ∃ q, exec i s = .next { s with snk := s.snk ++ [s.wpend], env := { s.env with accepts := q }, wpos := BitVec.ofNat 64 (alignUp s.wpos.toNat), wpend := 0, wpcnt := 0, status := .ok, count := BitVec.ofNat 8 (8 - s.wpos.toNat % 8), result := 0 }) ∧
    (s.wpos.toNat % 8 ≠ 0 → alignUp s.wpos.toNat ≤ 2 ^ 64 - 1 → ¬ SinkWilling s 1 →
      ∃ q, exec i s = .next { s with env := { s.env with accepts := q }, status := .capacity, count := 0, result := 0 }) ∧
    (2 ^ 64 - 1 < alignUp s.wpos.toNat →
      exec i s = .next { s with fault := true, fcause := 5, status := .posovf, count := 0, result := 0 })) ∧
  (∀ s : State, s.fault = false → s.cfg.wvar ≠ .stream →
    exec .wFlush s = .next { s with fault := true, fcause := 4, status := .illegal, count := 0, result := 0 })

/-- W.ALIGN and W.FLUSH are idempotent: after an OK one, a second changes nothing (R172 item 6, R155). -/
def Obligations.WriterAlignIsIdempotent : Prop :=
  ∀ (i : Instr) (s t : State), i = .wAlign ∨ i = .wFlush → exec i s = .next t → t.status = .ok →
    exec i t = .next { t with count := 0 }

/-- W.GROW: OK without asking when the capacity is there; CAPACITY without asking past 2^61 − 1 bytes; otherwise as the
store answers, and when it grows, to at least the need, every old byte as it was. Nothing else changes (R156, R160,
R55). The listed answers are log entry 3. -/
def Obligations.GrowReservesCapacityOnly : Prop :=
  ∀ s : State, s.fault = false →
    (s.cfg.wvar ≠ .growable →
      exec .wGrow s = .next { s with fault := true, fcause := 4, status := .illegal, count := 0, result := 0 }) ∧
    (s.cfg.wvar = .growable → ceil8 (s.wpos.toNat + s.opnd.toNat) ≤ s.wcap →
      exec .wGrow s = .next { s with status := .ok, count := 0, result := 0 }) ∧
    (s.cfg.wvar = .growable → s.wcap < ceil8 (s.wpos.toNat + s.opnd.toNat) →
      2 ^ 61 - 1 < ceil8 (s.wpos.toNat + s.opnd.toNat) →
      exec .wGrow s = .next { s with status := .capacity, count := 0, result := 0 }) ∧
    (s.cfg.wvar = .growable → s.wcap < ceil8 (s.wpos.toNat + s.opnd.toNat) →
      ceil8 (s.wpos.toNat + s.opnd.toNat) ≤ 2 ^ 61 - 1 →
      GrowWilling s (ceil8 (s.wpos.toNat + s.opnd.toNat)) = false →
      ∃ q, exec .wGrow s = .next { s with env := { s.env with grows := q }, status := .capacity, count := 0, result := 0 }) ∧
    (s.cfg.wvar = .growable → s.wcap < ceil8 (s.wpos.toNat + s.opnd.toNat) →
      ceil8 (s.wpos.toNat + s.opnd.toNat) ≤ 2 ^ 61 - 1 →
      GrowWilling s (ceil8 (s.wpos.toNat + s.opnd.toNat)) = true →
      ∃ cap mem q, exec .wGrow s = .next { s with wcap := cap, wbuf := mem, env := { s.env with grows := q }, status := .ok, count := 0, result := 0 } ∧
        ceil8 (s.wpos.toNat + s.opnd.toNat) ≤ cap ∧ cap ≤ 2 ^ 61 - 1 ∧
        ∀ a, a < s.wcap → Memory.read mem a = Memory.read s.wbuf a)

/-- No command changes a bit of WBUF below the WPOS it started from, and none takes a byte back from the sink (R172 item 2,
R163). -/
def Obligations.CommittedBitsAreNeverCorrupted : Prop :=
  ∀ (i : Instr) (s t : State), Inv s → exec i s = .next t →
    (∀ j, j < s.wpos.toNat → bitAt t.wbuf j = bitAt s.wbuf j) ∧ ∃ pushed, t.snk = s.snk ++ pushed

/-- A field written to a buffer is read back: after an OK W.FIELD of v at position p, a buffer reader at p over the same
bytes answers R.FIELD with v mod 2^n (R172 item 5, R154, R123). -/
def Obligations.FieldWrittenIsReadBack : Prop :=
  ∀ (n : BitVec 8) (s u : State), Inv s → s.fault = false → s.cfg.wvar ≠ .stream → 1 ≤ n.toNat → n.toNat ≤ 64 →
    RoomFor s n.toNat →
    ∃ t, exec (.wField n) s = .next t ∧ t.status = .ok ∧
      (u.fault = false → u.cfg.rvar = .buffer → u.cfg.rlen ≤ 2 ^ 61 - 1 → u.rbuf = t.wbuf → u.rpos = s.wpos →
        u.rpos.toNat + n.toNat ≤ 8 * u.cfg.rlen →
        exec (.rField n) u = .next { u with rpos := BitVec.ofNat 64 (u.rpos.toNat + n.toNat), status := .ok, count := n, result := BitVec.ofNat 64 (s.opnd.toNat % 2 ^ n.toNat) })

/-- A sequence of fields written from position 0 is read back: after OK W.FIELD commands of these widths and values on a
buffer, a buffer reader over the committed bytes answers R.FIELD of the same widths with the values mod 2^width; the same
for a stream writer with an empty sink, over the sink's bytes after an OK W.FLUSH (R172 item 5). -/
def Obligations.FieldSequenceWrittenIsReadBack : Prop :=
  ∀ (fields : List (BitVec 8 × U64)) (s t u : State), Inv s → s.wpos = 0 → writeFields fields s = some t →
    u.fault = false → u.cfg.rvar = .buffer → u.rpos = 0 → u.cfg.rlen ≤ 2 ^ 61 - 1 →
    (s.cfg.wvar ≠ .stream → u.cfg.rlen = ceil8 t.wpos.toNat →
      (∀ a, a < u.cfg.rlen → Memory.read u.rbuf a = Memory.read t.wbuf a) →
      readFields (fields.map (fun f => f.1)) u = some (fields.map (fun f => BitVec.ofNat 64 (f.2.toNat % 2 ^ f.1.toNat)))) ∧
    (∀ v, s.cfg.wvar = .stream → s.snk = [] → exec .wFlush t = .next v → v.status = .ok → u.cfg.rlen = v.snk.length →
      (∀ a, a < u.cfg.rlen → some (Memory.read u.rbuf a) = v.snk[a]?) →
      readFields (fields.map (fun f => f.1)) u = some (fields.map (fun f => BitVec.ofNat 64 (f.2.toNat % 2 ^ f.1.toNat))))

/-! ### Frames across the units -/

/-- A command never changes the parameters, RBUF, the host's inputs, CMD or OPND; a reader command leaves the writer's
registers and stores alone, a writer command the reader's, and the codec and SYS.STAT both (R2, R50, R139 item 6, R181). -/
def Obligations.CommandsTouchOnlyTheirOwnUnit : Prop :=
  ∀ (i : Instr) (s t : State), exec i s = .next t →
    (t.cfg = s.cfg ∧ t.rbuf = s.rbuf ∧ t.pending = s.pending ∧ t.cmd = s.cmd ∧ t.opnd = s.opnd) ∧
    (i.isWriter = false → t.wpos = s.wpos ∧ t.wpend = s.wpend ∧ t.wpcnt = s.wpcnt ∧ t.wbuf = s.wbuf ∧ t.wcap = s.wcap ∧
      t.snk = s.snk ∧ t.env.accepts = s.env.accepts ∧ t.env.grows = s.env.grows) ∧
    (i.isReader = false → t.rpos = s.rpos ∧ t.rpend = s.rpend ∧ t.rpcnt = s.rpcnt ∧ t.src = s.src ∧
      t.env.pulls = s.env.pulls ∧ t.freeIdx = s.freeIdx)

/-- Bits of OPND a command does not read have no effect: two operands with the same bits where a writer data command looks,
or any two for a command without an operand, give the same outcome (R95, 93 U12). -/
def Obligations.UnreadOperandBitsHaveNoEffect : Prop :=
  ∀ (i : Instr) (o : U64) (s t : State), exec i s = .next t →
    ((∃ bits, i.operandBits s.opnd = some bits ∧ i.operandBits o = some bits) ∨
      (i.operandBits o = none ∧ (∀ n, i ≠ .pack n) ∧ (∀ n, i ≠ .unpack n) ∧ i ≠ .wGrow)) →
    exec i { s with opnd := o } = .next { t with opnd := o }

/-! ### Reset, invariants, totality (10_state.md, 70_reset_and_hazards.md) -/

/-- After reset with the default parameters every register is 0, nothing is pending in the stores and the sink is empty
(R36). The variants and lengths of the default configuration are the model's choice, log entry 1. -/
def Obligations.ResetStateIsClear : Prop :=
  State.reset.rpos = 0 ∧ State.reset.rpend = 0 ∧ State.reset.rpcnt = 0 ∧ State.reset.wpos = 0 ∧ State.reset.wpend = 0 ∧
  State.reset.wpcnt = 0 ∧ State.reset.fault = false ∧ State.reset.fcause = 0 ∧
  State.reset.wcap = State.reset.cfg.wcap0 ∧ State.reset.snk = [] ∧ Inv State.reset ∧ TailZero State.reset

/-- Hardware reset loads the registers from the parameters, clears FAULT and FCAUSE, counts WCAP and SNK afresh, and touches
no store content, source or environment; parameters stay (R36, R220, R221). That the interface fields then show no
response is the model's choice, log entry 9. -/
def Obligations.HardwareResetLoadsTheRegisters : Prop :=
  ∀ (s : State) (rest : List HostEvent), Params.valid s.cfg = true → s.pending = .reset :: rest →
    ∃ t, step s = .next t ∧ t.rpos = BitVec.ofNat 64 s.cfg.rposInit ∧ t.rpend = s.cfg.rpendInit ∧
      t.rpcnt.toNat = (if s.cfg.rvar = .stream then s.cfg.rposInit % 8 else 0) ∧
      t.wpos = BitVec.ofNat 64 s.cfg.wposInit ∧ t.wpend = s.cfg.wpendInit ∧
      t.wpcnt.toNat = (if s.cfg.wvar = .stream then s.cfg.wposInit % 8 else 0) ∧
      t.fault = false ∧ t.fcause = 0 ∧ t.wcap = s.cfg.wcap0 ∧ t.snk = [] ∧
      t.rbuf = s.rbuf ∧ t.wbuf = s.wbuf ∧ t.src = s.src ∧ t.env = s.env ∧ t.cfg = s.cfg ∧ t.pending = rest

/-- A configuration that breaks one of R222's constraints is refused; one that meets them all is reset: the block is bound
to it, its registers loaded from it, FAULT and FCAUSE cleared, WCAP and SNK counted afresh (R36, R220 to R222). The bound
buffers must also be in the model's canonical form, log entry 10; the rebinding input is log entry 9. -/
def Obligations.ConfigurationIsRefusedExactlyWhenIllegal : Prop :=
  ∀ (s : State) (b : Binding) (rest : List HostEvent), s.pending = .rebind b :: rest →
    Memory.wf b.rbuf = true → Memory.wf b.wbuf = true →
    ((b.cfg.rlen ≤ 2 ^ 61 - 1 ∧ b.cfg.wcap0 ≤ 2 ^ 61 - 1 ∧ b.cfg.rposInit < 2 ^ 64 ∧ b.cfg.wposInit < 2 ^ 64 ∧
      (b.cfg.rvar = .buffer → b.cfg.rposInit ≤ 8 * b.cfg.rlen ∧ b.cfg.rpendInit = 0) ∧
      (b.cfg.wvar = .fixed ∨ b.cfg.wvar = .growable → b.cfg.wposInit ≤ 8 * b.cfg.wcap0 ∧ b.cfg.wpendInit = 0) ∧
      (b.cfg.rvar = .stream → b.cfg.rposInit % 8 = 0 → b.cfg.rpendInit = 0) ∧
      (b.cfg.wvar = .stream → ∀ j, j < 8 - b.cfg.wposInit % 8 → b.cfg.wpendInit.getLsbD j = false)) →
      ∃ t, step s = .next t ∧ t.cfg = b.cfg ∧ t.rbuf = b.rbuf ∧ t.src = b.src ∧ t.wbuf = b.wbuf ∧ t.env = b.env ∧
        t.fault = false ∧ t.fcause = 0 ∧ t.rpos = BitVec.ofNat 64 b.cfg.rposInit ∧ t.rpend = b.cfg.rpendInit ∧
        t.rpcnt.toNat = (if b.cfg.rvar = .stream then b.cfg.rposInit % 8 else 0) ∧
        t.wpos = BitVec.ofNat 64 b.cfg.wposInit ∧ t.wpend = b.cfg.wpendInit ∧
        t.wpcnt.toNat = (if b.cfg.wvar = .stream then b.cfg.wposInit % 8 else 0) ∧
        t.wcap = b.cfg.wcap0 ∧ t.snk = [] ∧ t.pending = rest ∧ t.freeIdx = s.freeIdx) ∧
    (¬ (b.cfg.rlen ≤ 2 ^ 61 - 1 ∧ b.cfg.wcap0 ≤ 2 ^ 61 - 1 ∧ b.cfg.rposInit < 2 ^ 64 ∧ b.cfg.wposInit < 2 ^ 64 ∧
      (b.cfg.rvar = .buffer → b.cfg.rposInit ≤ 8 * b.cfg.rlen ∧ b.cfg.rpendInit = 0) ∧
      (b.cfg.wvar = .fixed ∨ b.cfg.wvar = .growable → b.cfg.wposInit ≤ 8 * b.cfg.wcap0 ∧ b.cfg.wpendInit = 0) ∧
      (b.cfg.rvar = .stream → b.cfg.rposInit % 8 = 0 → b.cfg.rpendInit = 0) ∧
      (b.cfg.wvar = .stream → ∀ j, j < 8 - b.cfg.wposInit % 8 → b.cfg.wpendInit.getLsbD j = false)) →
      step s = .refused .configuration)

/-- The invariants of R29, items 1 to 6, with legal parameters (R222) and canonical stores (the model's, log entry 6), are
kept by every step: a command, an idle step or a reset. -/
def Obligations.StepKeepsTheInvariants : Prop := ∀ s t : State, Inv s → step s = .next t → Inv t

/-- R29 item 7: the tail of an in-memory writer's in-progress byte stays zero over every step, given the boot requirement of
R224 at a reset. -/
def Obligations.StepKeepsTheInProgressTailZero : Prop :=
  ∀ s t : State, Inv s → TailZero s → BootReady s → step s = .next t → TailZero t

/-- The block never accesses a buffer outside its length or capacity: no step of any state faults, whatever the position,
the parameters and the environment (R52, R54). That an access outside would be a fault of the store ports is the model's
choice, log entry 13. -/
def Obligations.NoStepAccessesOutsideAStore : Prop := ∀ (s : State) (f : Fault), step s ≠ .fault f

/-- The step is total: it answers a next state, or refuses a reset to an illegal configuration and nothing else (R38,
R222). -/
def Obligations.StepStopsOnlyAtAnIllegalConfiguration : Prop :=
  ∀ s : State, (∃ t, step s = .next t) ∨
    (step s = .refused .configuration ∧ ∃ rest,
      (s.pending = .reset :: rest ∧ Params.valid s.cfg = false) ∨
      ∃ b, s.pending = .rebind b :: rest ∧ b.valid = false)
end

