-- ==== Sys2Proof/Laws/Memory.lean ====
section
/-! SUPPORT. The laws of a byte store: read after write, and every operation keeps the canonical form. -/

namespace Sys2Proof.Machine

@[simp] theorem Memory.read_nil (i : Nat) : Memory.read [] i = unlistedByte := rfl

/-- Below every listed address a store reads as unlisted. -/
theorem Memory.read_of_lt {m : Memory} {lo i : Nat} (h : Memory.wfFrom m lo = true) (hi : i < lo) :
    Memory.read m i = unlistedByte := by
  induction m generalizing lo with
  | nil => rfl
  | cons c rest ih =>
    obtain ⟨a, b⟩ := c
    simp only [Memory.wfFrom, Bool.and_eq_true, decide_eq_true_eq] at h
    obtain ⟨⟨hlo, -⟩, hr⟩ := h
    have hne : a ≠ i := by omega
    simp [Memory.read, hne, ih hr (by omega)]

/-- A canonical store from `lo` is one from any lower address. -/
theorem Memory.wfFrom_mono {m : Memory} {lo lo' : Nat} (h : Memory.wfFrom m lo = true) (hl : lo' ≤ lo) :
    Memory.wfFrom m lo' = true := by
  cases m with
  | nil => rfl
  | cons c rest =>
    obtain ⟨a, b⟩ := c
    simp only [Memory.wfFrom, Bool.and_eq_true, decide_eq_true_eq] at h ⊢
    exact ⟨⟨by omega, h.1.2⟩, h.2⟩

/-- A write leaves every other byte alone. -/
theorem Memory.read_write_other (m : Memory) {i j : Nat} (v : Byte) (h : j ≠ i) :
    Memory.read (Memory.write m i v) j = Memory.read m j := by
  have h' : i ≠ j := fun e => h e.symm
  induction m with
  | nil => by_cases hv : v = unlistedByte <;> simp [Memory.write, Memory.read, hv, h']
  | cons c rest ih =>
    obtain ⟨a, b⟩ := c
    simp only [Memory.write]
    split
    · split <;> simp [Memory.read, h']
    · split
      · rename_i _ he
        subst he
        split <;> simp [Memory.read, h']
      · simp [Memory.read, ih]

/-- A write keeps the canonical form, from any bound the address respects. -/
theorem Memory.wfFrom_write {m : Memory} {lo i : Nat} (v : Byte) (h : Memory.wfFrom m lo = true) (hi : lo ≤ i) :
    Memory.wfFrom (Memory.write m i v) lo = true := by
  induction m generalizing lo with
  | nil => by_cases hv : v = unlistedByte <;> simp [Memory.write, Memory.wfFrom, hv, hi]
  | cons c rest ih =>
    obtain ⟨a, b⟩ := c
    have h0 := h
    simp only [Memory.wfFrom, Bool.and_eq_true, decide_eq_true_eq] at h
    obtain ⟨⟨hlo, hb⟩, hr⟩ := h
    simp only [Memory.write]
    split
    · split
      · exact h0
      · rename_i hlt hv
        simp only [Memory.wfFrom, Bool.and_eq_true, decide_eq_true_eq]
        exact ⟨⟨hi, hv⟩, ⟨⟨by omega, hb⟩, hr⟩⟩
    · split
      · rename_i _ he
        subst he
        split
        · exact Memory.wfFrom_mono hr (by omega)
        · rename_i hv
          simp only [Memory.wfFrom, Bool.and_eq_true, decide_eq_true_eq]
          exact ⟨⟨hlo, hv⟩, hr⟩
      · simp only [Memory.wfFrom, Bool.and_eq_true, decide_eq_true_eq]
        exact ⟨⟨hlo, hb⟩, ih hr (by omega)⟩

/-- A read after a write of the same byte gives the value written. -/
theorem Memory.read_write_same {m : Memory} {lo : Nat} (i : Nat) (v : Byte) (h : Memory.wfFrom m lo = true) :
    Memory.read (Memory.write m i v) i = v := by
  induction m generalizing lo with
  | nil => by_cases hv : v = unlistedByte <;> simp [Memory.write, Memory.read, hv]
  | cons c rest ih =>
    obtain ⟨a, b⟩ := c
    simp only [Memory.wfFrom, Bool.and_eq_true, decide_eq_true_eq] at h
    obtain ⟨⟨hlo, hb⟩, hr⟩ := h
    simp only [Memory.write]
    split
    · rename_i hlt
      split
      · rename_i hv
        have : a ≠ i := by omega
        simp [Memory.read, this, hv, Memory.read_of_lt hr (show i < a + 1 by omega)]
      · simp [Memory.read]
    · split
      · rename_i _ he
        subst he
        split
        · rename_i hv
          simp [hv, Memory.read_of_lt hr (Nat.lt_succ_self _)]
        · simp [Memory.read]
      · rename_i hlt hne
        have : a ≠ i := fun e => hne e.symm
        simp [Memory.read, this, ih hr]

/-- A write keeps the canonical form. -/
theorem Memory.wf_write {m : Memory} (i : Nat) (v : Byte) (h : Memory.wf m = true) :
    Memory.wf (Memory.write m i v) = true :=
  Memory.wfFrom_write v h (Nat.zero_le i)

/-- In a canonical store, a read after a write gives the value written at its address and the old byte elsewhere. -/
theorem Memory.read_write {m : Memory} (i j : Nat) (v : Byte) (h : Memory.wf m = true) :
    Memory.read (Memory.write m i v) j = if j = i then v else Memory.read m j := by
  split
  · rename_i he
    subst he
    exact Memory.read_write_same j v h
  · rename_i hne
    exact Memory.read_write_other m v hne

/-- Filling new bytes keeps the canonical form. -/
theorem Memory.wf_fill {m : Memory} (lo hi : Nat) (cells : List Host.Cell) (h : Memory.wf m = true) :
    Memory.wf (Memory.fill m lo hi cells) = true := by
  induction cells generalizing m with
  | nil => exact h
  | cons c rest ih =>
    obtain ⟨a, b⟩ := c
    simp only [Memory.fill]
    split
    · exact ih (Memory.wf_write a b h)
    · exact ih h

/-- Filling touches only the new bytes. -/
theorem Memory.read_fill_outside (m : Memory) {lo hi i : Nat} (cells : List Host.Cell) (h : i < lo ∨ hi ≤ i) :
    Memory.read (Memory.fill m lo hi cells) i = Memory.read m i := by
  induction cells generalizing m with
  | nil => rfl
  | cons c rest ih =>
    obtain ⟨a, b⟩ := c
    simp only [Memory.fill]
    split
    · rename_i hab
      rw [ih, Memory.read_write_other]
      omega
    · exact ih m

/-- Canonical stores that read alike everywhere are equal as data. -/
theorem Memory.eq_of_read_eq {m m' : Memory} {lo lo' : Nat} (h : Memory.wfFrom m lo = true)
    (h' : Memory.wfFrom m' lo' = true) (hr : ∀ i, Memory.read m i = Memory.read m' i) : m = m' := by
  induction m generalizing m' lo lo' with
  | nil =>
    cases m' with
    | nil => rfl
    | cons c rest =>
      obtain ⟨a, b⟩ := c
      simp only [Memory.wfFrom, Bool.and_eq_true, decide_eq_true_eq] at h'
      have := hr a
      simp [Memory.read] at this
      exact absurd this.symm h'.1.2
  | cons c rest ih =>
    obtain ⟨a, b⟩ := c
    simp only [Memory.wfFrom, Bool.and_eq_true, decide_eq_true_eq] at h
    obtain ⟨⟨-, hb⟩, hrest⟩ := h
    cases m' with
    | nil =>
      have := hr a
      simp [Memory.read] at this
      exact absurd this hb
    | cons c' rest' =>
      obtain ⟨a', b'⟩ := c'
      have h0' := h'
      simp only [Memory.wfFrom, Bool.and_eq_true, decide_eq_true_eq] at h'
      obtain ⟨⟨-, hb'⟩, hrest'⟩ := h'
      have hrest1 : Memory.wfFrom ((a, b) :: rest) a = true := by simp [Memory.wfFrom, hb, hrest]
      have hrest1' : Memory.wfFrom ((a', b') :: rest') a' = true := by simp [Memory.wfFrom, hb', hrest']
      have haa : a = a' := by
        rcases Nat.lt_trichotomy a a' with hlt | heq | hgt
        · have h1 := hr a
          rw [Memory.read_of_lt hrest1' hlt] at h1
          simp [Memory.read] at h1
          exact absurd h1 hb
        · exact heq
        · have h1 := hr a'
          rw [Memory.read_of_lt hrest1 hgt] at h1
          simp [Memory.read] at h1
          exact absurd h1.symm hb'
      subst haa
      have hbb : b = b' := by simpa [Memory.read] using hr a
      subst hbb
      have : rest = rest' := by
        refine ih hrest hrest' fun i => ?_
        by_cases hi : a = i
        · subst hi
          rw [Memory.read_of_lt hrest (Nat.lt_succ_self _), Memory.read_of_lt hrest' (Nat.lt_succ_self _)]
        · simpa [Memory.read, hi] using hr i
      rw [this]

end Sys2Proof.Machine
end

