-- ==== Sys2Proof/Laws/Bits.lean ====
section
/-! SUPPORT. The bits of masks, windows, split bytes, lane words and bit lists: what each helper of R11, R15, R51, R60 and
R61 does to bit i. -/

namespace Sys2Proof.Machine

/-! ### The position tracker -/

theorem ceil8_mul_ge (n : Nat) : n ≤ 8 * ceil8 n := by unfold ceil8; omega

theorem ceil8_le_iff (n c : Nat) : ceil8 n ≤ c ↔ n ≤ 8 * c := by unfold ceil8; omega

theorem padBits_lt (p : Nat) : padBits p < 8 := by unfold padBits alignUp ceil8; omega

theorem add_padBits (p : Nat) : p + padBits p = alignUp p := by unfold padBits alignUp ceil8; omega

theorem padBits_eq_zero_iff (p : Nat) : padBits p = 0 ↔ p % 8 = 0 := by unfold padBits alignUp ceil8; omega

theorem alignUp_mod (p : Nat) : alignUp p % 8 = 0 := by unfold alignUp; omega

theorem padBits_alignUp (p : Nat) : padBits (alignUp p) = 0 := (padBits_eq_zero_iff _).2 (alignUp_mod p)

/-- The chunk sizes add up to the request (R15). -/
theorem chunkSizes_sum (n : Nat) : (chunkSizes n).sum = n := by
  unfold chunkSizes
  split <;> simp <;> omega

/-- Every chunk has 1 to 8 bits (R15). -/
theorem chunkSizes_range {n m : Nat} (h : m ∈ chunkSizes n) : 1 ≤ m ∧ m ≤ 8 := by
  unfold chunkSizes at h
  rcases List.mem_append.1 h with h | h
  · have := List.eq_of_mem_replicate h
    omega
  · split at h <;> simp at h
    omega

@[simp] theorem chunkSizes_zero : chunkSizes 0 = [] := rfl

/-- A request of 1 to 8 bits is one chunk. -/
theorem chunkSizes_single {n : Nat} (h1 : 1 ≤ n) (h8 : n ≤ 8) : chunkSizes n = [n] := by
  interval_cases n <;> rfl

/-! ### Masks and windows, bit by bit -/

theorem topMask_getLsbD {n i : Nat} (hn : n ≤ 8) (hi : i < 8) :
    (topMask n).getLsbD i = decide (8 ≤ n + i) := by
  interval_cases n <;> interval_cases i <;> rfl

theorem readWindow_getLsbD {b0 b1 : Byte} {k n i : Nat} (hk : k ≤ 7) (hn : n ≤ 8) (hi : i < 8) :
    (readWindow b0 b1 k n).getLsbD i =
      ((if k ≤ i then b0.getLsbD (i - k) else b1.getLsbD (8 + i - k)) && decide (8 ≤ n + i)) := by
  unfold readWindow
  rw [BitVec.getLsbD_and, topMask_getLsbD hn hi]
  congr 1
  simp only [BitVec.getLsbD_extractLsb', BitVec.getLsbD_shiftLeft, BitVec.getLsbD_append]
  have h1 : decide (i < 8) = true := by simp [hi]
  have h2 : decide (8 + i < 8 + 8) = true := by simp; omega
  have h3 : decide (8 + i < k) = false := by simp; omega
  simp only [h1, h2, h3, Bool.true_and, Bool.not_false]
  by_cases hik : k ≤ i
  · rw [if_pos hik, if_neg (by omega)]
    congr 1
    omega
  · rw [if_neg hik, if_pos (by omega)]

theorem splitHi_getLsbD (ch : Byte) (k i : Nat) : (splitHi ch k).getLsbD i = ch.getLsbD (k + i) := by
  simp [splitHi, BitVec.getLsbD_ushiftRight]

theorem splitLo_getLsbD (ch : Byte) {k i : Nat} (hi : i < 8) :
    (splitLo ch k).getLsbD i = (decide (8 - k ≤ i) && ch.getLsbD (i - (8 - k))) := by
  simp only [splitLo, BitVec.getLsbD_shiftLeft, hi, decide_true, Bool.true_and]
  by_cases h : 8 - k ≤ i <;> simp [h]

theorem lane_getLsbD (x : U64) (j : Nat) {i : Nat} (hi : i < 8) :
    (lane x j).getLsbD i = x.getLsbD (56 - 8 * j + i) := by
  simp [lane, hi]

theorem inLane_getLsbD (b : Byte) {j i : Nat} (hi : i < 64) :
    (inLane b j).getLsbD i = (decide (56 - 8 * j ≤ i) && b.getLsbD (i - (56 - 8 * j))) := by
  simp only [inLane, BitVec.getLsbD_shiftLeft, BitVec.getLsbD_setWidth, hi, decide_true, Bool.true_and]
  by_cases h : 56 - 8 * j ≤ i
  · have : i - (56 - 8 * j) < 64 := by omega
    simp [h, this]
  · simp [h]

/-- A byte that keeps its top bits only is one whose other bits are zero. -/
theorem and_topMask_eq_self_iff {b : Byte} {n : Nat} (hn : n ≤ 8) :
    b &&& topMask n = b ↔ ∀ i, i < 8 - n → b.getLsbD i = false := by
  constructor
  · intro h i hi
    rw [← h, BitVec.getLsbD_and, topMask_getLsbD hn (by omega)]
    have : ¬ 8 ≤ n + i := by omega
    simp [this]
  · intro h
    apply BitVec.eq_of_getLsbD_eq
    intro i hi
    rw [BitVec.getLsbD_and, topMask_getLsbD hn hi]
    by_cases h8 : 8 ≤ n + i
    · simp [h8]
    · simp [h8, h i (by omega)]

/-- No bit set below the top n (the form R27 and R29 use). -/
theorem and_tailMask_eq_zero_iff {b : Byte} {n : Nat} (hn : n ≤ 8) :
    b &&& (0xFF - topMask n) = 0 ↔ ∀ i, i < 8 - n → b.getLsbD i = false := by
  have hm : ∀ i, i < 8 → (0xFF - topMask n).getLsbD i = decide (i < 8 - n) := by
    intro i hi
    interval_cases n <;> interval_cases i <;> rfl
  constructor
  · intro h i hi
    have := congrArg (fun v => v.getLsbD i) h
    simp only [BitVec.getLsbD_and, hm i (by omega)] at this
    simpa [hi] using this
  · intro h
    apply BitVec.eq_of_getLsbD_eq
    intro i hi
    rw [BitVec.getLsbD_and, hm i hi]
    by_cases h8 : i < 8 - n
    · simp [h8, h i h8]
    · simp [h8]

/-! ### Bit lists -/

@[simp] theorem byteBits_length (b : Byte) : (byteBits b).length = 8 := by simp [byteBits]

@[simp] theorem byteBits_getElem (b : Byte) (t : Nat) (h : t < (byteBits b).length) :
    (byteBits b)[t] = b.getLsbD (7 - t) := by simp [byteBits]

@[simp] theorem laneBits_length (l : U64) (n : Nat) : (laneBits l n).length = n := by simp [laneBits]

@[simp] theorem laneBits_getElem (l : U64) (n t : Nat) (h : t < (laneBits l n).length) :
    (laneBits l n)[t] = l.getLsbD (63 - t) := by simp [laneBits]

@[simp] theorem valueBits_length (v : U64) (n : Nat) : (valueBits v n).length = n := by simp [valueBits]

@[simp] theorem valueBits_getElem (v : U64) (n t : Nat) (h : t < (valueBits v n).length) :
    (valueBits v n)[t] = v.getLsbD (n - 1 - t) := by simp [valueBits]

@[simp] theorem bitsAt_length (m : Memory) (p n : Nat) : (bitsAt m p n).length = n := by simp [bitsAt]

@[simp] theorem bitsAt_getElem (m : Memory) (p n t : Nat) (h : t < (bitsAt m p n).length) :
    (bitsAt m p n)[t] = bitAt m (p + t) := by simp [bitsAt]

/-- A bit range splits anywhere. -/
theorem bitsAt_add (m : Memory) (p a b : Nat) : bitsAt m p (a + b) = bitsAt m p a ++ bitsAt m (p + a) b := by
  apply List.ext_getElem
  · simp
  · intro t h1 h2
    by_cases h : t < a
    · simp [h]
    · simp only [bitsAt_getElem, List.getElem_append, bitsAt_length, h, dite_false]
      congr 1
      omega

/-- Two stores with the same bits in a range have the same bit list there. -/
theorem bitsAt_congr {m m' : Memory} {p n : Nat} (h : ∀ j, p ≤ j → j < p + n → bitAt m j = bitAt m' j) :
    bitsAt m p n = bitsAt m' p n := by
  apply List.ext_getElem
  · simp
  · intro t h1 h2
    simp only [bitsAt_getElem]
    apply h
    · omega
    · simp at h1; omega

theorem bitsValue_lt (bs : List Bool) : bitsValue bs < 2 ^ bs.length := by
  induction bs with
  | nil => simp [bitsValue]
  | cons b bs ih =>
    simp only [bitsValue, List.length_cons, Nat.pow_succ]
    cases b <;> simp <;> omega

/-- Bit i of a bit list's value, the last list entry being bit 0. -/
theorem bitsValue_testBit (bs : List Bool) (i : Nat) :
    (bitsValue bs).testBit i = (decide (i < bs.length) && bs.getD (bs.length - 1 - i) false) := by
  induction bs with
  | nil => simp [bitsValue]
  | cons b bs ih =>
    rw [bitsValue, Nat.mul_comm, Nat.testBit_two_pow_mul_add _ (bitsValue_lt bs), ih]
    by_cases h : i < bs.length
    · have h2 : i < bs.length + 1 := by omega
      have h3 : bs.length + 1 - 1 - i = (bs.length - 1 - i) + 1 := by omega
      simp only [h, h2, if_true, decide_true, Bool.true_and, List.length_cons, h3, List.getD_cons_succ]
    · simp only [h, if_false, List.length_cons]
      by_cases he : i = bs.length
      · subst he
        cases b <;> simp
      · have h2 : ¬ i < bs.length + 1 := by omega
        have h3 : i - bs.length = (i - bs.length - 1) + 1 := by omega
        simp only [h2, decide_false, Bool.false_and]
        rw [h3]
        cases b <;> simp [Nat.testBit_succ]

/-- Bit i of a left-justified lane word. -/
theorem leftJustified_getLsbD {bs : List Bool} (hl : bs.length ≤ 64) {i : Nat} (hi : i < 64) :
    (leftJustified bs).getLsbD i = (decide (63 - i < bs.length) && bs.getD (63 - i) false) := by
  unfold leftJustified
  rw [BitVec.getLsbD_ofNat, Nat.mul_comm, Nat.testBit_two_pow_mul, bitsValue_testBit]
  by_cases h : 63 - i < bs.length
  · have h1 : 64 - bs.length ≤ i := by omega
    have h2 : i - (64 - bs.length) < bs.length := by omega
    have h3 : bs.length - 1 - (i - (64 - bs.length)) = 63 - i := by omega
    simp [hi, h, h1, h2, h3]
  · have h1 : ¬ 64 - bs.length ≤ i := by omega
    simp [h, h1]

/-- Reading a left-justified word back gives the bits. -/
theorem laneBits_leftJustified {bs : List Bool} (hl : bs.length ≤ 64) : laneBits (leftJustified bs) bs.length = bs := by
  apply List.ext_getElem
  · simp
  · intro t h1 h2
    have h3 : 63 - (63 - t) = t := by omega
    rw [laneBits_getElem, leftJustified_getLsbD hl (by omega), h3]
    simp [h2]

/-- The bits of a lane word as chunks of bytes: the first m bits of lane j are bits 8j to 8j + m − 1. -/
theorem laneBits_add (l : U64) (a b : Nat) :
    laneBits l (a + b) = laneBits l a ++ (List.range b).map (fun t => l.getLsbD (63 - (a + t))) := by
  apply List.ext_getElem
  · simp
  · intro t h1 h2
    by_cases h : t < a
    · simp [h]
    · simp only [laneBits_getElem, List.getElem_append, laneBits_length, h, dite_false, List.getElem_map,
        List.getElem_range]
      congr 2
      omega

/-- Packing puts the low w bits of a value, most significant first, on top (R123). -/
theorem laneBits_packWord (v : U64) {w : Nat} (h64 : w ≤ 64) : laneBits (packWord v w) w = valueBits v w := by
  apply List.ext_getElem
  · simp
  · intro t h1 h2
    simp only [laneBits_getElem, valueBits_getElem, packWord, BitVec.getLsbD_shiftLeft]
    simp at h1
    have h3 : 63 - t < 64 := by omega
    have h4 : ¬ 63 - t < 64 - w := by omega
    have h5 : 63 - t - (64 - w) = w - 1 - t := by omega
    simp [h3, h4, h5]

/-- Unpacking a left-justified word gives the value of its bits (R121, R123). -/
theorem unpackWord_leftJustified {bs : List Bool} (hl : bs.length ≤ 64) :
    unpackWord (leftJustified bs) bs.length = BitVec.ofNat 64 (bitsValue bs) := by
  apply BitVec.eq_of_getLsbD_eq
  intro i hi
  rw [unpackWord, BitVec.getLsbD_ushiftRight, BitVec.getLsbD_ofNat, bitsValue_testBit]
  by_cases h : i < bs.length
  · have h1 : 64 - bs.length + i < 64 := by omega
    have h2 : 63 - (64 - bs.length + i) = bs.length - 1 - i := by omega
    rw [leftJustified_getLsbD hl h1, h2]
    have h3 : bs.length - 1 - i < bs.length := by omega
    simp [hi, h, h3]
  · have : 64 ≤ 64 - bs.length + i := by omega
    rw [BitVec.getLsbD_of_ge _ _ this]
    simp [h]

end Sys2Proof.Machine
end

