-- ==== Sys2Proof/Laws/Feed.lean ====
section
/-! SUPPORT. Reading, taking from and skipping in a feed (R6, R34, R35): the lemmas every law about a source or a store's
answers cites. -/

namespace Sys2Proof

variable {α : Type}

@[simp] theorem Feed.head_cons (e : Nat → Nat → α) (a : α) (l : List α) (after : After) :
    Feed.head e ⟨a :: l, after⟩ = some a := rfl

@[simp] theorem Feed.rest_cons (a : α) (l : List α) (after : After) : Feed.rest ⟨a :: l, after⟩ = ⟨l, after⟩ := rfl

@[simp] theorem Feed.head_ended (e : Nat → Nat → α) : Feed.head e ⟨[], .ends⟩ = none := rfl

@[simp] theorem Feed.rest_ended : Feed.rest (⟨[], .ends⟩ : Feed α) = ⟨[], .ends⟩ := rfl

@[simp] theorem Feed.head_endless (e : Nat → Nat → α) (name next : Nat) :
    Feed.head e ⟨[], .endless name next⟩ = some (e name next) := rfl

@[simp] theorem Feed.rest_endless (name next : Nat) :
    Feed.rest (⟨[], .endless name next⟩ : Feed α) = ⟨[], .endless name (next + 1)⟩ := rfl

/-- Only a feed that has ended has no next element, and it stays so. -/
theorem Feed.rest_of_head_none {e : Nat → Nat → α} {f : Feed α} (h : f.head e = none) : f.rest = f := by
  obtain ⟨l, after⟩ := f
  cases l with
  | cons a l => cases h
  | nil => cases after <;> first | rfl | cases h

@[simp] theorem Feed.skip_zero (f : Feed α) : f.skip 0 = f := rfl

theorem Feed.skip_succ (f : Feed α) (k : Nat) : f.skip (k + 1) = f.rest.skip k := rfl

@[simp] theorem Feed.skip_one (f : Feed α) : f.skip 1 = f.rest := rfl

theorem Feed.skip_skip (f : Feed α) (a b : Nat) : (f.skip a).skip b = f.skip (a + b) := by
  induction a generalizing f with
  | zero => simp
  | succ a ih =>
    have e : a + 1 + b = a + b + 1 := by omega
    rw [e, skip_succ, skip_succ, ih]

theorem Feed.rest_skip (f : Feed α) (k : Nat) : (f.skip k).rest = f.skip (k + 1) := by
  rw [← skip_skip, skip_one]

@[simp] theorem Feed.take_zero (e : Nat → Nat → α) (f : Feed α) : f.take e 0 = [] := rfl

theorem Feed.take_of_head_none {e : Nat → Nat → α} {f : Feed α} (h : f.head e = none) (k : Nat) : f.take e k = [] := by
  cases k with
  | zero => rfl
  | succ k => simp [Feed.take, h]

theorem Feed.take_succ_of_head {e : Nat → Nat → α} {f : Feed α} {a : α} (h : f.head e = some a) (k : Nat) :
    f.take e (k + 1) = a :: f.rest.take e k := by
  simp [Feed.take, h]

theorem Feed.length_take_le (e : Nat → Nat → α) (f : Feed α) (k : Nat) : (f.take e k).length ≤ k := by
  induction k generalizing f with
  | zero => simp
  | succ k ih =>
    cases h : f.head e with
    | none => simp [take_of_head_none h]
    | some a =>
      have := ih f.rest
      simp only [take_succ_of_head h, List.length_cons]
      omega

theorem Feed.take_add (e : Nat → Nat → α) (f : Feed α) (a b : Nat) :
    f.take e (a + b) = f.take e a ++ (f.skip a).take e b := by
  induction a generalizing f with
  | zero => simp
  | succ a ih =>
    have e1 : a + 1 + b = a + b + 1 := by omega
    rw [e1, skip_succ]
    cases h : f.head e with
    | none =>
      have hs : ∀ k, (f.skip k).head e = none := by
        intro k
        induction k with
        | zero => exact h
        | succ k ihk => rw [← rest_skip, rest_of_head_none ihk, ihk]
      have hs' : (f.rest.skip a).head e = none := hs (a + 1)
      rw [take_of_head_none h, take_of_head_none h, take_of_head_none hs', List.nil_append]
    | some x => rw [take_succ_of_head h, take_succ_of_head h, ih, List.cons_append]

/-- A feed with fewer than `a` elements has no more of them further on. -/
theorem Feed.take_add_of_short {e : Nat → Nat → α} {f : Feed α} {a : Nat} (h : (f.take e a).length < a) (b : Nat) :
    f.take e (a + b) = f.take e a := by
  induction a generalizing f with
  | zero => simp at h
  | succ a ih =>
    have e1 : a + 1 + b = a + b + 1 := by omega
    rw [e1]
    cases hh : f.head e with
    | none => rw [take_of_head_none hh, take_of_head_none hh]
    | some x =>
      rw [take_succ_of_head hh] at h ⊢
      rw [take_succ_of_head hh, ih (by simpa using h)]

/-- Where the first `k` elements are all there, each place before has one. -/
theorem Feed.head_skip_ne_none {e : Nat → Nat → α} {f : Feed α} {j k : Nat} (h : (f.take e k).length = k) (hj : j < k) :
    (f.skip j).head e ≠ none := by
  intro hn
  have h1 : k = j + (k - j) := by omega
  rw [h1, take_add, take_of_head_none hn, List.append_nil] at h
  have := length_take_le e f j
  omega

theorem Feed.skip_append (l m : List α) (after : After) : Feed.skip l.length ⟨l ++ m, after⟩ = ⟨m, after⟩ := by
  induction l with
  | nil => rfl
  | cons a l ih => exact ih

/-- The listed elements come first, in order. -/
theorem Feed.head_skip_listed (e : Nat → Nat → α) {l : List α} {j : Nat} (after : After) (h : j < l.length) :
    (Feed.skip j ⟨l, after⟩).head e = some l[j] := by
  induction l generalizing j with
  | nil => simp at h
  | cons a l ih =>
    cases j with
    | zero => rfl
    | succ j => exact ih (by simpa using h)

end Sys2Proof
end

