-- ==== Sys2Proof/Laws/PerInstr.lean ====
section
/-! SUPPORT. A statement about every command, proved command by command: where the count stands in the word (R91, R92). -/

namespace Sys2Proof.Laws

/-- The low byte of a command's word is its count field, and a command whose row takes no count has 0 there (R91, R92). -/
def WordLayout.Statement (i : Instr) : Prop :=
  countOf (encode i) = i.countField ∧ (i.countRange = (0, 0) → i.countField = 0)

theorem countOf_append (op n : BitVec 8) : countOf (op ++ n) = n := by
  apply BitVec.eq_of_getLsbD_eq
  intro i hi
  rw [countOf, BitVec.getLsbD_extractLsb', BitVec.getLsbD_append]
  simp [hi]

theorem WordLayout.pack (n : BitVec 8) : WordLayout.Statement (.pack n) := ⟨countOf_append _ n, by simp [Instr.countRange]⟩
theorem WordLayout.unpack (n : BitVec 8) : WordLayout.Statement (.unpack n) :=
  ⟨countOf_append _ n, by simp [Instr.countRange]⟩
theorem WordLayout.rBitb (n : BitVec 8) : WordLayout.Statement (.rBitb n) :=
  ⟨countOf_append _ n, by simp [Instr.countRange]⟩
theorem WordLayout.rByte : WordLayout.Statement .rByte := ⟨rfl, fun _ => rfl⟩
theorem WordLayout.rBool : WordLayout.Statement .rBool := ⟨rfl, fun _ => rfl⟩
theorem WordLayout.rBits (n : BitVec 8) : WordLayout.Statement (.rBits n) :=
  ⟨countOf_append _ n, by simp [Instr.countRange]⟩
theorem WordLayout.rField (n : BitVec 8) : WordLayout.Statement (.rField n) :=
  ⟨countOf_append _ n, by simp [Instr.countRange]⟩
theorem WordLayout.rAlign : WordLayout.Statement .rAlign := ⟨rfl, fun _ => rfl⟩
theorem WordLayout.rArr (n : BitVec 8) : WordLayout.Statement (.rArr n) :=
  ⟨countOf_append _ n, by simp [Instr.countRange]⟩
theorem WordLayout.rPos : WordLayout.Statement .rPos := ⟨rfl, fun _ => rfl⟩
theorem WordLayout.rRst : WordLayout.Statement .rRst := ⟨rfl, fun _ => rfl⟩
theorem WordLayout.wBitb (n : BitVec 8) : WordLayout.Statement (.wBitb n) :=
  ⟨countOf_append _ n, by simp [Instr.countRange]⟩
theorem WordLayout.wByte : WordLayout.Statement .wByte := ⟨rfl, fun _ => rfl⟩
theorem WordLayout.wBool : WordLayout.Statement .wBool := ⟨rfl, fun _ => rfl⟩
theorem WordLayout.wBits (n : BitVec 8) : WordLayout.Statement (.wBits n) :=
  ⟨countOf_append _ n, by simp [Instr.countRange]⟩
theorem WordLayout.wField (n : BitVec 8) : WordLayout.Statement (.wField n) :=
  ⟨countOf_append _ n, by simp [Instr.countRange]⟩
theorem WordLayout.wAlign : WordLayout.Statement .wAlign := ⟨rfl, fun _ => rfl⟩
theorem WordLayout.wGrow : WordLayout.Statement .wGrow := ⟨rfl, fun _ => rfl⟩
theorem WordLayout.wFlush : WordLayout.Statement .wFlush := ⟨rfl, fun _ => rfl⟩
theorem WordLayout.wLen : WordLayout.Statement .wLen := ⟨rfl, fun _ => rfl⟩
theorem WordLayout.wPos : WordLayout.Statement .wPos := ⟨rfl, fun _ => rfl⟩
theorem WordLayout.wRst : WordLayout.Statement .wRst := ⟨rfl, fun _ => rfl⟩
theorem WordLayout.sysStat : WordLayout.Statement .sysStat := ⟨rfl, fun _ => rfl⟩

end Sys2Proof.Laws
end

