-- ==== Sys2Proof/Laws/State.lean ====
section
/-! SUPPORT. What each named update leaves in each field of State, so that no later proof unfolds a record update. -/

namespace Sys2Proof.Machine

variable (s : State)

/-! ### State.respond -/

@[simp] theorem State.respond_cfg (st : Status) (c : Nat) (r : U64) : (s.respond st c r).cfg = s.cfg := rfl
@[simp] theorem State.respond_env (st : Status) (c : Nat) (r : U64) : (s.respond st c r).env = s.env := rfl
@[simp] theorem State.respond_pending (st : Status) (c : Nat) (r : U64) : (s.respond st c r).pending = s.pending := rfl
@[simp] theorem State.respond_cmd (st : Status) (c : Nat) (r : U64) : (s.respond st c r).cmd = s.cmd := rfl
@[simp] theorem State.respond_opnd (st : Status) (c : Nat) (r : U64) : (s.respond st c r).opnd = s.opnd := rfl
@[simp] theorem State.respond_status (st : Status) (c : Nat) (r : U64) : (s.respond st c r).status = st := rfl
@[simp] theorem State.respond_count (st : Status) (c : Nat) (r : U64) : (s.respond st c r).count = BitVec.ofNat 8 c := rfl
@[simp] theorem State.respond_result (st : Status) (c : Nat) (r : U64) : (s.respond st c r).result = r := rfl
@[simp] theorem State.respond_rpos (st : Status) (c : Nat) (r : U64) : (s.respond st c r).rpos = s.rpos := rfl
@[simp] theorem State.respond_rpend (st : Status) (c : Nat) (r : U64) : (s.respond st c r).rpend = s.rpend := rfl
@[simp] theorem State.respond_rpcnt (st : Status) (c : Nat) (r : U64) : (s.respond st c r).rpcnt = s.rpcnt := rfl
@[simp] theorem State.respond_wpos (st : Status) (c : Nat) (r : U64) : (s.respond st c r).wpos = s.wpos := rfl
@[simp] theorem State.respond_wpend (st : Status) (c : Nat) (r : U64) : (s.respond st c r).wpend = s.wpend := rfl
@[simp] theorem State.respond_wpcnt (st : Status) (c : Nat) (r : U64) : (s.respond st c r).wpcnt = s.wpcnt := rfl
@[simp] theorem State.respond_fault (st : Status) (c : Nat) (r : U64) : (s.respond st c r).fault = s.fault := rfl
@[simp] theorem State.respond_fcause (st : Status) (c : Nat) (r : U64) : (s.respond st c r).fcause = s.fcause := rfl
@[simp] theorem State.respond_rbuf (st : Status) (c : Nat) (r : U64) : (s.respond st c r).rbuf = s.rbuf := rfl
@[simp] theorem State.respond_src (st : Status) (c : Nat) (r : U64) : (s.respond st c r).src = s.src := rfl
@[simp] theorem State.respond_wbuf (st : Status) (c : Nat) (r : U64) : (s.respond st c r).wbuf = s.wbuf := rfl
@[simp] theorem State.respond_wcap (st : Status) (c : Nat) (r : U64) : (s.respond st c r).wcap = s.wcap := rfl
@[simp] theorem State.respond_snk (st : Status) (c : Nat) (r : U64) : (s.respond st c r).snk = s.snk := rfl
@[simp] theorem State.respond_freeIdx (st : Status) (c : Nat) (r : U64) : (s.respond st c r).freeIdx = s.freeIdx := rfl

/-! ### State.setReader -/

@[simp] theorem State.setReader_cfg (p : Nat) (b : Byte) (c : Nat) : (s.setReader p b c).cfg = s.cfg := rfl
@[simp] theorem State.setReader_env (p : Nat) (b : Byte) (c : Nat) : (s.setReader p b c).env = s.env := rfl
@[simp] theorem State.setReader_pending (p : Nat) (b : Byte) (c : Nat) : (s.setReader p b c).pending = s.pending := rfl
@[simp] theorem State.setReader_cmd (p : Nat) (b : Byte) (c : Nat) : (s.setReader p b c).cmd = s.cmd := rfl
@[simp] theorem State.setReader_opnd (p : Nat) (b : Byte) (c : Nat) : (s.setReader p b c).opnd = s.opnd := rfl
@[simp] theorem State.setReader_status (p : Nat) (b : Byte) (c : Nat) : (s.setReader p b c).status = s.status := rfl
@[simp] theorem State.setReader_count (p : Nat) (b : Byte) (c : Nat) : (s.setReader p b c).count = s.count := rfl
@[simp] theorem State.setReader_result (p : Nat) (b : Byte) (c : Nat) : (s.setReader p b c).result = s.result := rfl
@[simp] theorem State.setReader_rpos (p : Nat) (b : Byte) (c : Nat) : (s.setReader p b c).rpos = BitVec.ofNat 64 p := rfl
@[simp] theorem State.setReader_rpend (p : Nat) (b : Byte) (c : Nat) : (s.setReader p b c).rpend = b := rfl
@[simp] theorem State.setReader_rpcnt (p : Nat) (b : Byte) (c : Nat) : (s.setReader p b c).rpcnt = BitVec.ofNat 3 c := rfl
@[simp] theorem State.setReader_wpos (p : Nat) (b : Byte) (c : Nat) : (s.setReader p b c).wpos = s.wpos := rfl
@[simp] theorem State.setReader_wpend (p : Nat) (b : Byte) (c : Nat) : (s.setReader p b c).wpend = s.wpend := rfl
@[simp] theorem State.setReader_wpcnt (p : Nat) (b : Byte) (c : Nat) : (s.setReader p b c).wpcnt = s.wpcnt := rfl
@[simp] theorem State.setReader_fault (p : Nat) (b : Byte) (c : Nat) : (s.setReader p b c).fault = s.fault := rfl
@[simp] theorem State.setReader_fcause (p : Nat) (b : Byte) (c : Nat) : (s.setReader p b c).fcause = s.fcause := rfl
@[simp] theorem State.setReader_rbuf (p : Nat) (b : Byte) (c : Nat) : (s.setReader p b c).rbuf = s.rbuf := rfl
@[simp] theorem State.setReader_src (p : Nat) (b : Byte) (c : Nat) : (s.setReader p b c).src = s.src := rfl
@[simp] theorem State.setReader_wbuf (p : Nat) (b : Byte) (c : Nat) : (s.setReader p b c).wbuf = s.wbuf := rfl
@[simp] theorem State.setReader_wcap (p : Nat) (b : Byte) (c : Nat) : (s.setReader p b c).wcap = s.wcap := rfl
@[simp] theorem State.setReader_snk (p : Nat) (b : Byte) (c : Nat) : (s.setReader p b c).snk = s.snk := rfl
@[simp] theorem State.setReader_freeIdx (p : Nat) (b : Byte) (c : Nat) : (s.setReader p b c).freeIdx = s.freeIdx := rfl

/-! ### State.setWriter -/

@[simp] theorem State.setWriter_cfg (p : Nat) (b : Byte) (c : Nat) : (s.setWriter p b c).cfg = s.cfg := rfl
@[simp] theorem State.setWriter_env (p : Nat) (b : Byte) (c : Nat) : (s.setWriter p b c).env = s.env := rfl
@[simp] theorem State.setWriter_pending (p : Nat) (b : Byte) (c : Nat) : (s.setWriter p b c).pending = s.pending := rfl
@[simp] theorem State.setWriter_cmd (p : Nat) (b : Byte) (c : Nat) : (s.setWriter p b c).cmd = s.cmd := rfl
@[simp] theorem State.setWriter_opnd (p : Nat) (b : Byte) (c : Nat) : (s.setWriter p b c).opnd = s.opnd := rfl
@[simp] theorem State.setWriter_status (p : Nat) (b : Byte) (c : Nat) : (s.setWriter p b c).status = s.status := rfl
@[simp] theorem State.setWriter_count (p : Nat) (b : Byte) (c : Nat) : (s.setWriter p b c).count = s.count := rfl
@[simp] theorem State.setWriter_result (p : Nat) (b : Byte) (c : Nat) : (s.setWriter p b c).result = s.result := rfl
@[simp] theorem State.setWriter_rpos (p : Nat) (b : Byte) (c : Nat) : (s.setWriter p b c).rpos = s.rpos := rfl
@[simp] theorem State.setWriter_rpend (p : Nat) (b : Byte) (c : Nat) : (s.setWriter p b c).rpend = s.rpend := rfl
@[simp] theorem State.setWriter_rpcnt (p : Nat) (b : Byte) (c : Nat) : (s.setWriter p b c).rpcnt = s.rpcnt := rfl
@[simp] theorem State.setWriter_wpos (p : Nat) (b : Byte) (c : Nat) : (s.setWriter p b c).wpos = BitVec.ofNat 64 p := rfl
@[simp] theorem State.setWriter_wpend (p : Nat) (b : Byte) (c : Nat) : (s.setWriter p b c).wpend = b := rfl
@[simp] theorem State.setWriter_wpcnt (p : Nat) (b : Byte) (c : Nat) : (s.setWriter p b c).wpcnt = BitVec.ofNat 3 c := rfl
@[simp] theorem State.setWriter_fault (p : Nat) (b : Byte) (c : Nat) : (s.setWriter p b c).fault = s.fault := rfl
@[simp] theorem State.setWriter_fcause (p : Nat) (b : Byte) (c : Nat) : (s.setWriter p b c).fcause = s.fcause := rfl
@[simp] theorem State.setWriter_rbuf (p : Nat) (b : Byte) (c : Nat) : (s.setWriter p b c).rbuf = s.rbuf := rfl
@[simp] theorem State.setWriter_src (p : Nat) (b : Byte) (c : Nat) : (s.setWriter p b c).src = s.src := rfl
@[simp] theorem State.setWriter_wbuf (p : Nat) (b : Byte) (c : Nat) : (s.setWriter p b c).wbuf = s.wbuf := rfl
@[simp] theorem State.setWriter_wcap (p : Nat) (b : Byte) (c : Nat) : (s.setWriter p b c).wcap = s.wcap := rfl
@[simp] theorem State.setWriter_snk (p : Nat) (b : Byte) (c : Nat) : (s.setWriter p b c).snk = s.snk := rfl
@[simp] theorem State.setWriter_freeIdx (p : Nat) (b : Byte) (c : Nat) : (s.setWriter p b c).freeIdx = s.freeIdx := rfl

/-! ### State.setRpos -/

@[simp] theorem State.setRpos_cfg (p : Nat) : (s.setRpos p).cfg = s.cfg := rfl
@[simp] theorem State.setRpos_env (p : Nat) : (s.setRpos p).env = s.env := rfl
@[simp] theorem State.setRpos_pending (p : Nat) : (s.setRpos p).pending = s.pending := rfl
@[simp] theorem State.setRpos_cmd (p : Nat) : (s.setRpos p).cmd = s.cmd := rfl
@[simp] theorem State.setRpos_opnd (p : Nat) : (s.setRpos p).opnd = s.opnd := rfl
@[simp] theorem State.setRpos_status (p : Nat) : (s.setRpos p).status = s.status := rfl
@[simp] theorem State.setRpos_count (p : Nat) : (s.setRpos p).count = s.count := rfl
@[simp] theorem State.setRpos_result (p : Nat) : (s.setRpos p).result = s.result := rfl
@[simp] theorem State.setRpos_rpos (p : Nat) : (s.setRpos p).rpos = BitVec.ofNat 64 p := rfl
@[simp] theorem State.setRpos_rpend (p : Nat) : (s.setRpos p).rpend = s.rpend := rfl
@[simp] theorem State.setRpos_rpcnt (p : Nat) : (s.setRpos p).rpcnt = s.rpcnt := rfl
@[simp] theorem State.setRpos_wpos (p : Nat) : (s.setRpos p).wpos = s.wpos := rfl
@[simp] theorem State.setRpos_wpend (p : Nat) : (s.setRpos p).wpend = s.wpend := rfl
@[simp] theorem State.setRpos_wpcnt (p : Nat) : (s.setRpos p).wpcnt = s.wpcnt := rfl
@[simp] theorem State.setRpos_fault (p : Nat) : (s.setRpos p).fault = s.fault := rfl
@[simp] theorem State.setRpos_fcause (p : Nat) : (s.setRpos p).fcause = s.fcause := rfl
@[simp] theorem State.setRpos_rbuf (p : Nat) : (s.setRpos p).rbuf = s.rbuf := rfl
@[simp] theorem State.setRpos_src (p : Nat) : (s.setRpos p).src = s.src := rfl
@[simp] theorem State.setRpos_wbuf (p : Nat) : (s.setRpos p).wbuf = s.wbuf := rfl
@[simp] theorem State.setRpos_wcap (p : Nat) : (s.setRpos p).wcap = s.wcap := rfl
@[simp] theorem State.setRpos_snk (p : Nat) : (s.setRpos p).snk = s.snk := rfl
@[simp] theorem State.setRpos_freeIdx (p : Nat) : (s.setRpos p).freeIdx = s.freeIdx := rfl

/-! ### State.setWpos -/

@[simp] theorem State.setWpos_cfg (p : Nat) : (s.setWpos p).cfg = s.cfg := rfl
@[simp] theorem State.setWpos_env (p : Nat) : (s.setWpos p).env = s.env := rfl
@[simp] theorem State.setWpos_pending (p : Nat) : (s.setWpos p).pending = s.pending := rfl
@[simp] theorem State.setWpos_cmd (p : Nat) : (s.setWpos p).cmd = s.cmd := rfl
@[simp] theorem State.setWpos_opnd (p : Nat) : (s.setWpos p).opnd = s.opnd := rfl
@[simp] theorem State.setWpos_status (p : Nat) : (s.setWpos p).status = s.status := rfl
@[simp] theorem State.setWpos_count (p : Nat) : (s.setWpos p).count = s.count := rfl
@[simp] theorem State.setWpos_result (p : Nat) : (s.setWpos p).result = s.result := rfl
@[simp] theorem State.setWpos_rpos (p : Nat) : (s.setWpos p).rpos = s.rpos := rfl
@[simp] theorem State.setWpos_rpend (p : Nat) : (s.setWpos p).rpend = s.rpend := rfl
@[simp] theorem State.setWpos_rpcnt (p : Nat) : (s.setWpos p).rpcnt = s.rpcnt := rfl
@[simp] theorem State.setWpos_wpos (p : Nat) : (s.setWpos p).wpos = BitVec.ofNat 64 p := rfl
@[simp] theorem State.setWpos_wpend (p : Nat) : (s.setWpos p).wpend = s.wpend := rfl
@[simp] theorem State.setWpos_wpcnt (p : Nat) : (s.setWpos p).wpcnt = s.wpcnt := rfl
@[simp] theorem State.setWpos_fault (p : Nat) : (s.setWpos p).fault = s.fault := rfl
@[simp] theorem State.setWpos_fcause (p : Nat) : (s.setWpos p).fcause = s.fcause := rfl
@[simp] theorem State.setWpos_rbuf (p : Nat) : (s.setWpos p).rbuf = s.rbuf := rfl
@[simp] theorem State.setWpos_src (p : Nat) : (s.setWpos p).src = s.src := rfl
@[simp] theorem State.setWpos_wbuf (p : Nat) : (s.setWpos p).wbuf = s.wbuf := rfl
@[simp] theorem State.setWpos_wcap (p : Nat) : (s.setWpos p).wcap = s.wcap := rfl
@[simp] theorem State.setWpos_snk (p : Nat) : (s.setWpos p).snk = s.snk := rfl
@[simp] theorem State.setWpos_freeIdx (p : Nat) : (s.setWpos p).freeIdx = s.freeIdx := rfl

/-! ### State.setWbuf -/

@[simp] theorem State.setWbuf_cfg (m : Memory) : (s.setWbuf m).cfg = s.cfg := rfl
@[simp] theorem State.setWbuf_env (m : Memory) : (s.setWbuf m).env = s.env := rfl
@[simp] theorem State.setWbuf_pending (m : Memory) : (s.setWbuf m).pending = s.pending := rfl
@[simp] theorem State.setWbuf_cmd (m : Memory) : (s.setWbuf m).cmd = s.cmd := rfl
@[simp] theorem State.setWbuf_opnd (m : Memory) : (s.setWbuf m).opnd = s.opnd := rfl
@[simp] theorem State.setWbuf_status (m : Memory) : (s.setWbuf m).status = s.status := rfl
@[simp] theorem State.setWbuf_count (m : Memory) : (s.setWbuf m).count = s.count := rfl
@[simp] theorem State.setWbuf_result (m : Memory) : (s.setWbuf m).result = s.result := rfl
@[simp] theorem State.setWbuf_rpos (m : Memory) : (s.setWbuf m).rpos = s.rpos := rfl
@[simp] theorem State.setWbuf_rpend (m : Memory) : (s.setWbuf m).rpend = s.rpend := rfl
@[simp] theorem State.setWbuf_rpcnt (m : Memory) : (s.setWbuf m).rpcnt = s.rpcnt := rfl
@[simp] theorem State.setWbuf_wpos (m : Memory) : (s.setWbuf m).wpos = s.wpos := rfl
@[simp] theorem State.setWbuf_wpend (m : Memory) : (s.setWbuf m).wpend = s.wpend := rfl
@[simp] theorem State.setWbuf_wpcnt (m : Memory) : (s.setWbuf m).wpcnt = s.wpcnt := rfl
@[simp] theorem State.setWbuf_fault (m : Memory) : (s.setWbuf m).fault = s.fault := rfl
@[simp] theorem State.setWbuf_fcause (m : Memory) : (s.setWbuf m).fcause = s.fcause := rfl
@[simp] theorem State.setWbuf_rbuf (m : Memory) : (s.setWbuf m).rbuf = s.rbuf := rfl
@[simp] theorem State.setWbuf_src (m : Memory) : (s.setWbuf m).src = s.src := rfl
@[simp] theorem State.setWbuf_wbuf (m : Memory) : (s.setWbuf m).wbuf = m := rfl
@[simp] theorem State.setWbuf_wcap (m : Memory) : (s.setWbuf m).wcap = s.wcap := rfl
@[simp] theorem State.setWbuf_snk (m : Memory) : (s.setWbuf m).snk = s.snk := rfl
@[simp] theorem State.setWbuf_freeIdx (m : Memory) : (s.setWbuf m).freeIdx = s.freeIdx := rfl

/-! ### State.setSource -/

@[simp] theorem State.setSource_cfg (l : Feed Byte) (q : Feed Bool) : (s.setSource l q).cfg = s.cfg := rfl
@[simp] theorem State.setSource_env (l : Feed Byte) (q : Feed Bool) : (s.setSource l q).env = { s.env with pulls := q } := rfl
@[simp] theorem State.setSource_pending (l : Feed Byte) (q : Feed Bool) : (s.setSource l q).pending = s.pending := rfl
@[simp] theorem State.setSource_cmd (l : Feed Byte) (q : Feed Bool) : (s.setSource l q).cmd = s.cmd := rfl
@[simp] theorem State.setSource_opnd (l : Feed Byte) (q : Feed Bool) : (s.setSource l q).opnd = s.opnd := rfl
@[simp] theorem State.setSource_status (l : Feed Byte) (q : Feed Bool) : (s.setSource l q).status = s.status := rfl
@[simp] theorem State.setSource_count (l : Feed Byte) (q : Feed Bool) : (s.setSource l q).count = s.count := rfl
@[simp] theorem State.setSource_result (l : Feed Byte) (q : Feed Bool) : (s.setSource l q).result = s.result := rfl
@[simp] theorem State.setSource_rpos (l : Feed Byte) (q : Feed Bool) : (s.setSource l q).rpos = s.rpos := rfl
@[simp] theorem State.setSource_rpend (l : Feed Byte) (q : Feed Bool) : (s.setSource l q).rpend = s.rpend := rfl
@[simp] theorem State.setSource_rpcnt (l : Feed Byte) (q : Feed Bool) : (s.setSource l q).rpcnt = s.rpcnt := rfl
@[simp] theorem State.setSource_wpos (l : Feed Byte) (q : Feed Bool) : (s.setSource l q).wpos = s.wpos := rfl
@[simp] theorem State.setSource_wpend (l : Feed Byte) (q : Feed Bool) : (s.setSource l q).wpend = s.wpend := rfl
@[simp] theorem State.setSource_wpcnt (l : Feed Byte) (q : Feed Bool) : (s.setSource l q).wpcnt = s.wpcnt := rfl
@[simp] theorem State.setSource_fault (l : Feed Byte) (q : Feed Bool) : (s.setSource l q).fault = s.fault := rfl
@[simp] theorem State.setSource_fcause (l : Feed Byte) (q : Feed Bool) : (s.setSource l q).fcause = s.fcause := rfl
@[simp] theorem State.setSource_rbuf (l : Feed Byte) (q : Feed Bool) : (s.setSource l q).rbuf = s.rbuf := rfl
@[simp] theorem State.setSource_src (l : Feed Byte) (q : Feed Bool) : (s.setSource l q).src = l := rfl
@[simp] theorem State.setSource_wbuf (l : Feed Byte) (q : Feed Bool) : (s.setSource l q).wbuf = s.wbuf := rfl
@[simp] theorem State.setSource_wcap (l : Feed Byte) (q : Feed Bool) : (s.setSource l q).wcap = s.wcap := rfl
@[simp] theorem State.setSource_snk (l : Feed Byte) (q : Feed Bool) : (s.setSource l q).snk = s.snk := rfl
@[simp] theorem State.setSource_freeIdx (l : Feed Byte) (q : Feed Bool) : (s.setSource l q).freeIdx = s.freeIdx := rfl

/-! ### State.setSink -/

@[simp] theorem State.setSink_cfg (l : List Byte) (q : Feed Bool) : (s.setSink l q).cfg = s.cfg := rfl
@[simp] theorem State.setSink_env (l : List Byte) (q : Feed Bool) : (s.setSink l q).env = { s.env with accepts := q } := rfl
@[simp] theorem State.setSink_pending (l : List Byte) (q : Feed Bool) : (s.setSink l q).pending = s.pending := rfl
@[simp] theorem State.setSink_cmd (l : List Byte) (q : Feed Bool) : (s.setSink l q).cmd = s.cmd := rfl
@[simp] theorem State.setSink_opnd (l : List Byte) (q : Feed Bool) : (s.setSink l q).opnd = s.opnd := rfl
@[simp] theorem State.setSink_status (l : List Byte) (q : Feed Bool) : (s.setSink l q).status = s.status := rfl
@[simp] theorem State.setSink_count (l : List Byte) (q : Feed Bool) : (s.setSink l q).count = s.count := rfl
@[simp] theorem State.setSink_result (l : List Byte) (q : Feed Bool) : (s.setSink l q).result = s.result := rfl
@[simp] theorem State.setSink_rpos (l : List Byte) (q : Feed Bool) : (s.setSink l q).rpos = s.rpos := rfl
@[simp] theorem State.setSink_rpend (l : List Byte) (q : Feed Bool) : (s.setSink l q).rpend = s.rpend := rfl
@[simp] theorem State.setSink_rpcnt (l : List Byte) (q : Feed Bool) : (s.setSink l q).rpcnt = s.rpcnt := rfl
@[simp] theorem State.setSink_wpos (l : List Byte) (q : Feed Bool) : (s.setSink l q).wpos = s.wpos := rfl
@[simp] theorem State.setSink_wpend (l : List Byte) (q : Feed Bool) : (s.setSink l q).wpend = s.wpend := rfl
@[simp] theorem State.setSink_wpcnt (l : List Byte) (q : Feed Bool) : (s.setSink l q).wpcnt = s.wpcnt := rfl
@[simp] theorem State.setSink_fault (l : List Byte) (q : Feed Bool) : (s.setSink l q).fault = s.fault := rfl
@[simp] theorem State.setSink_fcause (l : List Byte) (q : Feed Bool) : (s.setSink l q).fcause = s.fcause := rfl
@[simp] theorem State.setSink_rbuf (l : List Byte) (q : Feed Bool) : (s.setSink l q).rbuf = s.rbuf := rfl
@[simp] theorem State.setSink_src (l : List Byte) (q : Feed Bool) : (s.setSink l q).src = s.src := rfl
@[simp] theorem State.setSink_wbuf (l : List Byte) (q : Feed Bool) : (s.setSink l q).wbuf = s.wbuf := rfl
@[simp] theorem State.setSink_wcap (l : List Byte) (q : Feed Bool) : (s.setSink l q).wcap = s.wcap := rfl
@[simp] theorem State.setSink_snk (l : List Byte) (q : Feed Bool) : (s.setSink l q).snk = l := rfl
@[simp] theorem State.setSink_freeIdx (l : List Byte) (q : Feed Bool) : (s.setSink l q).freeIdx = s.freeIdx := rfl

/-! ### State.setGrown -/

@[simp] theorem State.setGrown_cfg (c : Nat) (m : Memory) (q : Feed GrowAnswer) : (s.setGrown c m q).cfg = s.cfg := rfl
@[simp] theorem State.setGrown_env (c : Nat) (m : Memory) (q : Feed GrowAnswer) : (s.setGrown c m q).env = { s.env with grows := q } := rfl
@[simp] theorem State.setGrown_pending (c : Nat) (m : Memory) (q : Feed GrowAnswer) : (s.setGrown c m q).pending = s.pending := rfl
@[simp] theorem State.setGrown_cmd (c : Nat) (m : Memory) (q : Feed GrowAnswer) : (s.setGrown c m q).cmd = s.cmd := rfl
@[simp] theorem State.setGrown_opnd (c : Nat) (m : Memory) (q : Feed GrowAnswer) : (s.setGrown c m q).opnd = s.opnd := rfl
@[simp] theorem State.setGrown_status (c : Nat) (m : Memory) (q : Feed GrowAnswer) : (s.setGrown c m q).status = s.status := rfl
@[simp] theorem State.setGrown_count (c : Nat) (m : Memory) (q : Feed GrowAnswer) : (s.setGrown c m q).count = s.count := rfl
@[simp] theorem State.setGrown_result (c : Nat) (m : Memory) (q : Feed GrowAnswer) : (s.setGrown c m q).result = s.result := rfl
@[simp] theorem State.setGrown_rpos (c : Nat) (m : Memory) (q : Feed GrowAnswer) : (s.setGrown c m q).rpos = s.rpos := rfl
@[simp] theorem State.setGrown_rpend (c : Nat) (m : Memory) (q : Feed GrowAnswer) : (s.setGrown c m q).rpend = s.rpend := rfl
@[simp] theorem State.setGrown_rpcnt (c : Nat) (m : Memory) (q : Feed GrowAnswer) : (s.setGrown c m q).rpcnt = s.rpcnt := rfl
@[simp] theorem State.setGrown_wpos (c : Nat) (m : Memory) (q : Feed GrowAnswer) : (s.setGrown c m q).wpos = s.wpos := rfl
@[simp] theorem State.setGrown_wpend (c : Nat) (m : Memory) (q : Feed GrowAnswer) : (s.setGrown c m q).wpend = s.wpend := rfl
@[simp] theorem State.setGrown_wpcnt (c : Nat) (m : Memory) (q : Feed GrowAnswer) : (s.setGrown c m q).wpcnt = s.wpcnt := rfl
@[simp] theorem State.setGrown_fault (c : Nat) (m : Memory) (q : Feed GrowAnswer) : (s.setGrown c m q).fault = s.fault := rfl
@[simp] theorem State.setGrown_fcause (c : Nat) (m : Memory) (q : Feed GrowAnswer) : (s.setGrown c m q).fcause = s.fcause := rfl
@[simp] theorem State.setGrown_rbuf (c : Nat) (m : Memory) (q : Feed GrowAnswer) : (s.setGrown c m q).rbuf = s.rbuf := rfl
@[simp] theorem State.setGrown_src (c : Nat) (m : Memory) (q : Feed GrowAnswer) : (s.setGrown c m q).src = s.src := rfl
@[simp] theorem State.setGrown_wbuf (c : Nat) (m : Memory) (q : Feed GrowAnswer) : (s.setGrown c m q).wbuf = m := rfl
@[simp] theorem State.setGrown_wcap (c : Nat) (m : Memory) (q : Feed GrowAnswer) : (s.setGrown c m q).wcap = c := rfl
@[simp] theorem State.setGrown_snk (c : Nat) (m : Memory) (q : Feed GrowAnswer) : (s.setGrown c m q).snk = s.snk := rfl
@[simp] theorem State.setGrown_freeIdx (c : Nat) (m : Memory) (q : Feed GrowAnswer) : (s.setGrown c m q).freeIdx = s.freeIdx := rfl

/-! ### State.issue -/

@[simp] theorem State.issue_cfg (w : CmdWord) (o : U64) (q : List HostEvent) : (s.issue w o q).cfg = s.cfg := rfl
@[simp] theorem State.issue_env (w : CmdWord) (o : U64) (q : List HostEvent) : (s.issue w o q).env = s.env := rfl
@[simp] theorem State.issue_pending (w : CmdWord) (o : U64) (q : List HostEvent) : (s.issue w o q).pending = q := rfl
@[simp] theorem State.issue_cmd (w : CmdWord) (o : U64) (q : List HostEvent) : (s.issue w o q).cmd = w := rfl
@[simp] theorem State.issue_opnd (w : CmdWord) (o : U64) (q : List HostEvent) : (s.issue w o q).opnd = o := rfl
@[simp] theorem State.issue_status (w : CmdWord) (o : U64) (q : List HostEvent) : (s.issue w o q).status = s.status := rfl
@[simp] theorem State.issue_count (w : CmdWord) (o : U64) (q : List HostEvent) : (s.issue w o q).count = s.count := rfl
@[simp] theorem State.issue_result (w : CmdWord) (o : U64) (q : List HostEvent) : (s.issue w o q).result = s.result := rfl
@[simp] theorem State.issue_rpos (w : CmdWord) (o : U64) (q : List HostEvent) : (s.issue w o q).rpos = s.rpos := rfl
@[simp] theorem State.issue_rpend (w : CmdWord) (o : U64) (q : List HostEvent) : (s.issue w o q).rpend = s.rpend := rfl
@[simp] theorem State.issue_rpcnt (w : CmdWord) (o : U64) (q : List HostEvent) : (s.issue w o q).rpcnt = s.rpcnt := rfl
@[simp] theorem State.issue_wpos (w : CmdWord) (o : U64) (q : List HostEvent) : (s.issue w o q).wpos = s.wpos := rfl
@[simp] theorem State.issue_wpend (w : CmdWord) (o : U64) (q : List HostEvent) : (s.issue w o q).wpend = s.wpend := rfl
@[simp] theorem State.issue_wpcnt (w : CmdWord) (o : U64) (q : List HostEvent) : (s.issue w o q).wpcnt = s.wpcnt := rfl
@[simp] theorem State.issue_fault (w : CmdWord) (o : U64) (q : List HostEvent) : (s.issue w o q).fault = s.fault := rfl
@[simp] theorem State.issue_fcause (w : CmdWord) (o : U64) (q : List HostEvent) : (s.issue w o q).fcause = s.fcause := rfl
@[simp] theorem State.issue_rbuf (w : CmdWord) (o : U64) (q : List HostEvent) : (s.issue w o q).rbuf = s.rbuf := rfl
@[simp] theorem State.issue_src (w : CmdWord) (o : U64) (q : List HostEvent) : (s.issue w o q).src = s.src := rfl
@[simp] theorem State.issue_wbuf (w : CmdWord) (o : U64) (q : List HostEvent) : (s.issue w o q).wbuf = s.wbuf := rfl
@[simp] theorem State.issue_wcap (w : CmdWord) (o : U64) (q : List HostEvent) : (s.issue w o q).wcap = s.wcap := rfl
@[simp] theorem State.issue_snk (w : CmdWord) (o : U64) (q : List HostEvent) : (s.issue w o q).snk = s.snk := rfl
@[simp] theorem State.issue_freeIdx (w : CmdWord) (o : U64) (q : List HostEvent) : (s.issue w o q).freeIdx = s.freeIdx := rfl

/-! ### State.nextFree -/

@[simp] theorem State.nextFree_cfg : s.nextFree.cfg = s.cfg := rfl
@[simp] theorem State.nextFree_env : s.nextFree.env = s.env := rfl
@[simp] theorem State.nextFree_pending : s.nextFree.pending = s.pending := rfl
@[simp] theorem State.nextFree_cmd : s.nextFree.cmd = s.cmd := rfl
@[simp] theorem State.nextFree_opnd : s.nextFree.opnd = s.opnd := rfl
@[simp] theorem State.nextFree_status : s.nextFree.status = s.status := rfl
@[simp] theorem State.nextFree_count : s.nextFree.count = s.count := rfl
@[simp] theorem State.nextFree_result : s.nextFree.result = s.result := rfl
@[simp] theorem State.nextFree_rpos : s.nextFree.rpos = s.rpos := rfl
@[simp] theorem State.nextFree_rpend : s.nextFree.rpend = s.rpend := rfl
@[simp] theorem State.nextFree_rpcnt : s.nextFree.rpcnt = s.rpcnt := rfl
@[simp] theorem State.nextFree_wpos : s.nextFree.wpos = s.wpos := rfl
@[simp] theorem State.nextFree_wpend : s.nextFree.wpend = s.wpend := rfl
@[simp] theorem State.nextFree_wpcnt : s.nextFree.wpcnt = s.wpcnt := rfl
@[simp] theorem State.nextFree_fault : s.nextFree.fault = s.fault := rfl
@[simp] theorem State.nextFree_fcause : s.nextFree.fcause = s.fcause := rfl
@[simp] theorem State.nextFree_rbuf : s.nextFree.rbuf = s.rbuf := rfl
@[simp] theorem State.nextFree_src : s.nextFree.src = s.src := rfl
@[simp] theorem State.nextFree_wbuf : s.nextFree.wbuf = s.wbuf := rfl
@[simp] theorem State.nextFree_wcap : s.nextFree.wcap = s.wcap := rfl
@[simp] theorem State.nextFree_snk : s.nextFree.snk = s.snk := rfl
@[simp] theorem State.nextFree_freeIdx : s.nextFree.freeIdx = s.freeIdx + 1 := rfl

/-! ### State.raise -/

@[simp] theorem State.raise_cfg (st : Status) : (s.raise st).cfg = s.cfg := rfl
@[simp] theorem State.raise_env (st : Status) : (s.raise st).env = s.env := rfl
@[simp] theorem State.raise_pending (st : Status) : (s.raise st).pending = s.pending := rfl
@[simp] theorem State.raise_cmd (st : Status) : (s.raise st).cmd = s.cmd := rfl
@[simp] theorem State.raise_opnd (st : Status) : (s.raise st).opnd = s.opnd := rfl
@[simp] theorem State.raise_status (st : Status) : (s.raise st).status = st := rfl
@[simp] theorem State.raise_count (st : Status) : (s.raise st).count = BitVec.ofNat 8 0 := rfl
@[simp] theorem State.raise_result (st : Status) : (s.raise st).result = 0 := rfl
@[simp] theorem State.raise_rpos (st : Status) : (s.raise st).rpos = s.rpos := rfl
@[simp] theorem State.raise_rpend (st : Status) : (s.raise st).rpend = s.rpend := rfl
@[simp] theorem State.raise_rpcnt (st : Status) : (s.raise st).rpcnt = s.rpcnt := rfl
@[simp] theorem State.raise_wpos (st : Status) : (s.raise st).wpos = s.wpos := rfl
@[simp] theorem State.raise_wpend (st : Status) : (s.raise st).wpend = s.wpend := rfl
@[simp] theorem State.raise_wpcnt (st : Status) : (s.raise st).wpcnt = s.wpcnt := rfl
@[simp] theorem State.raise_fault (st : Status) : (s.raise st).fault = true := rfl
@[simp] theorem State.raise_fcause (st : Status) : (s.raise st).fcause = st.code := rfl
@[simp] theorem State.raise_rbuf (st : Status) : (s.raise st).rbuf = s.rbuf := rfl
@[simp] theorem State.raise_src (st : Status) : (s.raise st).src = s.src := rfl
@[simp] theorem State.raise_wbuf (st : Status) : (s.raise st).wbuf = s.wbuf := rfl
@[simp] theorem State.raise_wcap (st : Status) : (s.raise st).wcap = s.wcap := rfl
@[simp] theorem State.raise_snk (st : Status) : (s.raise st).snk = s.snk := rfl
@[simp] theorem State.raise_freeIdx (st : Status) : (s.raise st).freeIdx = s.freeIdx := rfl

/-! ### State.refuseFaulted -/

@[simp] theorem State.refuseFaulted_cfg : s.refuseFaulted.cfg = s.cfg := rfl
@[simp] theorem State.refuseFaulted_env : s.refuseFaulted.env = s.env := rfl
@[simp] theorem State.refuseFaulted_pending : s.refuseFaulted.pending = s.pending := rfl
@[simp] theorem State.refuseFaulted_cmd : s.refuseFaulted.cmd = s.cmd := rfl
@[simp] theorem State.refuseFaulted_opnd : s.refuseFaulted.opnd = s.opnd := rfl
@[simp] theorem State.refuseFaulted_status : s.refuseFaulted.status = .faulted := rfl
@[simp] theorem State.refuseFaulted_count : s.refuseFaulted.count = BitVec.ofNat 8 0 := rfl
@[simp] theorem State.refuseFaulted_result : s.refuseFaulted.result = 0 := rfl
@[simp] theorem State.refuseFaulted_rpos : s.refuseFaulted.rpos = s.rpos := rfl
@[simp] theorem State.refuseFaulted_rpend : s.refuseFaulted.rpend = s.rpend := rfl
@[simp] theorem State.refuseFaulted_rpcnt : s.refuseFaulted.rpcnt = s.rpcnt := rfl
@[simp] theorem State.refuseFaulted_wpos : s.refuseFaulted.wpos = s.wpos := rfl
@[simp] theorem State.refuseFaulted_wpend : s.refuseFaulted.wpend = s.wpend := rfl
@[simp] theorem State.refuseFaulted_wpcnt : s.refuseFaulted.wpcnt = s.wpcnt := rfl
@[simp] theorem State.refuseFaulted_fault : s.refuseFaulted.fault = s.fault := rfl
@[simp] theorem State.refuseFaulted_fcause : s.refuseFaulted.fcause = s.fcause := rfl
@[simp] theorem State.refuseFaulted_rbuf : s.refuseFaulted.rbuf = s.rbuf := rfl
@[simp] theorem State.refuseFaulted_src : s.refuseFaulted.src = s.src := rfl
@[simp] theorem State.refuseFaulted_wbuf : s.refuseFaulted.wbuf = s.wbuf := rfl
@[simp] theorem State.refuseFaulted_wcap : s.refuseFaulted.wcap = s.wcap := rfl
@[simp] theorem State.refuseFaulted_snk : s.refuseFaulted.snk = s.snk := rfl
@[simp] theorem State.refuseFaulted_freeIdx : s.refuseFaulted.freeIdx = s.freeIdx := rfl

/-! ### State.load -/

@[simp] theorem State.load_cfg : s.load.cfg = s.cfg := rfl
@[simp] theorem State.load_env : s.load.env = s.env := rfl
@[simp] theorem State.load_pending : s.load.pending = s.pending := rfl
@[simp] theorem State.load_cmd : s.load.cmd = 0 := rfl
@[simp] theorem State.load_opnd : s.load.opnd = 0 := rfl
@[simp] theorem State.load_status : s.load.status = .ok := rfl
@[simp] theorem State.load_count : s.load.count = 0 := rfl
@[simp] theorem State.load_result : s.load.result = 0 := rfl
@[simp] theorem State.load_rpos : s.load.rpos = BitVec.ofNat 64 s.cfg.rposInit := rfl
@[simp] theorem State.load_rpend : s.load.rpend = s.cfg.rpendInit := rfl
@[simp] theorem State.load_rpcnt : s.load.rpcnt = BitVec.ofNat 3 (if s.cfg.rvar = .stream then s.cfg.rposInit % 8 else 0) := rfl
@[simp] theorem State.load_wpos : s.load.wpos = BitVec.ofNat 64 s.cfg.wposInit := rfl
@[simp] theorem State.load_wpend : s.load.wpend = s.cfg.wpendInit := rfl
@[simp] theorem State.load_wpcnt : s.load.wpcnt = BitVec.ofNat 3 (if s.cfg.wvar = .stream then s.cfg.wposInit % 8 else 0) := rfl
@[simp] theorem State.load_fault : s.load.fault = false := rfl
@[simp] theorem State.load_fcause : s.load.fcause = 0 := rfl
@[simp] theorem State.load_rbuf : s.load.rbuf = s.rbuf := rfl
@[simp] theorem State.load_src : s.load.src = s.src := rfl
@[simp] theorem State.load_wbuf : s.load.wbuf = s.wbuf := rfl
@[simp] theorem State.load_wcap : s.load.wcap = s.cfg.wcap0 := rfl
@[simp] theorem State.load_snk : s.load.snk = [] := rfl
@[simp] theorem State.load_freeIdx : s.load.freeIdx = s.freeIdx := rfl

/-! ### State.bind -/

@[simp] theorem State.bind_cfg (b : Binding) : (s.bind b).cfg = b.cfg := rfl
@[simp] theorem State.bind_env (b : Binding) : (s.bind b).env = b.env := rfl
@[simp] theorem State.bind_pending (b : Binding) : (s.bind b).pending = s.pending := rfl
@[simp] theorem State.bind_cmd (b : Binding) : (s.bind b).cmd = s.cmd := rfl
@[simp] theorem State.bind_opnd (b : Binding) : (s.bind b).opnd = s.opnd := rfl
@[simp] theorem State.bind_status (b : Binding) : (s.bind b).status = s.status := rfl
@[simp] theorem State.bind_count (b : Binding) : (s.bind b).count = s.count := rfl
@[simp] theorem State.bind_result (b : Binding) : (s.bind b).result = s.result := rfl
@[simp] theorem State.bind_rpos (b : Binding) : (s.bind b).rpos = s.rpos := rfl
@[simp] theorem State.bind_rpend (b : Binding) : (s.bind b).rpend = s.rpend := rfl
@[simp] theorem State.bind_rpcnt (b : Binding) : (s.bind b).rpcnt = s.rpcnt := rfl
@[simp] theorem State.bind_wpos (b : Binding) : (s.bind b).wpos = s.wpos := rfl
@[simp] theorem State.bind_wpend (b : Binding) : (s.bind b).wpend = s.wpend := rfl
@[simp] theorem State.bind_wpcnt (b : Binding) : (s.bind b).wpcnt = s.wpcnt := rfl
@[simp] theorem State.bind_fault (b : Binding) : (s.bind b).fault = s.fault := rfl
@[simp] theorem State.bind_fcause (b : Binding) : (s.bind b).fcause = s.fcause := rfl
@[simp] theorem State.bind_rbuf (b : Binding) : (s.bind b).rbuf = b.rbuf := rfl
@[simp] theorem State.bind_src (b : Binding) : (s.bind b).src = b.src := rfl
@[simp] theorem State.bind_wbuf (b : Binding) : (s.bind b).wbuf = b.wbuf := rfl
@[simp] theorem State.bind_wcap (b : Binding) : (s.bind b).wcap = s.wcap := rfl
@[simp] theorem State.bind_snk (b : Binding) : (s.bind b).snk = s.snk := rfl
@[simp] theorem State.bind_freeIdx (b : Binding) : (s.bind b).freeIdx = s.freeIdx := rfl

end Sys2Proof.Machine
end

