-- ==== Sys2Proof/Laws/Ports.lean ====
section
/-! SUPPORT. What the shared operations of Machine/Ops.lean can do, each said once: the checks before a command's own rule,
reset, and the store ports. -/

namespace Sys2Proof.Machine

/-! ### The checks of R198 -/

/-- With FAULT clear and every check passed, a command is its own rule. -/
theorem command_own {own : State → Result} {s : State} (hf : s.fault = false) :
    command true true false own s = own s := by simp [command, hf]

theorem command_faulted (a c o : Bool) (own : State → Result) {s : State} (hf : s.fault = true) :
    command a c o own s = .next s.refuseFaulted := by simp [command, hf]

/-- Everything a command can answer (R198). -/
theorem command_cases (a c o : Bool) (own : State → Result) (s : State) :
    (s.fault = true ∧ command a c o own s = .next s.refuseFaulted) ∨
    (s.fault = false ∧ a = false ∧ command a c o own s = .next (s.raise .illegal)) ∨
    (s.fault = false ∧ a = true ∧ c = false ∧ command a c o own s = .next (s.raise .precond)) ∨
    (s.fault = false ∧ a = true ∧ c = true ∧ o = true ∧ command a c o own s = .next (s.raise .posovf)) ∨
    (s.fault = false ∧ a = true ∧ c = true ∧ o = false ∧ command a c o own s = own s) := by
  cases hf : s.fault <;> cases a <;> cases c <;> cases o <;> simp [command, hf]

/-- A word that matches no row: FAULTED or ILLEGAL (R196, R194). -/
theorem illegalWord_cases (s : State) :
    (s.fault = true ∧ illegalWord s = s.refuseFaulted) ∨ (s.fault = false ∧ illegalWord s = s.raise .illegal) := by
  cases hf : s.fault <;> simp [illegalWord, hf]

/-! ### Reset -/

theorem hardwareReset_next {s t : State} (h : hardwareReset s = .next t) : Params.valid s.cfg = true ∧ t = s.load := by
  unfold hardwareReset at h
  split at h
  · rename_i hv
    exact ⟨hv, by cases h; rfl⟩
  · cases h

theorem rebindAndReset_next {b : Binding} {s t : State} (h : rebindAndReset b s = .next t) :
    b.valid = true ∧ t = (s.bind b).load := by
  unfold rebindAndReset at h
  split at h
  · rename_i hv
    exact ⟨hv, by cases h; rfl⟩
  · cases h

/-- What R222 says, read off the check. -/
theorem Params.valid_iff (c : Params) : Params.valid c = true ↔
    (c.rlen ≤ maxBytes ∧ c.wcap0 ≤ maxBytes) ∧ (c.rposInit < 2 ^ 64 ∧ c.wposInit < 2 ^ 64) ∧
    (c.rvar = .buffer → c.rposInit ≤ 8 * c.rlen ∧ c.rpendInit = 0) ∧
    (c.wvar ≠ .stream → c.wposInit ≤ 8 * c.wcap0 ∧ c.wpendInit = 0) ∧
    (c.rvar = .stream → c.rposInit % 8 = 0 → c.rpendInit = 0) ∧
    (c.wvar = .stream → c.wpendInit &&& (0xFF - topMask (c.wposInit % 8)) = 0) := by
  simp only [Params.valid, Bool.and_eq_true, decide_eq_true_eq, and_assoc]

/-! ### Store ports -/

@[simp] theorem State.setSource_self (s : State) : s.setSource s.src s.env.pulls = s := rfl

@[simp] theorem State.setSink_self (s : State) : s.setSink s.snk s.env.accepts = s := rfl

@[simp] theorem State.setGrown_self (s : State) : s.setGrown s.wcap s.wbuf s.env.grows = s := rfl

theorem memReadR_ok {s : State} {i : Nat} (h : i < s.cfg.rlen) : memReadR s i = .ok (Memory.read s.rbuf i) := by
  simp [memReadR, h]

theorem memReadW_ok {s : State} {i : Nat} (h : i < s.wcap) : memReadW s i = .ok (Memory.read s.wbuf i) := by
  simp [memReadW, h]

theorem memWriteW_ok {s : State} {i : Nat} (b : Byte) (h : i < s.wcap) :
    memWriteW s i b = .ok (s.setWbuf (Memory.write s.wbuf i b)) := by
  simp [memWriteW, h]

/-- A pull delivers the next byte of SRC, or answers `Exhausted` because the source says so or has no byte, and leaves SRC
alone; either way the answer is used up (R53). -/
theorem srcPull_cases (s : State) :
    ((sourceAnswers s 0 = false ∨ s.src.head Config.endlessByte = none) ∧
      srcPull s = (none, s.setSource s.src s.env.pulls.rest)) ∨
    (∃ b, sourceAnswers s 0 = true ∧ s.src.head Config.endlessByte = some b ∧
      srcPull s = (some b, s.setSource s.src.rest s.env.pulls.rest)) := by
  unfold srcPull deliver sourceAnswers
  simp only [Feed.skip_zero]
  cases hp : s.env.pulls.head Config.endlessPull with
  | none => cases hs : s.src.head Config.endlessByte <;> simp
  | some p => cases p <;> cases hs : s.src.head Config.endlessByte <;> simp

/-- After a pull the source's answers are the ones after it. -/
theorem sourceAnswers_skip {s t : State} {p : Nat} (h : t.env.pulls = s.env.pulls.skip p) (j : Nat) :
    sourceAnswers t j = sourceAnswers s (p + j) := by
  unfold sourceAnswers
  rw [h, Feed.skip_skip]

/-- A push appends its byte, or is refused and appends nothing; either way the answer is used up (R56). -/
theorem snkPush_cases (b : Byte) (s : State) :
    (sinkAccepts s 0 = false ∧ snkPush b s = (false, s.setSink s.snk s.env.accepts.rest)) ∨
    (sinkAccepts s 0 = true ∧ snkPush b s = (true, s.setSink (s.snk ++ [b]) s.env.accepts.rest)) := by
  unfold snkPush sinkAccepts
  simp only [Feed.skip_zero, Nat.add_zero]
  cases (s.env.accepts.head Config.endlessPush).getD (belowLimit s.env.sinkMax s.snk.length) <;> simp

/-- After `p` accepted pushes the sink's answers are the ones after them (R56, R57). -/
theorem sinkAccepts_skip {s t : State} {p : Nat} (h : t.env.accepts = s.env.accepts.skip p)
    (hm : t.env.sinkMax = s.env.sinkMax) (hl : t.snk.length = s.snk.length + p) (j : Nat) :
    sinkAccepts t j = sinkAccepts s (p + j) := by
  unfold sinkAccepts
  rw [h, Feed.skip_skip, hm, hl, Nat.add_assoc]

/-- A growth refuses and changes nothing but the store's coming answers, or grows by at least m, at most up to the limit of
R222, and leaves every old byte alone (R55). -/
theorem growEnsure_cases (m : Nat) (s : State) :
    (∃ q, growEnsure m s = (false, s.setGrown s.wcap s.wbuf q) ∧ GrowWilling s (s.wcap + m) = false) ∨
    (∃ cap mem q, growEnsure m s = (true, s.setGrown cap mem q) ∧ s.wcap + m ≤ cap ∧ cap ≤ max (s.wcap + m) maxBytes ∧
      (∀ a, a < s.wcap → Memory.read mem a = Memory.read s.wbuf a) ∧
      (Memory.wf s.wbuf = true → Memory.wf mem = true)) := by
  unfold growEnsure GrowWilling
  cases hg : s.env.grows.head Config.endlessGrow with
  | none =>
    simp only
    split
    · exact .inr ⟨s.wcap + m, s.wbuf, _, rfl, le_refl _, le_max_left _ _, fun _ _ => rfl, id⟩
    · rename_i hn
      exact .inl ⟨_, rfl, by simpa using hn⟩
  | some g =>
    cases g with
    | fail => exact .inl ⟨_, rfl, rfl⟩
    | ok extra cells =>
      refine .inr ⟨_, _, _, rfl, le_max_left _ _, ?_, fun a ha => ?_, fun hw => ?_⟩
      · exact max_le_max (le_refl _) (min_le_right _ _)
      · exact Memory.read_fill_outside _ _ (.inl ha)
      · exact Memory.wf_fill _ _ _ hw

end Sys2Proof.Machine
end

