-- ==== Sys2Proof/Laws/Reader.lean ====
section
/-! SUPPORT. What the reader's shared operations can do, each said once in terms of the bits to come (R62, R63, R66, R136,
R137). -/

namespace Sys2Proof.Machine

theorem State.toNat_rpos_lt (s : State) : s.rpos.toNat < 2 ^ 64 := s.rpos.isLt

theorem OnlyReaderMoved.refl (s : State) : OnlyReaderMoved s s := rfl

theorem OnlyReaderMoved.trans {s t u : State} (h1 : OnlyReaderMoved s t) (h2 : OnlyReaderMoved t u) :
    OnlyReaderMoved s u := by
  unfold OnlyReaderMoved at *
  rw [h2, h1]

theorem OnlyReaderMoved.cfg_eq {s t : State} (h : OnlyReaderMoved s t) : t.cfg = s.cfg := by rw [h]

theorem onlyReaderMoved_setSource (s : State) (l : Feed Byte) (q : Feed Bool) : OnlyReaderMoved s (s.setSource l q) := rfl

theorem onlyReaderMoved_setReader (s : State) (p : Nat) (b : Byte) (c : Nat) : OnlyReaderMoved s (s.setReader p b c) := rfl

theorem onlyReaderMoved_setRpos (s : State) (p : Nat) : OnlyReaderMoved s (s.setRpos p) := rfl

theorem onlyReaderMoved_respond (s : State) (st : Status) (c : Nat) (r : U64) :
    OnlyReaderMoved s (s.respond st c r) := rfl

/-- The bytes behind a left-justified chunk: its first n bits, then zeros. -/
def chunkBits (bits : List Bool) (n : Nat) : List Bool := bits.take n ++ List.replicate (8 - n) false

/-- A byte is known by its eight stream bits. -/
theorem byteBits_injective {b b' : Byte} (h : byteBits b = byteBits b') : b = b' := by
  apply BitVec.eq_of_getLsbD_eq
  intro i hi
  have h1 : 7 - i < (byteBits b).length := by simp; omega
  have h2 : 7 - i < (byteBits b').length := by simp; omega
  have := List.getElem_of_eq h h1
  rw [byteBits_getElem, byteBits_getElem] at this
  have h7 : 7 - (7 - i) = i := by omega
  rwa [h7] at this

/-- The bits of a masked byte (R63, first case). -/
theorem byteBits_and_topMask {b : Byte} {n : Nat} (hn : n ≤ 8) :
    byteBits (b &&& topMask n) = chunkBits (byteBits b) n := by
  apply List.ext_getElem
  · simp [chunkBits]
    omega
  · intro t h1 h2
    have ht : t < 8 := by simpa using h1
    rw [byteBits_getElem, BitVec.getLsbD_and, topMask_getLsbD hn (by omega)]
    simp only [chunkBits, List.getElem_append, List.length_take, byteBits_length, List.getElem_take, byteBits_getElem,
      List.getElem_replicate]
    by_cases h : t < n
    · have h8 : 8 ≤ n + (7 - t) := by omega
      have hm : t < min n 8 := by omega
      simp [h8, hm]
    · have h8 : ¬ 8 ≤ n + (7 - t) := by omega
      have hm : ¬ t < min n 8 := by omega
      simp [h8, hm]

/-- The bits of a window: n bits from offset k of the two bytes (R60). -/
theorem byteBits_readWindow {b0 b1 : Byte} {k n : Nat} (hk : k ≤ 7) (hn : n ≤ 8) :
    byteBits (readWindow b0 b1 k n) = chunkBits ((byteBits b0 ++ byteBits b1).drop k) n := by
  apply List.ext_getElem
  · simp [chunkBits]
    omega
  · intro t h1 h2
    have ht : t < 8 := by simpa using h1
    rw [byteBits_getElem, readWindow_getLsbD hk hn (by omega)]
    simp only [chunkBits, List.getElem_append, List.length_take, List.length_drop, List.length_append, byteBits_length,
      List.getElem_take, List.getElem_drop, byteBits_getElem, List.getElem_replicate]
    by_cases h : t < n
    · have h8 : 8 ≤ n + (7 - t) := by omega
      have hm : t < min n (8 + 8 - k) := by omega
      simp only [h8, hm, decide_true, Bool.and_true, dite_true]
      by_cases hkt : k + t < 8
      · have h3 : k ≤ 7 - t := by omega
        have h4 : 7 - t - k = 7 - (k + t) := by omega
        simp [hkt, h3, h4]
      · have h3 : ¬ k ≤ 7 - t := by omega
        have h4 : 8 + (7 - t) - k = 7 - (k + t - 8) := by omega
        simp [hkt, h3, h4]
    · have h8 : ¬ 8 ≤ n + (7 - t) := by omega
      have hm : ¬ t < min n (8 + 8 - k) := by omega
      simp [h8, hm]

/-- The eight bits of byte i of a store. -/
theorem byteBits_read (m : Memory) (i : Nat) : byteBits (Memory.read m i) = bitsAt m (8 * i) 8 := by
  apply List.ext_getElem
  · simp
  · intro t h1 h2
    have ht : t < 8 := by simpa using h1
    have h3 : (8 * i + t) / 8 = i := by omega
    have h4 : (8 * i + t) % 8 = t := by omega
    simp [bitAt, h3, h4]

/-- Bits of a range from an offset on. -/
theorem bitsAt_drop (m : Memory) (p n k : Nat) : (bitsAt m p n).drop k = bitsAt m (p + k) (n - k) := by
  apply List.ext_getElem
  · simp
  · intro t h1 h2
    simp [Nat.add_assoc]

theorem bitsAt_take (m : Memory) (p n k : Nat) (h : k ≤ n) : (bitsAt m p n).take k = bitsAt m p k := by
  apply List.ext_getElem
  · simp [h]
  · intro t h1 h2
    simp

/-- RBufChunk delivers the n bits at RPOS and advances RPOS by n (R62, R66 item 1). -/
theorem rBufChunk_spec {n : Nat} {s : State} (h1 : 1 ≤ n) (h8 : n ≤ 8) (hb : s.rpos.toNat + n ≤ 8 * s.cfg.rlen) :
    ∃ out, rBufChunk n s = .ok (out, s.setRpos (s.rpos.toNat + n)) ∧
      byteBits out = chunkBits (bitsAt s.rbuf s.rpos.toNat n) n := by
  have hi : byteIndex s.rpos.toNat < s.cfg.rlen := by unfold byteIndex; omega
  have hk : bitOffset s.rpos.toNat ≤ 7 := by unfold bitOffset; omega
  unfold rBufChunk
  simp only [memReadR_ok hi]
  by_cases hc : crosses s.rpos.toNat n = true
  · have hi1 : byteIndex s.rpos.toNat + 1 < s.cfg.rlen := by
      have hc' : 8 < bitOffset s.rpos.toNat + n := by simpa [crosses] using hc
      unfold bitOffset at hc'
      unfold byteIndex
      omega
    simp only [hc, if_true, memReadR_ok hi1]
    refine ⟨_, rfl, ?_⟩
    rw [byteBits_readWindow hk h8, byteBits_read, byteBits_read]
    have : 8 * (byteIndex s.rpos.toNat + 1) = 8 * byteIndex s.rpos.toNat + 8 := by omega
    rw [this, ← bitsAt_add, bitsAt_drop]
    have hp : 8 * byteIndex s.rpos.toNat + bitOffset s.rpos.toNat = s.rpos.toNat := by
      unfold byteIndex bitOffset; omega
    rw [hp]
    unfold chunkBits
    rw [bitsAt_take _ _ _ _ (by omega), bitsAt_take _ _ _ _ (le_refl _)]
  · have hf : crosses s.rpos.toNat n = false := by simpa using hc
    simp only [hf, Bool.false_eq_true, if_false]
    refine ⟨_, rfl, ?_⟩
    rw [byteBits_readWindow hk h8, byteBits_read]
    simp only [crosses, decide_eq_false_iff_not, not_lt] at hf
    have hp : 8 * byteIndex s.rpos.toNat + bitOffset s.rpos.toNat = s.rpos.toNat := by
      unfold byteIndex bitOffset; omega
    unfold chunkBits
    rw [List.drop_append_of_le_length (by simp; omega), bitsAt_drop, hp,
      List.take_append_of_le_length (by simp; omega), bitsAt_take _ _ _ _ (by omega), bitsAt_take _ _ _ _ (le_refl _)]

/-! ### The bits to come -/

/-- The unread bits of the reader's pending byte (R25). -/
def pendingBits (s : State) : List Bool := if s.rpcnt = 0 then [] else (byteBits s.rpend).drop s.rpcnt.toNat

/-- The bits of a source's next `a` bytes. -/
def sourceBits (f : Feed Byte) (a : Nat) : List Bool := (f.take Config.endlessByte a).flatMap byteBits

theorem length_flatMap_byteBits (l : List Byte) : (l.flatMap byteBits).length = 8 * l.length := by
  induction l with
  | nil => rfl
  | cons b l ih =>
    simp only [List.flatMap_cons, List.length_append, byteBits_length, ih, List.length_cons]
    omega

/-- The next byte's bits come first. -/
theorem sourceBits_succ {f : Feed Byte} {b : Byte} (h : f.head Config.endlessByte = some b) (a : Nat) :
    sourceBits f (a + 1) = byteBits b ++ sourceBits f.rest a := by
  unfold sourceBits
  rw [Feed.take_succ_of_head h, List.flatMap_cons]

theorem sourceBits_ended {f : Feed Byte} (h : f.head Config.endlessByte = none) (a : Nat) : sourceBits f a = [] := by
  unfold sourceBits
  rw [Feed.take_of_head_none h, List.flatMap_nil]

/-- Looking at more bytes than `h` bits need shows the same first `h` bits. -/
theorem take_sourceBits_add (f : Feed Byte) {h a : Nat} (ha : h ≤ 8 * a) (d : Nat) :
    (sourceBits f (a + d)).take h = (sourceBits f a).take h := by
  unfold sourceBits
  by_cases hs : (f.take Config.endlessByte a).length < a
  · rw [Feed.take_add_of_short hs]
  · have hl := Feed.length_take_le Config.endlessByte f a
    rw [Feed.take_add, List.flatMap_append, List.take_append_of_le_length (by rw [length_flatMap_byteBits]; omega)]

/-- A stream reader's bits to come: its pending bits, then those of as many bytes as they can reach into (R25, R51). -/
theorem unreadBits_stream {s : State} (hv : s.cfg.rvar = .stream) {h a : Nat} (ha : h ≤ 8 * a) :
    unreadBits h s = (pendingBits s ++ sourceBits s.src a).take h := by
  have hu : unreadBits h s = (pendingBits s ++ sourceBits s.src h).take h := by
    simp only [unreadBits, hv]
    rfl
  rw [hu, List.take_append, List.take_append]
  congr 1
  have h1 := take_sourceBits_add s.src (h := h - (pendingBits s).length) (a := h) (by omega) a
  have h2 := take_sourceBits_add s.src (h := h - (pendingBits s).length) (a := a) (by omega) h
  rw [← h1, ← h2, Nat.add_comm]

theorem unreadBits_buffer {s : State} (hv : s.cfg.rvar = .buffer) (h : Nat) :
    unreadBits h s = bitsAt s.rbuf s.rpos.toNat (min h (8 * s.cfg.rlen - s.rpos.toNat)) := by
  simp only [unreadBits, hv]

/-- A shorter look at the bits to come is the start of a longer one. -/
theorem take_unreadBits (s : State) {a b : Nat} (hab : b ≤ a) : (unreadBits a s).take b = unreadBits b s := by
  cases hv : s.cfg.rvar with
  | stream =>
    rw [unreadBits_stream hv (a := a) (by omega), unreadBits_stream hv (h := b) (a := a) (by omega), List.take_take,
      min_eq_left hab]
  | buffer =>
    rw [unreadBits_buffer hv, unreadBits_buffer hv]
    apply List.ext_getElem
    · simp
      omega
    · intro t h1 h2
      simp

theorem length_unreadBits_le (h : Nat) (s : State) : (unreadBits h s).length ≤ h := by
  cases hv : s.cfg.rvar with
  | stream =>
    rw [unreadBits_stream hv (a := h) (by omega), List.length_take]
    omega
  | buffer =>
    rw [unreadBits_buffer hv, bitsAt_length]
    omega

/-- The bits to come are the first `a`, then those after them. -/
theorem unreadBits_add (a b : Nat) (s : State) : unreadBits (a + b) s = unreadBits a s ++ (unreadBits (a + b) s).drop a := by
  conv_lhs => rw [← List.take_append_drop a (unreadBits (a + b) s)]
  rw [take_unreadBits s (by omega)]

/-- Too few bits for a request are too few for a longer one. -/
theorem length_unreadBits_of_short {s : State} {a b : Nat} (hab : a ≤ b) (h : (unreadBits a s).length < a) :
    (unreadBits b s).length = (unreadBits a s).length := by
  have := congrArg List.length (take_unreadBits s hab)
  rw [List.length_take] at this
  omega

/-- How many pulls a request of whole bytes and then r more bits takes (R63). -/
theorem pullsNeeded_add_eight (c r : Nat) : pullsNeeded c (8 + r) = 1 + pullsNeeded c r := by
  unfold pullsNeeded ceil8
  omega

/-- A chunk takes one pull or none (R63). -/
theorem pullsNeeded_chunk {c n : Nat} (hc : c < 8) (h1 : 1 ≤ n) (h8 : n ≤ 8) :
    pullsNeeded c n = if c = 0 ∨ 8 < c + n then 1 else 0 := by
  unfold pullsNeeded ceil8
  split <;> omega

/-! ### A chunk -/

/-- What a chunk that succeeds does: it takes the next n bits to come, advances RPOS by n, on a stream pulls exactly what it
needs, and changes nothing but the reader's own (R62, R63, R136). -/
structure ReaderTook (s : State) (n : Nat) (out : Byte) (t : State) : Prop where
  enough : (unreadBits n s).length = n
  bits   : byteBits out = chunkBits (unreadBits n s) n
  rest   : ∀ h, unreadBits h t = (unreadBits (n + h) s).drop n
  pos    : t.rpos = BitVec.ofNat 64 (s.rpos.toNat + n)
  pulled : s.cfg.rvar = .stream → (∀ j, j < pullsNeeded s.rpcnt.toNat n → sourceAnswers s j = true) ∧
    t.src = s.src.skip (pullsNeeded s.rpcnt.toNat n) ∧ t.env.pulls = s.env.pulls.skip (pullsNeeded s.rpcnt.toNat n)
  cnt    : s.cfg.rvar = .stream → t.rpcnt.toNat = (s.rpcnt.toNat + n) % 8
  pend   : (s.rpcnt = 0 → s.rpend = 0) → t.rpcnt = 0 → t.rpend = 0
  kept   : BufferReaderKept s t
  free   : t.freeIdx = s.freeIdx
  only   : OnlyReaderMoved s t

theorem toNat_ofNat3 {c : Nat} (h : c < 8) : (BitVec.ofNat 3 c).toNat = c := by
  rw [BitVec.toNat_ofNat]
  exact Nat.mod_eq_of_lt h

theorem ofNat3_eq_zero_iff {c : Nat} (h : c < 8) : BitVec.ofNat 3 c = 0 ↔ c = 0 := by
  rw [← BitVec.toNat_inj, toNat_ofNat3 h]
  simp

theorem eq_zero_iff_toNat {w : Nat} (c : BitVec w) : c = 0 ↔ c.toNat = 0 := by
  rw [← BitVec.toNat_inj]
  simp

/-- The parts of `ReaderTook` about bits, for a stream chunk: from the pending bits followed by those of the source, looked at
one byte further than the bits that stay to come need. -/
theorem streamTook_bits {s t : State} {n : Nat} {out : Byte} (hv : s.cfg.rvar = .stream) (hvt : t.cfg.rvar = .stream)
    (h8 : n ≤ 8) (hlen : ∀ h, n ≤ (pendingBits s ++ sourceBits s.src (h + 1)).length)
    (hout : byteBits out = chunkBits (pendingBits s ++ sourceBits s.src 1) n)
    (hrest : ∀ h, ((pendingBits s ++ sourceBits s.src (h + 1)).drop n).take h = (pendingBits t ++ sourceBits t.src h).take h) :
    (unreadBits n s).length = n ∧ byteBits out = chunkBits (unreadBits n s) n ∧
      ∀ h, unreadBits h t = (unreadBits (n + h) s).drop n := by
  have hn : unreadBits n s = (pendingBits s ++ sourceBits s.src 1).take n := unreadBits_stream hv (by omega)
  refine ⟨?_, ?_, fun h => ?_⟩
  · have : n ≤ (pendingBits s ++ sourceBits s.src 1).length := hlen 0
    rw [hn, List.length_take]
    omega
  · rw [hout, hn]
    unfold chunkBits
    rw [List.take_take, min_self]
  · rw [unreadBits_stream hvt (h := h) (a := h) (by omega), unreadBits_stream hv (h := n + h) (a := h + 1) (by omega),
      ← hrest, List.drop_take]
    congr 1
    omega

/-- RStreamChunk takes the next n bits; or its one pull answers `Exhausted`, and it answers None, takes nothing and leaves
all but the source's coming answers alone (R53, R63, R66 item 2). -/
theorem rStreamChunk_spec {n : Nat} {s : State} (hv : s.cfg.rvar = .stream) (h1 : 1 ≤ n) (h8 : n ≤ 8) :
    (rStreamChunk n s = (none, s.setSource s.src s.env.pulls.rest) ∧ pullsNeeded s.rpcnt.toNat n = 1 ∧
      (sourceAnswers s 0 = false ∨ s.src.head Config.endlessByte = none) ∧
      (s.src.head Config.endlessByte = none → (unreadBits n s).length < n)) ∨
    (∃ out t, rStreamChunk n s = (some out, t) ∧ ReaderTook s n out t) := by
  have hc8 : s.rpcnt.toNat < 8 := s.rpcnt.isLt
  have hneed := pullsNeeded_chunk hc8 h1 h8
  unfold rStreamChunk
  simp only
  by_cases hc0 : s.rpcnt.toNat = 0
  · have hz : s.rpcnt = 0 := (eq_zero_iff_toNat _).2 hc0
    have hpb : pendingBits s = [] := by simp [pendingBits, hz]
    rw [if_pos (.inl hc0)] at hneed
    simp only [hc0, if_true]
    rw [hc0] at hneed
    rcases srcPull_cases s with ⟨hw, hp⟩ | ⟨b, hw, hs, hp⟩
    · refine .inl ⟨by rw [hp], hneed, hw, fun h => ?_⟩
      rw [unreadBits_stream hv (a := 1) (by omega), hpb, sourceBits_ended h]
      simp
      omega
    · rw [hp]
      simp only
      refine .inr ⟨_, _, rfl, ?_⟩
      have hpull : (∀ j, j < pullsNeeded s.rpcnt.toNat n → sourceAnswers s j = true) ∧
          s.src.rest = s.src.skip (pullsNeeded s.rpcnt.toNat n) ∧
          s.env.pulls.rest = s.env.pulls.skip (pullsNeeded s.rpcnt.toNat n) := by
        rw [hc0, hneed]
        refine ⟨fun j hj => ?_, rfl, rfl⟩
        have : j = 0 := by omega
        rw [this]
        exact hw
      have hout : byteBits (b &&& topMask n) = chunkBits (pendingBits s ++ sourceBits s.src 1) n := by
        rw [byteBits_and_topMask h8, hpb, sourceBits_succ hs]
        unfold chunkBits
        rw [List.nil_append, List.take_append_of_le_length (by simp; omega)]
      have hlen : ∀ h, n ≤ (pendingBits s ++ sourceBits s.src (h + 1)).length := by
        intro h
        rw [sourceBits_succ hs]
        simp
        omega
      by_cases hn : n < 8
      · simp only [hn, if_true]
        have hne : ¬ BitVec.ofNat 3 n = 0 := by rw [ofNat3_eq_zero_iff hn]; omega
        obtain ⟨q1, q2, q3⟩ := streamTook_bits (t := (s.setSource s.src.rest s.env.pulls.rest).setReader (s.rpos.toNat + n) b n)
          hv hv h8 hlen hout (fun h => by
            rw [hpb, sourceBits_succ hs]
            simp only [List.nil_append, pendingBits, State.setReader_rpcnt, hne, if_false, State.setReader_rpend,
              toNat_ofNat3 hn, State.setReader_src, State.setSource_src]
            rw [List.drop_append_of_le_length (by simp; omega)])
        refine ⟨q1, q2, q3, rfl, fun _ => hpull, fun _ => ?_, fun _ h => absurd h hne,
          (fun h => by simp [hv] at h), rfl, rfl⟩
        rw [State.setReader_rpcnt, toNat_ofNat3 hn]
        omega
      · have hn8 : n = 8 := by omega
        subst hn8
        simp only [lt_irrefl, if_false]
        obtain ⟨q1, q2, q3⟩ := streamTook_bits (t := (s.setSource s.src.rest s.env.pulls.rest).setRpos (s.rpos.toNat + 8))
          hv hv h8 hlen hout (fun h => by
            rw [hpb, sourceBits_succ hs]
            simp [pendingBits, hz])
        refine ⟨q1, q2, q3, rfl, fun _ => hpull, fun _ => ?_, fun h _ => h hz, (fun h => by simp [hv] at h), rfl, rfl⟩
        simp only [State.setRpos_rpcnt, State.setSource_rpcnt]
        omega
  · have hz : ¬ s.rpcnt = 0 := fun h => hc0 ((eq_zero_iff_toNat _).1 h)
    have hpb : pendingBits s = (byteBits s.rpend).drop s.rpcnt.toNat := by simp only [pendingBits, if_neg hz]
    simp only [hc0, if_false]
    by_cases hfit : n ≤ 8 - s.rpcnt.toNat
    · rw [if_neg (by omega)] at hneed
      simp only [hfit, if_true]
      refine .inr ⟨_, _, rfl, ?_⟩
      have hpull : (∀ j, j < pullsNeeded s.rpcnt.toNat n → sourceAnswers s j = true) ∧
          s.src = s.src.skip (pullsNeeded s.rpcnt.toNat n) ∧
          s.env.pulls = s.env.pulls.skip (pullsNeeded s.rpcnt.toNat n) := by
        rw [hneed]
        exact ⟨fun j hj => by omega, rfl, rfl⟩
      have hlen : ∀ h, n ≤ (pendingBits s ++ sourceBits s.src (h + 1)).length := by
        intro h
        rw [hpb]
        simp
        omega
      have hout : byteBits (readWindow s.rpend 0 s.rpcnt.toNat n) = chunkBits (pendingBits s ++ sourceBits s.src 1) n := by
        rw [byteBits_readWindow (by omega) h8, hpb]
        unfold chunkBits
        rw [List.drop_append_of_le_length (by simp; omega), List.take_append_of_le_length (by simp; omega),
          List.take_append_of_le_length (by simp; omega)]
      have hdrop : ∀ h, (pendingBits s ++ sourceBits s.src (h + 1)).drop n =
          (byteBits s.rpend).drop (s.rpcnt.toNat + n) ++ sourceBits s.src (h + 1) := by
        intro h
        rw [hpb, List.drop_append_of_le_length (by simp; omega), List.drop_drop]
      have hmore : ∀ (l : List Bool) h, (l ++ sourceBits s.src (h + 1)).take h = (l ++ sourceBits s.src h).take h := by
        intro l h
        rw [List.take_append, List.take_append, take_sourceBits_add _ (by omega)]
      by_cases he : s.rpcnt.toNat + n = 8
      · simp only [he, if_true]
        obtain ⟨q1, q2, q3⟩ := streamTook_bits (t := s.setReader (s.rpos.toNat + n) 0 0) hv hv h8 hlen hout (fun h => by
          rw [hdrop, hmore]
          congr 2
          rw [List.drop_eq_nil_of_le (by simp; omega)]
          simp [pendingBits])
        exact ⟨q1, q2, q3, rfl, fun _ => hpull, (fun _ => by rw [he]; rfl), fun _ _ => rfl, (fun h => by simp [hv] at h),
          rfl, rfl⟩
      · simp only [he, if_false]
        have hlt : s.rpcnt.toNat + n < 8 := by omega
        have hne : ¬ BitVec.ofNat 3 (s.rpcnt.toNat + n) = 0 := by rw [ofNat3_eq_zero_iff hlt]; omega
        obtain ⟨q1, q2, q3⟩ := streamTook_bits (t := s.setReader (s.rpos.toNat + n) s.rpend (s.rpcnt.toNat + n)) hv hv h8
          hlen hout (fun h => by
            rw [hdrop, hmore]
            simp only [pendingBits, State.setReader_rpcnt, hne, if_false, State.setReader_rpend, toNat_ofNat3 hlt,
              State.setReader_src])
        refine ⟨q1, q2, q3, rfl, fun _ => hpull, fun _ => ?_, fun _ h => absurd h hne, (fun h => by simp [hv] at h), rfl,
          rfl⟩
        rw [State.setReader_rpcnt, toNat_ofNat3 hlt]
        omega
    · rw [if_pos (by omega)] at hneed
      simp only [hfit, if_false]
      rcases srcPull_cases s with ⟨hw, hp⟩ | ⟨b, hw, hs, hp⟩
      · refine .inl ⟨by rw [hp], hneed, hw, fun h => ?_⟩
        rw [unreadBits_stream hv (a := 1) (by omega), hpb, sourceBits_ended h]
        simp
        omega
      · rw [hp]
        simp only
        refine .inr ⟨_, _, rfl, ?_⟩
        have hpull : (∀ j, j < pullsNeeded s.rpcnt.toNat n → sourceAnswers s j = true) ∧
            s.src.rest = s.src.skip (pullsNeeded s.rpcnt.toNat n) ∧
            s.env.pulls.rest = s.env.pulls.skip (pullsNeeded s.rpcnt.toNat n) := by
          rw [hneed]
          refine ⟨fun j hj => ?_, rfl, rfl⟩
          have : j = 0 := by omega
          rw [this]
          exact hw
        have hus : ∀ h, pendingBits s ++ sourceBits s.src (h + 1) =
            (byteBits s.rpend ++ byteBits b).drop s.rpcnt.toNat ++ sourceBits s.src.rest h := by
          intro h
          rw [hpb, sourceBits_succ hs, List.drop_append_of_le_length (by simp; omega), List.append_assoc]
        have hlt : s.rpcnt.toNat + n - 8 < 8 := by omega
        have hne : ¬ BitVec.ofNat 3 (s.rpcnt.toNat + n - 8) = 0 := by rw [ofNat3_eq_zero_iff hlt]; omega
        obtain ⟨q1, q2, q3⟩ := streamTook_bits (out := readWindow s.rpend b s.rpcnt.toNat n)
          (t := (s.setSource s.src.rest s.env.pulls.rest).setReader (s.rpos.toNat + n) b
            (s.rpcnt.toNat + n - 8)) hv hv h8
          (fun h => by rw [hus]; simp; omega)
          (by
            rw [byteBits_readWindow (by omega) h8, hus]
            unfold chunkBits
            rw [List.take_append_of_le_length (by simp; omega)])
          (fun h => by
            rw [hus, List.drop_append_of_le_length (by simp; omega), List.drop_drop, List.drop_append]
            have h0 : (byteBits s.rpend).drop (s.rpcnt.toNat + n) = [] := by
              apply List.drop_eq_nil_of_le
              simp
              omega
            rw [h0]
            simp only [pendingBits, State.setReader_rpcnt, hne, if_false, State.setReader_rpend, toNat_ofNat3 hlt,
              State.setReader_src, State.setSource_src, byteBits_length, List.nil_append])
        refine ⟨q1, q2, q3, rfl, fun _ => hpull, fun _ => ?_, fun _ h => absurd h hne, (fun h => by simp [hv] at h), rfl,
          rfl⟩
        rw [State.setReader_rpcnt, toNat_ofNat3 hlt]
        omega

/-- RChunk never meets a store's end: it takes the next bits, or answers None and takes nothing (R136, R52). -/
theorem rChunk_spec {n : Nat} {s : State} (h1 : 1 ≤ n) (h8 : n ≤ 8)
    (hr : s.cfg.rvar = .buffer → s.cfg.rlen ≤ maxBytes) :
    (s.cfg.rvar = .buffer ∧ rChunk n s = .ok (none, s) ∧ (unreadBits n s).length < n) ∨
    (s.cfg.rvar = .stream ∧ rChunk n s = .ok (none, s.setSource s.src s.env.pulls.rest) ∧
      pullsNeeded s.rpcnt.toNat n = 1 ∧ (sourceAnswers s 0 = false ∨ s.src.head Config.endlessByte = none) ∧
      (s.src.head Config.endlessByte = none → (unreadBits n s).length < n)) ∨
    (∃ out t, rChunk n s = .ok (some out, t) ∧ ReaderTook s n out t) := by
  unfold rChunk
  cases hv : s.cfg.rvar with
  | stream =>
    rcases rStreamChunk_spec hv h1 h8 with ⟨h, hw⟩ | ⟨out, t, h, ht⟩
    · exact .inr (.inl ⟨rfl, by simp only [h], hw⟩)
    · exact .inr (.inr ⟨out, t, by simp only [h], ht⟩)
  | buffer =>
    have hrl := hr hv
    simp only
    by_cases hb : 8 * s.cfg.rlen < s.rpos.toNat + n
    · refine .inl ⟨trivial, by simp [hb], ?_⟩
      rw [unreadBits_buffer hv, bitsAt_length]
      omega
    · simp only [hb, if_false]
      obtain ⟨out, hout, hbits⟩ := rBufChunk_spec h1 h8 (not_lt.1 hb)
      rw [hout]
      have hmin : min n (8 * s.cfg.rlen - s.rpos.toNat) = n := by omega
      refine .inr (.inr ⟨out, _, rfl, ?_, ?_, fun h => ?_, rfl, (fun h => by simp [hv] at h),
        (fun h => by simp [hv] at h), fun h => h, fun _ => ⟨rfl, rfl, rfl, rfl⟩, rfl, rfl⟩)
      · rw [unreadBits_buffer hv, bitsAt_length, hmin]
      · rw [hbits, unreadBits_buffer hv, hmin]
      · have hp : (BitVec.ofNat 64 (s.rpos.toNat + n)).toNat = s.rpos.toNat + n := by
          rw [BitVec.toNat_ofNat]
          apply Nat.mod_eq_of_lt
          unfold maxBytes at hrl
          omega
        have hvt : (s.setRpos (s.rpos.toNat + n)).cfg.rvar = .buffer := hv
        rw [unreadBits_buffer hvt, unreadBits_buffer hv, bitsAt_drop]
        simp only [State.setRpos_cfg, State.setRpos_rbuf, State.setRpos_rpos, hp]
        congr 1
        omega

/-- RChunk never faults, in any state at all (R52). -/
theorem rChunk_ne_error (n : Nat) (s : State) (h1 : 1 ≤ n) (h8 : n ≤ 8) : ∃ r, rChunk n s = .ok r := by
  unfold rChunk
  cases hv : s.cfg.rvar with
  | stream => exact ⟨_, rfl⟩
  | buffer =>
    simp only
    split
    · exact ⟨_, rfl⟩
    · rename_i hb
      obtain ⟨out, hout, -⟩ := rBufChunk_spec (s := s) h1 h8 (by omega)
      rw [hout]
      exact ⟨_, rfl⟩

/-! ### The loop -/

/-- Chunk sizes as a request is cut: full chunks, then at most one shorter one. -/
def FullButLast : List Nat → Prop
  | [] => True
  | m :: rest => 1 ≤ m ∧ m ≤ 8 ∧ (rest ≠ [] → m = 8) ∧ FullButLast rest

theorem fullButLast_chunkSizes (n : Nat) : FullButLast (chunkSizes n) := by
  unfold chunkSizes
  generalize hk : n / 8 = k
  clear hk
  induction k with
  | zero =>
    split
    · trivial
    · simp [FullButLast]
      omega
  | succ k ih =>
    simp only [List.replicate_succ, List.cons_append, FullButLast]
    exact ⟨by omega, by omega, fun _ => trivial, ih⟩

/-- Adding a chunk in its lane to a left-justified word adds its bits at the end (R137). -/
theorem leftJustified_append {bs : List Bool} {out : Byte} {bits : List Bool} {j n : Nat}
    (hj : bs.length = 8 * j) (hn : n ≤ 8) (hl : 8 * j + n ≤ 64) (hj8 : j < 8) (hb : n ≤ bits.length)
    (hout : byteBits out = chunkBits bits n) :
    leftJustified bs ||| inLane out j = leftJustified (bs ++ bits.take n) := by
  apply BitVec.eq_of_getLsbD_eq
  intro i hi
  have hlen : (bs ++ bits.take n).length = 8 * j + n := by simp [hj]; omega
  rw [BitVec.getLsbD_or, leftJustified_getLsbD (by omega) hi, leftJustified_getLsbD (by omega) hi, inLane_getLsbD _ hi,
    hlen, hj]
  by_cases h1 : 63 - i < 8 * j
  · have h2 : ¬ (56 - 8 * j ≤ i ∧ i - (56 - 8 * j) < 8) := by omega
    have h3 : 63 - i < 8 * j + n := by omega
    have h4 : (bs ++ bits.take n).getD (63 - i) false = bs.getD (63 - i) false := by
      simp only [List.getD_eq_getElem?_getD]
      rw [List.getElem?_append_left (by omega)]
    have h5 : (decide (56 - 8 * j ≤ i) && out.getLsbD (i - (56 - 8 * j))) = false := by
      by_cases h6 : 56 - 8 * j ≤ i
      · have : 8 ≤ i - (56 - 8 * j) := by omega
        simp [BitVec.getLsbD_of_ge _ _ this]
      · simp [h6]
    simp only [h1, h3, h4, h5, decide_true, Bool.true_and, Bool.or_false]
  · by_cases h2 : 56 - 8 * j ≤ i
    · have ht : 63 - i - 8 * j < 8 := by omega
      have h7 : 7 - (63 - i - 8 * j) = i - (56 - 8 * j) := by omega
      have hg : out.getLsbD (i - (56 - 8 * j)) = (chunkBits bits n).getD (63 - i - 8 * j) false := by
        rw [← hout, ← h7]
        simp [List.getD_eq_getElem?_getD, ht]
      have h4 : (bs ++ bits.take n).getD (63 - i) false = (bits.take n).getD (63 - i - 8 * j) false := by
        simp only [List.getD_eq_getElem?_getD]
        rw [List.getElem?_append_right (by omega), hj]
      rw [hg, h4]
      by_cases h5 : 63 - i < 8 * j + n
      · have h6 : 63 - i - 8 * j < (bits.take n).length := by simp; omega
        have : (chunkBits bits n).getD (63 - i - 8 * j) false = (bits.take n).getD (63 - i - 8 * j) false := by
          simp only [chunkBits, List.getD_eq_getElem?_getD]
          rw [List.getElem?_append_left h6]
        rw [this]
        simp [h1, h2, h5]
      · have h6 : ¬ 63 - i - 8 * j < (bits.take n).length := by simp; omega
        have : (chunkBits bits n).getD (63 - i - 8 * j) false = false := by
          simp only [chunkBits, List.getD_eq_getElem?_getD]
          rw [List.getElem?_append_right (by omega)]
          rw [List.getElem?_replicate]
          split <;> rfl
        rw [this]
        simp [h1, h5]
    · have h3 : ¬ 63 - i < 8 * j + n := by omega
      simp [h1, h2, h3]

/-- What a run of chunks does from state s when it has moved k of `total` bits (R137). -/
structure ReadMoved (s : State) (taken : List Bool) (total : Nat) (done : Nat) (run : ReadRun) (k : Nat) : Prop where
  status : (run.status = .ok ∧ k = total) ∨ (run.status = .eod ∧ k < total ∧ k % 8 = 0)
  done   : run.done = done + k
  enough : (unreadBits k s).length = k
  res    : run.res = leftJustified (taken ++ unreadBits k s)
  rest   : ∀ h, unreadBits h run.post = (unreadBits (k + h) s).drop k
  pos    : run.post.rpos = BitVec.ofNat 64 (s.rpos.toNat + k)
  cnt    : s.cfg.rvar = .stream → run.post.rpcnt.toNat = (s.rpcnt.toNat + k) % 8
  pend   : (s.rpcnt = 0 → s.rpend = 0) → run.post.rpcnt = 0 → run.post.rpend = 0
  kept   : BufferReaderKept s run.post
  free   : run.post.freeIdx = s.freeIdx
  only   : OnlyReaderMoved s run.post

/-- The pulls of a run on a stream, `p` of them answered with a byte: all the request needs; or one for each whole byte
moved, and then one more, `Exhausted`, which is not repeated (R53, R63, R191). -/
def PulledFor (s : State) (total : Nat) (run : ReadRun) (k : Nat) : Prop :=
  ∃ p, (∀ j, j < p → sourceAnswers s j = true) ∧ run.post.src = s.src.skip p ∧
    ((run.status = .ok ∧ p = pullsNeeded s.rpcnt.toNat total ∧ run.post.env.pulls = s.env.pulls.skip p) ∨
      (run.status = .eod ∧ k = 8 * p ∧ p < pullsNeeded s.rpcnt.toNat total ∧
        run.post.env.pulls = s.env.pulls.skip (p + 1) ∧
        (sourceAnswers s p = false ∨ (s.src.skip p).head Config.endlessByte = none) ∧
        (k = 0 → run.post.rpend = s.rpend ∧ run.post.rpcnt = s.rpcnt)))

/-- A run that ends EOD found too few bits, whole bytes of which it delivered (R137, R191). -/
def ShortOf (s : State) (total k : Nat) : Prop :=
  (unreadBits total s).length < total ∧ k = 8 * ((unreadBits total s).length / 8)

/-- The loop of RBits: it moves whole leading chunks; on a buffer or with a willing source it stops only when the bits to
come are too few (R137, R191). -/
theorem rChunks_spec {sizes : List Nat} (hs : FullButLast sizes) (j : Nat) (taken : List Bool) (s : State)
    (hj : taken.length = 8 * j) (hl : 8 * j + sizes.sum ≤ 64)
    (hr : s.cfg.rvar = .buffer → s.cfg.rlen ≤ maxBytes) :
    ∃ run k, rChunks sizes j (8 * j) (leftJustified taken) s = .ok run ∧
      ReadMoved s taken sizes.sum (8 * j) run k ∧
      (s.cfg.rvar = .stream → PulledFor s sizes.sum run k) ∧
      (s.cfg.rvar = .buffer ∨ SourceWilling s (pullsNeeded s.rpcnt.toNat sizes.sum) → run.status = .eod →
        ShortOf s sizes.sum k) := by
  have hu0 : ∀ s, unreadBits 0 s = [] := fun s => List.eq_nil_of_length_eq_zero (by
    have := length_unreadBits_le 0 s
    omega)
  induction sizes generalizing j taken s with
  | nil =>
    refine ⟨_, 0, rfl, ⟨.inl ⟨rfl, by simp⟩, by simp, by simp [hu0], by simp [hu0], by simp, ?_,
      fun _ => (Nat.mod_eq_of_lt s.rpcnt.isLt).symm, fun h => h, fun _ => ⟨rfl, rfl, rfl, rfl⟩, rfl, rfl⟩,
      fun _ => ⟨0, by simp, rfl, .inl ⟨rfl, by simp [pullsNeeded], rfl⟩⟩, fun _ h => by cases h⟩
    simp
  | cons m rest ih =>
    obtain ⟨h1, h8, hfull, hrest⟩ := hs
    simp only [List.sum_cons] at hl ⊢
    simp only [rChunks]
    have hcut : (unreadBits m s).length < m → ShortOf s (m + rest.sum) 0 := by
      intro hlt
      have := length_unreadBits_of_short (s := s) (a := m) (b := m + rest.sum) (by omega) hlt
      unfold ShortOf
      omega
    rcases rChunk_spec h1 h8 hr with ⟨hv, h, hw⟩ | ⟨hv, h, hneed, hans, hw⟩ | ⟨out, t, h, ht⟩
    · rw [h]
      refine ⟨_, 0, rfl, ⟨.inr ⟨rfl, by omega, rfl⟩, rfl, by simp [hu0], by simp [hu0], by simp, by simp,
        fun _ => (Nat.mod_eq_of_lt s.rpcnt.isLt).symm, fun h => h, fun hv => ⟨rfl, rfl, rfl, rfl⟩, rfl, rfl⟩,
        (fun h => by simp [hv] at h), fun _ _ => hcut hw⟩
    · rw [h]
      have hpos : 0 < pullsNeeded s.rpcnt.toNat (m + rest.sum) := by
        unfold pullsNeeded ceil8 at hneed ⊢
        omega
      refine ⟨_, 0, rfl, ⟨.inr ⟨rfl, by omega, rfl⟩, rfl, by simp [hu0], by simp [hu0], ?_, by simp,
        fun _ => (Nat.mod_eq_of_lt s.rpcnt.isLt).symm, fun h => h, (fun h => by simp [hv] at h), rfl, rfl⟩,
        fun _ => ⟨0, by simp, rfl, .inr ⟨rfl, rfl, hpos, rfl, hans, fun _ => ⟨rfl, rfl⟩⟩⟩, fun hwill _ => hcut (hw ?_)⟩
      · intro h
        rw [Nat.zero_add, List.drop_zero]
        rfl
      · have := hwill.resolve_left (by simp [hv]) 0 hpos
        exact hans.resolve_left (by simp [this])
    · rw [h]
      simp only
      have hres : leftJustified taken ||| inLane out j = leftJustified (taken ++ unreadBits m s) := by
        have := leftJustified_append hj h8 (by omega) (by omega) (le_of_eq ht.enough.symm) ht.bits
        rwa [List.take_of_length_le (le_of_eq ht.enough)] at this
      rw [hres]
      have hcfg := ht.only.cfg_eq
      by_cases hne : rest = []
      · subst hne
        simp only [rChunks, List.sum_nil, Nat.add_zero]
        refine ⟨_, m, rfl, ⟨.inl ⟨rfl, rfl⟩, rfl, ht.enough, rfl, ht.rest, ht.pos, ht.cnt, ht.pend, ht.kept, ht.free,
          ht.only⟩, fun hv => ?_, fun _ h => by cases h⟩
        obtain ⟨a, b, c⟩ := ht.pulled hv
        exact ⟨_, a, b, .inl ⟨rfl, rfl, c⟩⟩
      · have hm := hfull hne
        subst hm
        have hj' : (taken ++ unreadBits 8 s).length = 8 * (j + 1) := by
          rw [List.length_append, ht.enough, hj]
          omega
        obtain ⟨run, k, hrun, hmoved, hpulled, hshort⟩ := ih hrest (j + 1) (taken ++ unreadBits 8 s) t hj' (by omega)
          (by rw [hcfg]; exact hr)
        have h8j : 8 * (j + 1) = 8 * j + 8 := by omega
        rw [h8j] at hrun
        have hadd : ∀ b, unreadBits (8 + b) s = unreadBits 8 s ++ unreadBits b t := by
          intro b
          rw [ht.rest, ← unreadBits_add]
        have hlenadd : ∀ b, (unreadBits (8 + b) s).length = 8 + (unreadBits b t).length := by
          intro b
          rw [hadd, List.length_append, ht.enough]
        have hone : pullsNeeded s.rpcnt.toNat 8 = 1 := by
          unfold pullsNeeded ceil8
          omega
        have hpn : s.cfg.rvar = .stream →
            pullsNeeded s.rpcnt.toNat (8 + rest.sum) = 1 + pullsNeeded t.rpcnt.toNat rest.sum := by
          intro hv
          have h1 := ht.cnt hv
          have h2 := s.rpcnt.isLt
          have h3 : t.rpcnt.toNat = s.rpcnt.toNat := by omega
          rw [pullsNeeded_add_eight, h3]
        have hpull1 : s.cfg.rvar = .stream → sourceAnswers s 0 = true ∧ t.src = s.src.skip 1 ∧
            t.env.pulls = s.env.pulls.skip 1 := by
          intro hv
          obtain ⟨a, b, c⟩ := ht.pulled hv
          rw [hone] at a b c
          exact ⟨a 0 (by omega), b, c⟩
        refine ⟨run, 8 + k, hrun, ⟨?_, ?_, ?_, ?_, fun h => ?_, ?_, fun hv => ?_,
          fun h => hmoved.pend (ht.pend h), fun hv => ?_, hmoved.free.trans ht.free,
          ht.only.trans hmoved.only⟩, fun hv => ?_, fun hwill heod => ?_⟩
        · rcases hmoved.status with ⟨a, b⟩ | ⟨a, b, c⟩
          · exact .inl ⟨a, by omega⟩
          · exact .inr ⟨a, by omega, by omega⟩
        · rw [hmoved.done]
          omega
        · rw [hlenadd, hmoved.enough]
        · rw [hmoved.res, hadd, List.append_assoc]
        · rw [hmoved.rest, ht.rest, List.drop_drop, Nat.add_assoc]
        · rw [hmoved.pos, ht.pos]
          apply BitVec.eq_of_toNat_eq
          simp only [BitVec.toNat_ofNat]
          omega
        · rw [hmoved.cnt (by rw [hcfg]; exact hv), ht.cnt hv]
          omega
        · obtain ⟨a, b, c, d⟩ := hmoved.kept (by rw [hcfg]; exact hv)
          rw [a, b, c, d]
          exact ht.kept hv
        · obtain ⟨a, b, c⟩ := hpull1 hv
          obtain ⟨p, hp1, hp2, hp3⟩ := hpulled (by rw [hcfg]; exact hv)
          refine ⟨1 + p, fun i hi => ?_, by rw [hp2, b, Feed.skip_skip], ?_⟩
          · cases i with
            | zero => exact a
            | succ i =>
              have := hp1 i (by omega)
              rwa [sourceAnswers_skip c, Nat.add_comm] at this
          · rcases hp3 with ⟨e1, e2, e3⟩ | ⟨e1, e2, e3, e4, e5, e6⟩
            · exact .inl ⟨e1, by rw [hpn hv, e2], by rw [e3, c, Feed.skip_skip]⟩
            · refine .inr ⟨e1, by omega, by rw [hpn hv]; omega, by rw [e4, c, Feed.skip_skip, Nat.add_assoc], ?_,
                fun h => by omega⟩
              rwa [sourceAnswers_skip c, b, Feed.skip_skip] at e5
        · have hwill' : t.cfg.rvar = .buffer ∨ SourceWilling t (pullsNeeded t.rpcnt.toNat rest.sum) := by
            cases hv : s.cfg.rvar with
            | buffer => exact .inl (by rw [hcfg, hv])
            | stream =>
              refine .inr fun i hi => ?_
              rw [sourceAnswers_skip (hpull1 hv).2.2]
              exact hwill.resolve_left (by simp [hv]) (1 + i) (by rw [hpn hv]; omega)
          obtain ⟨ha, hb⟩ := hshort hwill' heod
          have := hlenadd rest.sum
          unfold ShortOf
          omega

/-- A request to read no bits is OK and changes nothing (R133, R137). -/
theorem rBits_zero {s : State} (hp : s.cfg.rvar = .buffer → s.rpos.toNat ≤ 8 * s.cfg.rlen) :
    rBits 0 s = .ok ⟨.ok, 0, 0, s⟩ := by
  unfold rBits
  rw [if_neg (fun h => by have := hp h.1; omega)]
  rfl

/-- RBits: everything it can do (R137). On a Buffer it moves all of the request or changes nothing; on a stream it pulls as
`PulledFor` says, and with a willing source it stops only when the bits to come are too few. -/
theorem rBits_spec {n : Nat} (s : State) (hn : n ≤ 64)
    (hr : s.cfg.rvar = .buffer → s.cfg.rlen ≤ maxBytes ∧ s.rpos.toNat ≤ 8 * s.cfg.rlen) :
    ∃ run k, rBits n s = .ok run ∧ ReadMoved s [] n 0 run k ∧
      (s.cfg.rvar = .buffer → run.status = .eod → k = 0 ∧ run.post = s ∧ (unreadBits n s).length < n) ∧
      (s.cfg.rvar = .stream → PulledFor s n run k) ∧
      (s.cfg.rvar = .stream → SourceWilling s (pullsNeeded s.rpcnt.toNat n) → run.status = .eod → ShortOf s n k) := by
  have h0 : leftJustified [] = 0 := rfl
  have hu0 : unreadBits 0 s = [] := List.eq_nil_of_length_eq_zero (by
    have := length_unreadBits_le 0 s
    omega)
  unfold rBits
  by_cases hb : s.cfg.rvar = .buffer ∧ 8 * s.cfg.rlen < s.rpos.toNat + n
  · rw [if_pos hb]
    have hp := (hr hb.1).2
    have hlen : (unreadBits n s).length < n := by
      rw [unreadBits_buffer hb.1, bitsAt_length]
      omega
    refine ⟨_, 0, rfl, ⟨.inr ⟨rfl, by omega, rfl⟩, rfl, by simp [hu0], by simpa [hu0] using h0.symm, by simp, by simp,
      fun _ => (Nat.mod_eq_of_lt s.rpcnt.isLt).symm, fun h => h, fun _ => ⟨rfl, rfl, rfl, rfl⟩, rfl, rfl⟩,
      fun _ _ => ⟨rfl, rfl, hlen⟩, fun hv => ?_, fun hv => ?_⟩ <;>
    · rw [hb.1] at hv
      cases hv
  · rw [if_neg hb]
    obtain ⟨run, k, hrun, hmoved, hpulled, hshort⟩ := rChunks_spec (fullButLast_chunkSizes n) 0 [] s rfl
      (by rw [chunkSizes_sum]; omega) (fun hv => (hr hv).1)
    rw [chunkSizes_sum] at hmoved hpulled hshort
    refine ⟨run, k, hrun, hmoved, fun hv he => ?_, hpulled, fun hv hw he => hshort (.inr hw) he⟩
    exfalso
    have hlt := (hshort (.inl hv) he).1
    have hp := (hr hv).2
    have hle : s.rpos.toNat + n ≤ 8 * s.cfg.rlen := by
      by_contra hc
      exact hb ⟨hv, by omega⟩
    rw [unreadBits_buffer hv, bitsAt_length] at hlt
    omega

end Sys2Proof.Machine
end

