-- ==== Sys2Proof/Laws/Writer.lean ====
section
/-! SUPPORT. What the writer's shared operations can do, each said once in terms of the bits produced (R64, R65, R66, R160 to
R164). -/

namespace Sys2Proof.Machine

theorem State.toNat_wpos_lt (s : State) : s.wpos.toNat < 2 ^ 64 := s.wpos.isLt

theorem OnlyWriterMoved.refl (s : State) : OnlyWriterMoved s s := rfl

theorem OnlyWriterMoved.trans {s t u : State} (h1 : OnlyWriterMoved s t) (h2 : OnlyWriterMoved t u) :
    OnlyWriterMoved s u := by
  unfold OnlyWriterMoved at *
  rw [h2, h1]

theorem OtherVariantsKept.refl (s : State) : OtherVariantsKept s s :=
  ⟨fun _ => ⟨rfl, rfl, rfl, rfl⟩, fun _ => rfl, fun _ => ⟨rfl, rfl⟩⟩

theorem OtherVariantsKept.trans {s t u : State} (h1 : OtherVariantsKept s t) (hcfg : t.cfg = s.cfg)
    (h2 : OtherVariantsKept t u) : OtherVariantsKept s u := by
  refine ⟨fun hv => ?_, fun hv => ?_, fun hv => ?_⟩
  · obtain ⟨a, b, c, d⟩ := h2.1 (by rwa [hcfg])
    rw [a, b, c, d]
    exact h1.1 hv
  · rw [h2.2.1 (by rwa [hcfg]), h1.2.1 hv]
  · obtain ⟨a, b⟩ := h2.2.2 (by rwa [hcfg])
    rw [a, b]
    exact h1.2.2 hv

theorem OnlyWriterMoved.cfg_eq {s t : State} (h : OnlyWriterMoved s t) : t.cfg = s.cfg := by rw [h]

/-- Stream bit t of a byte, zero past its end. -/
def chunkBit (ch : Byte) (t : Nat) : Bool := decide (t < 8) && ch.getLsbD (7 - t)

theorem byteBits_take_getElem (ch : Byte) (n t : Nat) (h : t < ((byteBits ch).take n).length) :
    ((byteBits ch).take n)[t] = chunkBit ch t := by
  simp at h
  simp [chunkBit, h.2]

/-- A chunk byte with nothing below its top n bits has no stream bit at or after n. -/
theorem chunkBit_eq_false {ch : Byte} {n t : Nat} (hn : n ≤ 8) (hch : ch &&& topMask n = ch) (ht : n ≤ t) :
    chunkBit ch t = false := by
  unfold chunkBit
  by_cases h : t < 8
  · rw [(and_topMask_eq_self_iff hn).1 hch (7 - t) (by omega)]
    simp
  · simp [h]

/-! ### A chunk into a buffer -/

/-- WBUF after a chunk (R64). -/
def wBufMem (m : Memory) (ch : Byte) (p n : Nat) : Memory :=
  let i := byteIndex p
  let k := bitOffset p
  let m1 := Memory.write m i ((Memory.read m i &&& topMask k) ||| splitHi ch k)
  if crosses p n then Memory.write m1 (i + 1) (splitLo ch k) else m1

theorem topMask_zero : topMask 0 = 0 := rfl

/-- Inside the capacity WBufChunk succeeds, whatever the state (R64, R54). -/
theorem wBufChunk_ok {ch : Byte} {n : Nat} {s : State} (h1 : 1 ≤ n) (h8 : n ≤ 8)
    (hb : s.wpos.toNat + n ≤ 8 * s.wcap) :
    wBufChunk ch n s = .ok ((s.setWbuf (wBufMem s.wbuf ch s.wpos.toNat n)).setWpos (s.wpos.toNat + n)) := by
  have hi : byteIndex s.wpos.toNat < s.wcap := by unfold byteIndex; omega
  have hold : ∃ old, (if bitOffset s.wpos.toNat = 0 then (.ok 0 : Except Fault Byte)
        else memReadW s (byteIndex s.wpos.toNat)) = .ok old ∧
      old &&& topMask (bitOffset s.wpos.toNat) =
        Memory.read s.wbuf (byteIndex s.wpos.toNat) &&& topMask (bitOffset s.wpos.toNat) := by
    by_cases hk : bitOffset s.wpos.toNat = 0
    · exact ⟨0, by simp [hk], by rw [hk, topMask_zero]; simp⟩
    · exact ⟨_, by rw [if_neg hk, memReadW_ok hi], rfl⟩
  obtain ⟨old, ho, hv⟩ := hold
  unfold wBufChunk wBufMem
  simp only [ho, hv, memWriteW_ok _ hi]
  by_cases hc : crosses s.wpos.toNat n = true
  · have hi1 : byteIndex s.wpos.toNat + 1 < s.wcap := by
      have hc' : 8 < bitOffset s.wpos.toNat + n := by simpa [crosses] using hc
      unfold bitOffset at hc'
      unfold byteIndex
      omega
    have hw2 : ∀ m b, memWriteW (s.setWbuf m) (byteIndex s.wpos.toNat + 1) b =
        .ok ((s.setWbuf m).setWbuf (Memory.write m (byteIndex s.wpos.toNat + 1) b)) := fun m b => memWriteW_ok b hi1
    simp only [hc, if_true, hw2]
    rfl
  · simp only [hc]
    rfl

theorem wf_wBufMem {m : Memory} (ch : Byte) (p n : Nat) (h : Memory.wf m = true) : Memory.wf (wBufMem m ch p n) = true := by
  unfold wBufMem
  simp only
  split
  · exact Memory.wf_write _ _ (Memory.wf_write _ _ h)
  · exact Memory.wf_write _ _ h

/-- Bytes a chunk does not touch keep their value (R64, R66 item 3). -/
theorem read_wBufMem_outside (m : Memory) (ch : Byte) {p n a : Nat} (h1 : 1 ≤ n) (ha : a < p / 8 ∨ p + n ≤ 8 * a) :
    Memory.read (wBufMem m ch p n) a = Memory.read m a := by
  unfold wBufMem byteIndex
  simp only
  split
  · rename_i hc
    have hc' : 8 < p % 8 + n := of_decide_eq_true hc
    rw [Memory.read_write_other _ _ (by omega), Memory.read_write_other _ _ (by omega)]
  · rw [Memory.read_write_other _ _ (by omega)]

/-- Every bit after a chunk: kept below the position, the chunk's bits from it on in the bytes the chunk touches, kept
above (R64). -/
theorem bitAt_wBufMem {m : Memory} {ch : Byte} {p n : Nat} (h8 : n ≤ 8) (hw : Memory.wf m = true)
    (j : Nat) (hj : j / 8 = p / 8 ∨ (8 < p % 8 + n ∧ j / 8 = p / 8 + 1)) :
    bitAt (wBufMem m ch p n) j = if j < p then bitAt m j else chunkBit ch (j - p) := by
  have hw1 := Memory.wf_write (p / 8) ((Memory.read m (p / 8) &&& topMask (p % 8)) ||| splitHi ch (p % 8)) hw
  have hb7 : 7 - j % 8 < 8 := by omega
  unfold bitAt wBufMem byteIndex bitOffset
  simp only
  by_cases hsame : j / 8 = p / 8
  · have hread : Memory.read (if crosses p n = true then
        Memory.write (Memory.write m (p / 8) ((Memory.read m (p / 8) &&& topMask (p % 8)) ||| splitHi ch (p % 8)))
          (p / 8 + 1) (splitLo ch (p % 8))
        else Memory.write m (p / 8) ((Memory.read m (p / 8) &&& topMask (p % 8)) ||| splitHi ch (p % 8))) (j / 8) =
        (Memory.read m (p / 8) &&& topMask (p % 8)) ||| splitHi ch (p % 8) := by
      split
      · rw [Memory.read_write_other _ _ (by omega), hsame, Memory.read_write_same _ _ hw]
      · rw [hsame, Memory.read_write_same _ _ hw]
    rw [hread, BitVec.getLsbD_or, BitVec.getLsbD_and, topMask_getLsbD (by omega) hb7, splitHi_getLsbD, hsame]
    by_cases hlt : j < p
    · have h2 : 8 ≤ p % 8 + (7 - j % 8) := by omega
      simp [hlt, h2]
    · have h2 : ¬ 8 ≤ p % 8 + (7 - j % 8) := by omega
      have h3 : p % 8 + (7 - j % 8) = 7 - (j - p) := by omega
      have h4 : j - p < 8 := by omega
      simp only [hlt, h2, decide_false, Bool.and_false, Bool.false_or, if_false, chunkBit, h4, decide_true, Bool.true_and]
      rw [h3]
  · obtain ⟨hcr, hnext⟩ := hj.resolve_left hsame
    have hc : crosses p n = true := by simp [crosses, bitOffset, hcr]
    simp only [hc, if_true]
    rw [hnext, Memory.read_write_same _ _ hw1, splitLo_getLsbD _ hb7]
    have hlt : ¬ j < p := by omega
    simp only [hlt, if_false, chunkBit]
    by_cases h : j - p < 8
    · have h2 : 8 - p % 8 ≤ 7 - j % 8 := by omega
      have h3 : 7 - j % 8 - (8 - p % 8) = 7 - (j - p) := by omega
      simp only [h, h2, decide_true, Bool.true_and, h3]
    · have h2 : ¬ 8 - p % 8 ≤ 7 - j % 8 := by omega
      simp [h, h2]

/-- The committed bits after a chunk are the ones before and the chunk's bits; the bits from the new position to its byte's
end are zero (R66 item 3, R29 item 7). -/
theorem bitsAt_wBufMem {m : Memory} {ch : Byte} {p n : Nat} (h1 : 1 ≤ n) (h8 : n ≤ 8) (hw : Memory.wf m = true) :
    bitsAt (wBufMem m ch p n) 0 (p + n) = bitsAt m 0 p ++ (byteBits ch).take n := by
  rw [bitsAt_add]
  congr 1
  · apply bitsAt_congr
    intro j _ hj
    by_cases hb : j / 8 = p / 8
    · rw [bitAt_wBufMem h8 hw j (.inl hb), if_pos (by omega)]
    · unfold bitAt
      rw [read_wBufMem_outside m ch h1 (by omega)]
  · apply List.ext_getElem
    · simp [h8]
    · intro t ht1 ht2
      simp at ht1
      rw [bitsAt_getElem, byteBits_take_getElem, bitAt_wBufMem h8 hw _ (by omega), if_neg (by omega)]
      congr 1
      omega

theorem tailZeroAt_of_bits {m : Memory} {p : Nat} (h : ∀ j, p ≤ j → j / 8 = p / 8 → bitAt m j = false) :
    TailZeroAt m p := by
  unfold TailZeroAt
  rw [and_tailMask_eq_zero_iff (by omega)]
  intro i hi
  have := h (8 * (p / 8) + (7 - i)) (by omega) (by omega)
  unfold bitAt at this
  have h1 : (8 * (p / 8) + (7 - i)) / 8 = p / 8 := by omega
  have h2 : 7 - (8 * (p / 8) + (7 - i)) % 8 = i := by omega
  rwa [h1, h2] at this

theorem tailZeroAt_wBufMem {m : Memory} {ch : Byte} {p n : Nat} (h1 : 1 ≤ n) (h8 : n ≤ 8) (hw : Memory.wf m = true)
    (hch : ch &&& topMask n = ch) (hm : (p + n) % 8 ≠ 0) : TailZeroAt (wBufMem m ch p n) (p + n) := by
  apply tailZeroAt_of_bits
  intro j hj hb
  rw [bitAt_wBufMem h8 hw j (by omega), if_neg (by omega)]
  exact chunkBit_eq_false h8 hch (by omega)

/-! ### A chunk -/

/-- What a state must offer for the writer's bit laws: zeros below the pending bits on a stream, a canonical and legal
buffer else (R27, R222). -/
def WriterReady (s : State) : Prop :=
  (s.cfg.wvar = .stream → s.wpend &&& (0xFF - topMask s.wpcnt.toNat) = 0) ∧
  (s.cfg.wvar ≠ .stream → Memory.wf s.wbuf = true ∧ s.wcap ≤ maxBytes)

theorem writerReady_of_inv {s : State} (h : Inv s) : WriterReady s :=
  ⟨fun _ => h.2.1.2.2, fun _ => ⟨h.2.2.2.2.2.1, h.2.2.2.2.2.2⟩⟩

/-- From s to t the sink has accepted `p` bytes, which stay in it (R56, R65). -/
def PushedFor (s t : State) (p : Nat) : Prop :=
  (∀ j, j < p → sinkAccepts s j = true) ∧ t.snk.length = s.snk.length + p

/-- What a chunk of n bits that is accepted does: it appends the chunk's bits, advances WPOS by n, on a stream pushes the
byte it completes, leaves the bytes it does not touch alone and changes nothing but the writer's own (R64, R65, R161). -/
structure WriterTook (s : State) (ch : Byte) (n : Nat) (t : State) : Prop where
  bits  : writtenBits t = writtenBits s ++ (byteBits ch).take n
  pos   : t.wpos = BitVec.ofNat 64 (s.wpos.toNat + n)
  frame : ∀ a, a < s.wpos.toNat / 8 ∨ s.wpos.toNat + n ≤ 8 * a → Memory.read t.wbuf a = Memory.read s.wbuf a
  cap   : t.wcap = s.wcap
  ready : WriterReady t
  cnt   : s.cfg.wvar = .stream → t.wpcnt.toNat = (s.wpcnt.toNat + n) % 8
  pushed : s.cfg.wvar = .stream → PushedFor s t ((s.wpcnt.toNat + n) / 8) ∧
    t.env.accepts = s.env.accepts.skip ((s.wpcnt.toNat + n) / 8)
  tail  : s.cfg.wvar ≠ .stream → (s.wpos.toNat + n) % 8 ≠ 0 → TailZeroAt t.wbuf (s.wpos.toNat + n)
  grows : t.env.grows = s.env.grows
  kept  : OtherVariantsKept s t
  only  : OnlyWriterMoved s t

/-- A pending byte with a chunk's bits put at its offset (R65). -/
theorem byteBits_or_splitHi {b ch : Byte} {c : Nat} (hc : c ≤ 7) (hb : b &&& (0xFF - topMask c) = 0) :
    byteBits (b ||| splitHi ch c) = (byteBits b).take c ++ (byteBits ch).take (8 - c) := by
  apply List.ext_getElem
  · simp
    omega
  · intro t h1 h2
    have ht : t < 8 := by simpa using h1
    rw [byteBits_getElem, BitVec.getLsbD_or, splitHi_getLsbD]
    simp only [List.getElem_append, List.length_take, byteBits_length, List.getElem_take, byteBits_getElem]
    by_cases h : t < c
    · have hm : t < min c 8 := by omega
      have h8 : 8 ≤ c + (7 - t) := by omega
      simp [hm, BitVec.getLsbD_of_ge _ _ h8]
    · have hm : ¬ t < min c 8 := by omega
      have h3 : min c 8 = c := by omega
      have h4 : c + (7 - t) = 7 - (t - c) := by omega
      rw [(and_tailMask_eq_zero_iff (by omega)).1 hb (7 - t) (by omega)]
      simp only [h, h3, h4, Bool.false_or, dite_false]

/-- The carry of a chunk holds its remaining bits, left-justified (R61). -/
theorem byteBits_splitLo_take {ch : Byte} {c n : Nat} (hc : c ≤ 7) (h : 8 ≤ c + n) (h8 : n ≤ 8) :
    (byteBits (splitLo ch c)).take (c + n - 8) = ((byteBits ch).take n).drop (8 - c) := by
  apply List.ext_getElem
  · simp
    omega
  · intro t h1 h2
    simp at h1
    have ht : t < 8 := by omega
    simp only [List.getElem_take, byteBits_getElem, List.getElem_drop]
    rw [splitLo_getLsbD _ (by omega)]
    have h3 : 8 - c ≤ 7 - t := by omega
    have h4 : 7 - t - (8 - c) = 7 - (8 - c + t) := by omega
    simp [h3, h4]

theorem tail_or_splitHi {b ch : Byte} {c n : Nat} (hb : b &&& (0xFF - topMask c) = 0) (hch : ch &&& topMask n = ch)
    (hcn : c + n ≤ 8) : (b ||| splitHi ch c) &&& (0xFF - topMask (c + n)) = 0 := by
  rw [and_tailMask_eq_zero_iff hcn]
  intro i hi
  rw [BitVec.getLsbD_or, splitHi_getLsbD, (and_tailMask_eq_zero_iff (by omega)).1 hb i (by omega),
    (and_topMask_eq_self_iff (by omega)).1 hch (c + i) (by omega)]
  rfl

theorem tail_splitLo {ch : Byte} {c n : Nat} (hc : c ≤ 7) (h : 8 ≤ c + n) (h8 : n ≤ 8) (hch : ch &&& topMask n = ch) :
    splitLo ch c &&& (0xFF - topMask (c + n - 8)) = 0 := by
  rw [and_tailMask_eq_zero_iff (by omega)]
  intro i hi
  rw [splitLo_getLsbD _ (by omega)]
  by_cases h2 : 8 - c ≤ i
  · rw [(and_topMask_eq_self_iff h8).1 hch (i - (8 - c)) (by omega)]
    simp
  · simp [h2]

/-- WStreamChunk appends its bits or, when the sink refuses its push, changes nothing but the sink's coming answers; a chunk
that stays inside the pending byte never fails (R65). -/
theorem wStreamChunk_spec {ch : Byte} {n : Nat} {s : State} (hv : s.cfg.wvar = .stream) (h1 : 1 ≤ n) (h8 : n ≤ 8)
    (hch : ch &&& topMask n = ch) (hr : WriterReady s) :
    (wStreamChunk ch n s = (false, s.setSink s.snk s.env.accepts.rest) ∧ 8 ≤ s.wpcnt.toNat + n ∧
      sinkAccepts s 0 = false) ∨
    (∃ t, wStreamChunk ch n s = (true, t) ∧ WriterTook s ch n t) := by
  have hc8 : s.wpcnt.toNat < 8 := s.wpcnt.isLt
  have hz := hr.1 hv
  have hwb : writtenBits s = s.snk.flatMap byteBits ++ (byteBits s.wpend).take s.wpcnt.toNat := by
    simp only [writtenBits, hv]
  unfold wStreamChunk
  simp only
  by_cases hin : s.wpcnt.toNat + n < 8
  · simp only [hin, if_true]
    have hp0 : (s.wpcnt.toNat + n) / 8 = 0 := by omega
    refine .inr ⟨_, rfl, ⟨?_, rfl, fun _ _ => rfl, rfl, ⟨fun _ => ?_, fun h => absurd hv h⟩, fun _ => ?_, fun _ => ?_,
      fun h => absurd hv h, rfl, ⟨fun h => absurd hv h, fun _ => rfl, fun _ => ⟨rfl, rfl⟩⟩, rfl⟩⟩
    · simp only [writtenBits, State.setWriter_cfg, hv, State.setWriter_snk, State.setWriter_wpend, State.setWriter_wpcnt,
        toNat_ofNat3 hin]
      rw [byteBits_or_splitHi (by omega) hz, List.append_assoc]
      congr 1
      rw [List.take_append]
      simp only [List.take_take, List.length_take, byteBits_length]
      have e1 : min (s.wpcnt.toNat + n) s.wpcnt.toNat = s.wpcnt.toNat := by omega
      have e2 : min (s.wpcnt.toNat + n - min s.wpcnt.toNat 8) (8 - s.wpcnt.toNat) = n := by omega
      rw [e1, e2]
    · simp only [State.setWriter_wpend, State.setWriter_wpcnt, toNat_ofNat3 hin]
      exact tail_or_splitHi hz hch (by omega)
    · rw [State.setWriter_wpcnt, toNat_ofNat3 hin]
      omega
    · rw [hp0]
      exact ⟨⟨by simp, rfl⟩, rfl⟩
  · have h9 : 8 ≤ s.wpcnt.toNat + n := by omega
    have hlt : s.wpcnt.toNat + n - 8 < 8 := by omega
    have hp1 : (s.wpcnt.toNat + n) / 8 = 1 := by omega
    simp only [hin, if_false]
    rcases snkPush_cases (s.wpend ||| splitHi ch s.wpcnt.toNat) s with ⟨hw, hp⟩ | ⟨hw, hp⟩
    · exact .inl ⟨by rw [hp], h9, hw⟩
    · rw [hp]
      simp only
      refine .inr ⟨_, rfl, ⟨?_, rfl, fun _ _ => rfl, rfl, ⟨fun _ => ?_, fun h => absurd hv h⟩, fun _ => ?_, fun _ => ?_,
        fun h => absurd hv h, rfl, ⟨fun h => absurd hv h, fun _ => rfl, fun _ => ⟨rfl, rfl⟩⟩, rfl⟩⟩
      · simp only [writtenBits, State.setWriter_cfg, State.setSink_cfg, hv, State.setWriter_snk, State.setSink_snk,
          State.setWriter_wpend, State.setWriter_wpcnt, toNat_ofNat3 hlt]
        rw [List.flatMap_append, List.flatMap_cons, List.flatMap_nil, List.append_nil, byteBits_or_splitHi (by omega) hz,
          byteBits_splitLo_take (by omega) h9 h8]
        simp only [List.append_assoc]
        congr 2
        have : (byteBits ch).take (8 - s.wpcnt.toNat) = ((byteBits ch).take n).take (8 - s.wpcnt.toNat) := by
          rw [List.take_take]
          congr 1
          omega
        rw [this, List.take_append_drop]
      · simp only [State.setWriter_wpend, State.setWriter_wpcnt, toNat_ofNat3 hlt]
        exact tail_splitLo (by omega) h9 h8 hch
      · rw [State.setWriter_wpcnt, toNat_ofNat3 hlt]
        omega
      · rw [hp1]
        refine ⟨⟨fun j hj => ?_, by simp⟩, rfl⟩
        have : j = 0 := by omega
        rw [this]
        exact hw

/-- Whatever WStreamChunk answers, only the writer has moved. -/
theorem wStreamChunk_only (ch : Byte) (n : Nat) (s : State) : OnlyWriterMoved s (wStreamChunk ch n s).2 := by
  unfold wStreamChunk
  simp only
  split
  · rfl
  · rcases snkPush_cases (s.wpend ||| splitHi ch s.wpcnt.toNat) s with ⟨-, h⟩ | ⟨-, h⟩ <;> rw [h] <;> rfl

/-- A chunk that fits in a buffer is taken (R64, R161). -/
theorem wBufChunk_spec {ch : Byte} {n : Nat} {s : State} (hv : s.cfg.wvar ≠ .stream) (h1 : 1 ≤ n) (h8 : n ≤ 8)
    (hch : ch &&& topMask n = ch) (hr : WriterReady s) (hb : s.wpos.toNat + n ≤ 8 * s.wcap) :
    ∃ t, wBufChunk ch n s = .ok t ∧ WriterTook s ch n t := by
  obtain ⟨hw, hcap⟩ := hr.2 hv
  have hpos : (BitVec.ofNat 64 (s.wpos.toNat + n)).toNat = s.wpos.toNat + n := by
    rw [BitVec.toNat_ofNat]
    apply Nat.mod_eq_of_lt
    unfold maxBytes at hcap
    omega
  refine ⟨_, wBufChunk_ok h1 h8 hb, ⟨?_, rfl, fun a ha => read_wBufMem_outside s.wbuf ch h1 ha, rfl,
    ⟨fun h => absurd h hv, fun _ => ⟨wf_wBufMem ch _ n hw, hcap⟩⟩, fun h => absurd h hv, fun h => absurd h hv,
    fun _ hm => tailZeroAt_wBufMem h1 h8 hw hch hm, rfl,
    ⟨fun _ => ⟨rfl, rfl, rfl, rfl⟩, fun h => absurd h hv, fun _ => ⟨rfl, rfl⟩⟩, rfl⟩⟩
  cases hvar : s.cfg.wvar with
  | stream => exact absurd hvar hv
  | fixed =>
    simp only [writtenBits, State.setWpos_cfg, State.setWbuf_cfg, hvar, State.setWpos_wpos, State.setWpos_wbuf,
      State.setWbuf_wbuf, hpos]
    exact bitsAt_wBufMem h1 h8 hw
  | growable =>
    simp only [writtenBits, State.setWpos_cfg, State.setWbuf_cfg, hvar, State.setWpos_wpos, State.setWpos_wbuf,
      State.setWbuf_wbuf, hpos]
    exact bitsAt_wBufMem h1 h8 hw

/-- The growable buffer already has room for the chunk: what WEnsure leaves (R160, R161). -/
def GrownFor (s : State) (n : Nat) : Prop := s.cfg.wvar = .growable → s.wpos.toNat + n ≤ 8 * s.wcap

/-- WChunk: everything it can do (R161). -/
theorem wChunk_spec {ch : Byte} {n : Nat} {s : State} (h1 : 1 ≤ n) (h8 : n ≤ 8) (hch : ch &&& topMask n = ch)
    (hr : WriterReady s) (hg : GrownFor s n) :
    (s.cfg.wvar = .fixed ∧ wChunk ch n s = .ok (false, s) ∧ 8 * s.wcap < s.wpos.toNat + n) ∨
    (s.cfg.wvar = .stream ∧ wChunk ch n s = .ok (false, s.setSink s.snk s.env.accepts.rest) ∧ 8 ≤ s.wpcnt.toNat + n ∧
      sinkAccepts s 0 = false) ∨
    (∃ t, wChunk ch n s = .ok (true, t) ∧ WriterTook s ch n t ∧
      (s.cfg.wvar = .fixed → s.wpos.toNat + n ≤ 8 * s.wcap)) := by
  unfold wChunk
  cases hv : s.cfg.wvar with
  | stream =>
    rcases wStreamChunk_spec hv h1 h8 hch hr with ⟨h, hc, hw⟩ | ⟨t, h, ht⟩
    · exact .inr (.inl ⟨rfl, by simp only [h], hc, hw⟩)
    · exact .inr (.inr ⟨t, by simp only [h], ht, by simp⟩)
  | fixed =>
    simp only
    by_cases hb : 8 * s.wcap < s.wpos.toNat + n
    · exact .inl ⟨trivial, by rw [if_pos hb], hb⟩
    · obtain ⟨t, h, ht⟩ := wBufChunk_spec (by simp [hv]) h1 h8 hch hr (not_lt.1 hb)
      exact .inr (.inr ⟨t, by rw [if_neg hb, h], ht, fun _ => not_lt.1 hb⟩)
  | growable =>
    obtain ⟨t, h, ht⟩ := wBufChunk_spec (by simp [hv]) h1 h8 hch hr (hg hv)
    exact .inr (.inr ⟨t, by simp only [h], ht, by simp⟩)

/-- WChunk never faults where WEnsure has done its work, whatever the rest of the state (R54). -/
theorem wChunk_ne_error (ch : Byte) {n : Nat} {s : State} (h1 : 1 ≤ n) (h8 : n ≤ 8) (hg : GrownFor s n) :
    ∃ r, wChunk ch n s = .ok r := by
  unfold wChunk
  cases hv : s.cfg.wvar with
  | stream => exact ⟨_, rfl⟩
  | fixed =>
    simp only
    split
    · exact ⟨_, rfl⟩
    · rename_i hb
      rw [wBufChunk_ok h1 h8 (by omega)]
      exact ⟨_, rfl⟩
  | growable =>
    simp only
    rw [wBufChunk_ok h1 h8 (hg hv)]
    exact ⟨_, rfl⟩

/-! ### The loop -/

/-- The pushes of a run on a stream: all the request completes; or one for each whole byte written, and then one that is
refused and not repeated (R56, R65, R192). -/
def PushedUntil (s : State) (total : Nat) (run : WriteRun) (k : Nat) : Prop :=
  ∃ p, PushedFor s run.post p ∧
    ((run.status = .ok ∧ p = (s.wpcnt.toNat + total) / 8 ∧ run.post.env.accepts = s.env.accepts.skip p) ∨
      (run.status = .capacity ∧ k = 8 * p ∧ p < (s.wpcnt.toNat + total) / 8 ∧
        run.post.env.accepts = s.env.accepts.skip (p + 1) ∧ sinkAccepts s p = false))

/-- What a run of chunks of the lane word l, from bit `start` on, does when it has written k of `total` bits (R162). -/
structure WriterMoved (s : State) (l : U64) (start total done : Nat) (run : WriteRun) (k : Nat) : Prop where
  status : (run.status = .ok ∧ k = total) ∨
    (run.status = .capacity ∧ k < total ∧ k % 8 = 0 ∧ s.cfg.wvar ≠ .growable)
  done   : run.done = done + k
  bits   : writtenBits run.post = writtenBits s ++ ((laneBits l (start + k)).drop start)
  pos    : run.post.wpos = BitVec.ofNat 64 (s.wpos.toNat + k)
  frame  : ∀ a, a < s.wpos.toNat / 8 ∨ s.wpos.toNat + k ≤ 8 * a → Memory.read run.post.wbuf a = Memory.read s.wbuf a
  cap    : run.post.wcap = s.wcap
  ready  : WriterReady run.post
  cnt    : s.cfg.wvar = .stream → run.post.wpcnt.toNat = (s.wpcnt.toNat + k) % 8
  pushed : s.cfg.wvar = .stream → PushedUntil s total run k
  tail   : s.cfg.wvar ≠ .stream → 1 ≤ k → (s.wpos.toNat + k) % 8 ≠ 0 → TailZeroAt run.post.wbuf (s.wpos.toNat + k)
  grows  : run.post.env.grows = s.env.grows
  kept   : OtherVariantsKept s run.post
  zero   : k = 0 → ∃ q, run.post = s.setSink s.snk q
  only   : OnlyWriterMoved s run.post

/-- A chunk's bits are the lane word's (R15, R162). -/
theorem byteBits_lane_take {l : U64} {j n : Nat} (hj : 8 * j + n ≤ 64) (h1 : 1 ≤ n) (h8 : n ≤ 8) :
    (byteBits (lane l j &&& topMask n)).take n = (laneBits l (8 * j + n)).drop (8 * j) := by
  apply List.ext_getElem
  · simp [h8]
  · intro t h1' h2
    simp at h1'
    simp only [List.getElem_take, byteBits_getElem, List.getElem_drop, laneBits_getElem]
    rw [BitVec.getLsbD_and, topMask_getLsbD h8 (by omega), lane_getLsbD _ _ (by omega)]
    have h2' : 8 ≤ n + (7 - t) := by omega
    have h3 : 56 - 8 * j + (7 - t) = 63 - (8 * j + t) := by omega
    simp [h2', h3]

theorem and_topMask_idem (b : Byte) {n : Nat} : b &&& topMask n &&& topMask n = b &&& topMask n := by
  rw [BitVec.and_assoc, BitVec.and_self]

/-- A sink that accepts each push a run can make lets it finish (R56, R162). -/
theorem PushedUntil.ok_of_willing {s : State} {total k : Nat} {run : WriteRun} (h : PushedUntil s total run k)
    (hw : SinkWilling s ((s.wpcnt.toNat + total) / 8)) : run.status = .ok := by
  obtain ⟨p, -, ⟨hok, -⟩ | ⟨-, -, hp, -, hno⟩⟩ := h
  · exact hok
  · rw [hw p hp] at hno
    cases hno

/-- The loop of WBits (R162): whole leading chunks are written, in order. -/
theorem wChunks_spec {sizes : List Nat} (hs : FullButLast sizes) (j : Nat) (l : U64) (s : State)
    (hl : 8 * j + sizes.sum ≤ 64) (hr : WriterReady s) (hg : GrownFor s sizes.sum) :
    ∃ run k, wChunks sizes j (8 * j) l s = .ok run ∧ WriterMoved s l (8 * j) sizes.sum (8 * j) run k ∧
      (s.cfg.wvar = .fixed → (run.status = .capacity ↔ 8 * s.wcap < s.wpos.toNat + sizes.sum ∧ sizes ≠ []) ∧
        (run.status = .capacity → s.wpos.toNat ≤ 8 * s.wcap → k = 8 * ((8 * s.wcap - s.wpos.toNat) / 8))) := by
  induction sizes generalizing j s with
  | nil =>
    refine ⟨_, 0, rfl, ⟨.inl ⟨rfl, rfl⟩, rfl, by simp, by simp, fun _ _ => rfl, rfl, hr,
      fun _ => (Nat.mod_eq_of_lt s.wpcnt.isLt).symm, fun _ => ⟨0, ⟨by simp, rfl⟩, .inl ⟨rfl, ?_, rfl⟩⟩,
      fun _ h => by omega, rfl, OtherVariantsKept.refl s, fun _ => ⟨s.env.accepts, rfl⟩, rfl⟩, fun _ => ?_⟩
    · have := s.wpcnt.isLt
      simp only [List.sum_nil]
      omega
    · simp
  | cons m rest ih =>
    obtain ⟨h1, h8, hfull, hrest⟩ := hs
    simp only [List.sum_cons] at hl hg ⊢
    simp only [wChunks]
    have hch : lane l j &&& topMask m &&& topMask m = lane l j &&& topMask m := and_topMask_idem _
    have hnone : writtenBits s = writtenBits s ++ (laneBits l (8 * j + 0)).drop (8 * j) := by
      have e : (laneBits l (8 * j + 0)).drop (8 * j) = [] := List.drop_eq_nil_of_le (by simp)
      rw [e, List.append_nil]
    rcases wChunk_spec h1 h8 hch hr (fun hv => by have := hg hv; omega) with
      ⟨hv, h, hb⟩ | ⟨hv, h, hc, hw⟩ | ⟨t, h, ht, hfix⟩
    · rw [h]
      refine ⟨_, 0, rfl, ⟨.inr ⟨rfl, by omega, rfl, by simp [hv]⟩, rfl, hnone, by simp, fun _ _ => rfl, rfl, hr,
        fun _ => (Nat.mod_eq_of_lt s.wpcnt.isLt).symm, (fun h => by simp [hv] at h), fun _ h => by omega, rfl,
        OtherVariantsKept.refl s, fun _ => ⟨s.env.accepts, rfl⟩, rfl⟩,
        fun _ => ⟨⟨fun _ => ⟨by omega, by simp⟩, fun _ => rfl⟩, fun _ hp => by omega⟩⟩
    · rw [h]
      have hkept : OtherVariantsKept s (s.setSink s.snk s.env.accepts.rest) :=
        ⟨fun h => absurd hv h, fun _ => rfl, fun _ => ⟨rfl, rfl⟩⟩
      refine ⟨_, 0, rfl, ⟨.inr ⟨rfl, by omega, rfl, by simp [hv]⟩, rfl, hnone, by simp, fun _ _ => rfl, rfl, hr,
        fun _ => (Nat.mod_eq_of_lt s.wpcnt.isLt).symm,
        fun _ => ⟨0, ⟨by simp, rfl⟩, .inr ⟨rfl, rfl, by omega, rfl, hw⟩⟩, fun _ h => by omega, rfl, hkept,
        fun _ => ⟨_, rfl⟩, rfl⟩, (fun h => by simp [hv] at h)⟩
    · rw [h]
      simp only
      have hcfg := ht.only.cfg_eq
      have hbits := ht.bits
      rw [byteBits_lane_take (by omega) h1 h8] at hbits
      by_cases hne : rest = []
      · subst hne
        simp only [wChunks, List.sum_nil, Nat.add_zero]
        refine ⟨_, m, rfl, ⟨.inl ⟨rfl, rfl⟩, rfl, hbits, ht.pos, ht.frame, ht.cap, ht.ready, ht.cnt,
          fun hv => ⟨_, (ht.pushed hv).1, .inl ⟨rfl, rfl, (ht.pushed hv).2⟩⟩,
          fun hv _ hm => ht.tail hv hm, ht.grows, ht.kept, fun h => by omega, ht.only⟩, fun hv => ?_⟩
        have := hfix hv
        refine ⟨⟨(fun h => by cases h), (fun h => by omega)⟩, (fun h => by cases h)⟩
      · have hm := hfull hne
        subst hm
        have hposlt : s.cfg.wvar ≠ .stream → t.wpos.toNat = s.wpos.toNat + 8 := by
          intro hv
          have hcap := (hr.2 hv).2
          have hb : s.wpos.toNat + 8 ≤ 8 * s.wcap := by
            cases hvar : s.cfg.wvar with
            | stream => exact absurd hvar hv
            | fixed => exact hfix hvar
            | growable =>
              have := hg hvar
              omega
          rw [ht.pos, BitVec.toNat_ofNat]
          apply Nat.mod_eq_of_lt
          unfold maxBytes at hcap
          omega
        have hgt : GrownFor t rest.sum := by
          intro hv
          rw [hcfg] at hv
          have := hg hv
          have hp := hposlt (by simp [hv])
          rw [ht.cap, hp]
          omega
        obtain ⟨run, k, hrun, hmoved, hf⟩ := ih hrest (j + 1) t (by omega) ht.ready hgt
        have h8j : 8 * (j + 1) = 8 * j + 8 := by omega
        rw [h8j] at hrun hmoved
        rw [hcfg] at hf
        refine ⟨run, 8 + k, hrun, ⟨?_, ?_, ?_, ?_, ?_, ?_, hmoved.ready, fun hv => ?_, fun hv => ?_,
          fun hv _ hm => ?_, hmoved.grows.trans ht.grows, ht.kept.trans hcfg hmoved.kept, fun h => by omega,
          ht.only.trans hmoved.only⟩, fun hv => ?_⟩
        · rcases hmoved.status with ⟨a, b⟩ | ⟨a, b, c, d⟩
          · exact .inl ⟨a, by omega⟩
          · exact .inr ⟨a, by omega, by omega, by rw [← hcfg]; exact d⟩
        · rw [hmoved.done]
          omega
        · rw [hmoved.bits, hbits, List.append_assoc]
          congr 1
          have e1 : laneBits l (8 * j + (8 + k)) = laneBits l (8 * j + 8) ++ (laneBits l (8 * j + 8 + k)).drop (8 * j + 8) := by
            have e2 : 8 * j + (8 + k) = 8 * j + 8 + k := by omega
            rw [e2, laneBits_add l (8 * j + 8) k, List.drop_append_of_le_length (by simp)]
            have e3 : (laneBits l (8 * j + 8)).drop (8 * j + 8) = [] := List.drop_eq_nil_of_le (by simp)
            rw [e3, List.nil_append]
          rw [e1, List.drop_append_of_le_length (by simp)]
        · rw [hmoved.pos, ht.pos]
          apply BitVec.eq_of_toNat_eq
          simp only [BitVec.toNat_ofNat]
          omega
        · intro a ha
          by_cases hv : s.cfg.wvar = .stream
          · rw [hmoved.kept.2.1 (by rw [hcfg]; exact hv), ht.kept.2.1 hv]
          · have hp := hposlt hv
            rw [hmoved.frame a (by omega), ht.frame a (by omega)]
        · rw [hmoved.cap, ht.cap]
        · rw [hmoved.cnt (by rw [hcfg]; exact hv), ht.cnt hv]
          omega
        · obtain ⟨⟨a1, a2⟩, a3⟩ := ht.pushed hv
          obtain ⟨p, ⟨b1, b2⟩, b3⟩ := hmoved.pushed (by rw [hcfg]; exact hv)
          have hone : (s.wpcnt.toNat + 8) / 8 = 1 := by
            have := s.wpcnt.isLt
            omega
          rw [hone] at a1 a2 a3
          have hc := ht.cnt hv
          have hafter := sinkAccepts_skip a3 (by rw [ht.only]) a2
          refine ⟨1 + p, ⟨fun i hi => ?_, by rw [b2, a2, Nat.add_assoc]⟩, ?_⟩
          · cases i with
            | zero => exact a1 0 (by omega)
            | succ i =>
              have := b1 i (by omega)
              rwa [hafter, Nat.add_comm] at this
          · rcases b3 with ⟨e1, e2, e3⟩ | ⟨e1, e2, e3, e4, e5⟩
            · exact .inl ⟨e1, by omega, by rw [e3, a3, Feed.skip_skip]⟩
            · exact .inr ⟨e1, by omega, by omega, by rw [e4, a3, Feed.skip_skip, Nat.add_assoc], by rwa [hafter] at e5⟩
        · have hp := hposlt hv
          by_cases hk : k = 0
          · obtain ⟨q, hq⟩ := hmoved.zero hk
            rw [hq, State.setSink_wbuf, hk]
            exact ht.tail hv (by rw [hk] at hm; exact hm)
          · have := hmoved.tail (by rw [hcfg]; exact hv) (by omega) (by rw [hp]; omega)
            rw [hp] at this
            have e : s.wpos.toNat + 8 + k = s.wpos.toNat + (8 + k) := by omega
            rwa [e] at this
        · obtain ⟨ha, hb⟩ := hf hv
          have hp := hposlt (by simp [hv])
          have hle := hfix hv
          rw [ht.cap, hp] at ha hb
          refine ⟨⟨fun h => ⟨by have := (ha.1 h).1; omega, by simp⟩, fun h => ha.2 ⟨by omega, hne⟩⟩, fun h hpw => ?_⟩
          have := hb h (by omega)
          omega

/-- The loop of WBits never faults where WEnsure has done its work, whatever the rest of the state (R54). -/
theorem wChunks_ne_error {sizes : List Nat} (hs : FullButLast sizes) (j done : Nat) (l : U64) (s : State)
    (hg : GrownFor s sizes.sum) : ∃ run, wChunks sizes j done l s = .ok run := by
  induction sizes generalizing j done s with
  | nil => exact ⟨_, rfl⟩
  | cons m rest ih =>
    obtain ⟨h1, h8, -, hrest⟩ := hs
    simp only [List.sum_cons] at hg
    simp only [wChunks]
    obtain ⟨⟨ok, t⟩, ht⟩ := wChunk_ne_error (lane l j &&& topMask m) h1 h8
      (s := s) (fun hv => by have := hg hv; omega)
    rw [ht]
    cases ok with
    | false => exact ⟨_, rfl⟩
    | true =>
      apply ih hrest
      intro hv
      have hgrow : s.cfg.wvar = .growable ∧ t = (s.setWbuf (wBufMem s.wbuf (lane l j &&& topMask m) s.wpos.toNat m)).setWpos
          (s.wpos.toNat + m) := by
        unfold wChunk at ht
        cases hvar : s.cfg.wvar with
        | stream =>
          simp only [hvar, Except.ok.injEq] at ht
          have hcfg := (wStreamChunk_only (lane l j &&& topMask m) m s).cfg_eq
          rw [ht] at hcfg
          simp only at hcfg
          rw [hcfg, hvar] at hv
          cases hv
        | fixed =>
          simp only [hvar] at ht
          split at ht
          · cases ht
          · rename_i hb
            rw [wBufChunk_ok h1 h8 (by omega)] at ht
            cases ht
            simp [hvar] at hv
        | growable =>
          have := hg hvar
          simp only [hvar] at ht
          rw [wBufChunk_ok h1 h8 (by omega)] at ht
          cases ht
          exact ⟨rfl, rfl⟩
      obtain ⟨hvar, rfl⟩ := hgrow
      have := hg hvar
      simp only [State.setWpos_wpos, State.setWpos_wcap, State.setWbuf_wcap, BitVec.toNat_ofNat]
      have := Nat.mod_le (s.wpos.toNat + m) (2 ^ 64)
      omega

/-! ### The shared bodies -/

/-- WEnsure: it refuses and changes nothing but the store's coming answers, or there is room and every old byte is as it
was (R160). -/
theorem wEnsure_spec (n : Nat) (s : State) :
    (∃ q, wEnsure n s = (false, s.setGrown s.wcap s.wbuf q) ∧ s.wcap < ceil8 (s.wpos.toNat + n) ∧
      (maxBytes < ceil8 (s.wpos.toNat + n) ∨ GrowWilling s (ceil8 (s.wpos.toNat + n)) = false)) ∨
    (∃ cap mem q, wEnsure n s = (true, s.setGrown cap mem q) ∧ ceil8 (s.wpos.toNat + n) ≤ cap ∧ s.wcap ≤ cap ∧
      (s.wcap ≤ maxBytes → cap ≤ maxBytes) ∧ (∀ a, a < s.wcap → Memory.read mem a = Memory.read s.wbuf a) ∧
      (Memory.wf s.wbuf = true → Memory.wf mem = true) ∧
      (ceil8 (s.wpos.toNat + n) ≤ s.wcap → cap = s.wcap ∧ mem = s.wbuf ∧ q = s.env.grows)) := by
  unfold wEnsure
  simp only
  by_cases h1 : ceil8 (s.wpos.toNat + n) ≤ s.wcap
  · exact .inr ⟨s.wcap, s.wbuf, s.env.grows, by rw [if_pos h1]; rfl, h1, le_refl _, id, fun _ _ => rfl, id,
      fun _ => ⟨rfl, rfl, rfl⟩⟩
  · rw [if_neg h1]
    by_cases h2 : maxBytes < ceil8 (s.wpos.toNat + n)
    · exact .inl ⟨s.env.grows, by rw [if_pos h2]; rfl, by omega, .inl h2⟩
    · rw [if_neg h2]
      have e : s.wcap + (ceil8 (s.wpos.toNat + n) - s.wcap) = ceil8 (s.wpos.toNat + n) := by omega
      rcases growEnsure_cases (ceil8 (s.wpos.toNat + n) - s.wcap) s with ⟨q, h, hw⟩ | ⟨cap, mem, q, h, hlo, hhi, hr, hwf⟩
      · rw [e] at hw
        exact .inl ⟨q, h, by omega, .inr hw⟩
      · rw [e] at hlo hhi
        refine .inr ⟨cap, mem, q, h, hlo, by omega, fun _ => ?_, hr, hwf, fun h => absurd h h1⟩
        have : max (ceil8 (s.wpos.toNat + n)) maxBytes = maxBytes := max_eq_right (by omega)
        omega

/-- WBits never faults, in any state at all (R54). -/
theorem wBits_ne_error (l : U64) (n : Nat) (s : State) : ∃ run, wBits l n s = .ok run := by
  unfold wBits
  split
  · rename_i hv
    rcases wEnsure_spec n s with ⟨q, h, -⟩ | ⟨cap, mem, q, h, hroom, -⟩
    · rw [h]
      exact ⟨_, rfl⟩
    · rw [h]
      apply wChunks_ne_error (fullButLast_chunkSizes n)
      intro _
      rw [chunkSizes_sum]
      exact (ceil8_le_iff _ _).1 hroom
  · rename_i hv
    apply wChunks_ne_error (fullButLast_chunkSizes n)
    intro h
    exact absurd h hv

/-- What a whole request for `n` bits of the lane word `l` does when `k` of them are written (R162, R163). -/
structure WriterWrote (s : State) (l : U64) (n : Nat) (run : WriteRun) (k : Nat) : Prop where
  status : (run.status = .ok ∧ k = n) ∨
    (run.status = .capacity ∧ k % 8 = 0 ∧ k < n ∧ (s.cfg.wvar = .growable → k = 0))
  done   : run.done = k
  bits   : writtenBits run.post = writtenBits s ++ laneBits l k
  pos    : run.post.wpos = BitVec.ofNat 64 (s.wpos.toNat + k)
  frame  : OtherBytesKept s run.post k
  cap    : s.wcap ≤ run.post.wcap
  asked  : ceil8 (s.wpos.toNat + n) ≤ s.wcap → run.post.wcap = s.wcap ∧ run.post.env.grows = s.env.grows
  zero   : k = 0 → run.post.wbuf = s.wbuf
  ready  : WriterReady run.post
  cnt    : s.cfg.wvar = .stream → run.post.wpcnt.toNat = (s.wpcnt.toNat + k) % 8
  pushed : s.cfg.wvar = .stream → PushedUntil s n run k
  tail   : s.cfg.wvar ≠ .stream → 1 ≤ k → (s.wpos.toNat + k) % 8 ≠ 0 → TailZeroAt run.post.wbuf (s.wpos.toNat + k)
  fits   : s.cfg.wvar ≠ .stream → s.wpos.toNat + k ≤ 8 * run.post.wcap
  kept   : OtherVariantsKept s run.post
  only   : OnlyWriterMoved s run.post

theorem writtenBits_setGrown {s : State} {cap : Nat} {mem : Memory} {q : Feed GrowAnswer}
    (hv : s.cfg.wvar = .growable) (hp : s.wpos.toNat ≤ 8 * s.wcap)
    (hr : ∀ a, a < s.wcap → Memory.read mem a = Memory.read s.wbuf a) :
    writtenBits (s.setGrown cap mem q) = writtenBits s := by
  simp only [writtenBits, State.setGrown_cfg, hv, State.setGrown_wbuf, State.setGrown_wpos]
  apply bitsAt_congr
  intro j _ hj
  unfold bitAt
  rw [hr _ (by omega)]

/-- WBits: everything it can do (R162, R163), and when it completes. -/
theorem wBits_spec {n : Nat} (l : U64) (s : State) (hn : n ≤ 64) (hr : WriterReady s)
    (hp : s.cfg.wvar ≠ .stream → s.wpos.toNat ≤ 8 * s.wcap) :
    ∃ run k, wBits l n s = .ok run ∧ WriterWrote s l n run k ∧
      (RoomFor s n → run.status = .ok) ∧
      (s.cfg.wvar = .growable → run.status = .capacity → ∃ q, run.post = s.setGrown s.wcap s.wbuf q) ∧
      (s.cfg.wvar = .fixed → 8 * s.wcap < s.wpos.toNat + n →
        run.status = .capacity ∧ k = 8 * ((8 * s.wcap - s.wpos.toNat) / 8)) := by
  have hfull := fullButLast_chunkSizes n
  have hsum := chunkSizes_sum n
  unfold wBits
  by_cases hv : s.cfg.wvar = .growable
  · rw [if_pos hv]
    obtain ⟨hw, hcap⟩ := hr.2 (by simp [hv])
    have hp' := hp (by simp [hv])
    rcases wEnsure_spec n s with ⟨q, h, hlt, hwhy⟩ | ⟨cap, mem, q, h, hroom, hge, hmax, hread, hwf, hsame⟩
    · rw [h]
      have hn0 : 0 < n := by
        by_contra h0
        have : n = 0 := by omega
        subst this
        have := (ceil8_le_iff (s.wpos.toNat + 0) s.wcap).2 (by omega)
        omega
      refine ⟨_, 0, rfl, ⟨.inr ⟨rfl, rfl, hn0, fun _ => rfl⟩, rfl, by simp [writtenBits, hv, laneBits], by simp,
        fun _ _ _ => rfl, le_refl _, fun h => by omega, fun _ => rfl, hr, (fun h => by simp [hv] at h),
        (fun h => by simp [hv] at h), fun _ h => by omega, fun _ => by simpa using hp',
        ⟨fun _ => ⟨rfl, rfl, rfl, rfl⟩, fun _ => rfl, fun h => absurd hv h⟩, rfl⟩, fun hroom => ?_, fun _ _ => ⟨q, rfl⟩, fun h => by simp [hv] at h⟩
      simp only [RoomFor, hv] at hroom
      rcases hroom with h1 | ⟨h1, h2⟩
      · omega
      · rcases hwhy with h3 | h3
        · omega
        · rw [h3] at h2
          cases h2
    · rw [h]
      have hready : WriterReady (s.setGrown cap mem q) := by
        refine ⟨fun h => ?_, fun _ => ⟨hwf hw, hmax hcap⟩⟩
        simp [hv] at h
      have hroom' := (ceil8_le_iff _ _).1 hroom
      obtain ⟨run, k, hrun, hm, -⟩ := wChunks_spec hfull 0 l (s.setGrown cap mem q) (by rw [hsum]; omega) hready
        (fun _ => by rw [hsum]; exact hroom')
      rw [hsum] at hm
      have hst : run.status = .ok ∧ k = n := by
        rcases hm.status with h | ⟨-, -, -, h⟩
        · exact h
        · exact absurd hv h
      have hbits := hm.bits
      rw [writtenBits_setGrown hv hp' hread] at hbits
      have hzero : k = 0 → run.post.wbuf = s.wbuf := by
        intro hk
        obtain ⟨q', hq'⟩ := hm.zero hk
        rw [hq', State.setSink_wbuf, State.setGrown_wbuf]
        exact (hsame ((ceil8_le_iff _ _).2 (by omega))).2.1
      refine ⟨run, k, hrun, ⟨.inl hst, by simpa using hm.done, by simpa using hbits, hm.pos, fun a ha hb => ?_, ?_,
        fun hle => ?_, hzero, hm.ready, (fun h => by simp [hv] at h), (fun h => by simp [hv] at h), hm.tail, fun hs => ?_,
        OtherVariantsKept.trans (t := s.setGrown cap mem q)
          ⟨fun _ => ⟨rfl, rfl, rfl, rfl⟩, fun h => by simp [hv] at h, fun h => absurd hv h⟩ rfl hm.kept, ?_⟩, fun _ => hst.1, fun _ h => ?_, fun h => by simp [hv] at h⟩
      · by_cases hk : k = 0
        · rw [hzero hk]
        · rw [hm.frame a (by rw [State.setGrown_wpos]; omega), State.setGrown_wbuf]
          exact hread a (ha.resolve_right (fun h => h hv))
      · rw [hm.cap]
        exact hge
      · obtain ⟨h1, -, h3⟩ := hsame hle
        exact ⟨hm.cap.trans h1, hm.grows.trans h3⟩
      · rw [hm.cap, hst.2]
        exact hroom'
      · exact OnlyWriterMoved.trans (show OnlyWriterMoved s (s.setGrown cap mem q) from rfl) hm.only
      · rw [hst.1] at h
        cases h
  · rw [if_neg hv]
    obtain ⟨run, k, hrun, hm, hfix⟩ := wChunks_spec hfull 0 l s (by rw [hsum]; omega) hr (fun h => absurd h hv)
    rw [hsum] at hm hfix
    have hkn : k ≤ n := by
      rcases hm.status with ⟨-, h⟩ | ⟨-, h, -⟩ <;> omega
    have hzero : k = 0 → run.post.wbuf = s.wbuf := by
      intro hk
      obtain ⟨q, hq⟩ := hm.zero hk
      rw [hq, State.setSink_wbuf]
    refine ⟨run, k, hrun, ⟨?_, by simpa using hm.done, by simpa using hm.bits, hm.pos, fun a _ hb => ?_,
      le_of_eq hm.cap.symm, fun _ => ⟨hm.cap, hm.grows⟩, hzero, hm.ready, hm.cnt, hm.pushed, hm.tail, fun hs => ?_, hm.kept,
      hm.only⟩, fun hroom => ?_,
      fun h => absurd h hv, fun hf hlt => ?_⟩
    · rcases hm.status with h | ⟨a, b, c, -⟩
      · exact .inl h
      · exact .inr ⟨a, c, b, fun h => absurd h hv⟩
    · by_cases hk : k = 0
      · rw [hzero hk]
      · exact hm.frame a (by omega)
    · rw [hm.cap]
      have hf : s.cfg.wvar = .fixed := by
        cases h : s.cfg.wvar with
        | fixed => rfl
        | growable => exact absurd h hv
        | stream => exact absurd h hs
      obtain ⟨h1, h2⟩ := hfix hf
      have hps := hp hs
      rcases hm.status with ⟨hok, hk⟩ | ⟨hc, -⟩
      · by_contra hcon
        by_cases hne : chunkSizes n = []
        · rw [hne] at hsum
          simp at hsum
          omega
        · have := h1.2 ⟨by omega, hne⟩
          rw [hok] at this
          cases this
      · have := h2 hc hps
        omega
    · cases h : s.cfg.wvar with
      | growable => exact absurd h hv
      | stream =>
        simp only [RoomFor, h] at hroom
        exact (hm.pushed h).ok_of_willing hroom.2
      | fixed =>
        simp only [RoomFor, h] at hroom
        rcases hm.status with ⟨hok, -⟩ | ⟨hc, -⟩
        · exact hok
        · have := ((hfix h).1.1 hc).1
          omega
    · obtain ⟨h1, h2⟩ := hfix hf
      have hne : chunkSizes n ≠ [] := by
        intro he
        rw [he] at hsum
        simp at hsum
        have := hp (by simp [hf])
        omega
      have hc := h1.2 ⟨hlt, hne⟩
      exact ⟨hc, h2 hc (hp (by simp [hf]))⟩

/-- A request to write no bits is OK and changes nothing (R153, R162). -/
theorem wBits_zero (l : U64) {s : State} (hp : s.cfg.wvar = .growable → s.wpos.toNat ≤ 8 * s.wcap) :
    wBits l 0 s = .ok ⟨.ok, 0, s⟩ := by
  unfold wBits
  split
  · rename_i hv
    have hle : ceil8 (s.wpos.toNat + 0) ≤ s.wcap := (ceil8_le_iff _ _).2 (by have := hp hv; omega)
    simp only [wEnsure, if_pos hle]
    rfl
  · rfl

/-- WPushPending pushes the pending byte and advances to the next byte, does nothing when nothing is pending, or is refused
and changes nothing but the sink's coming answers (R164). -/
theorem wPushPending_cases (s : State) :
    (s.wpos.toNat % 8 = 0 ∧ wPushPending s = ⟨.ok, 0, s⟩) ∨
    (s.wpos.toNat % 8 ≠ 0 ∧ sinkAccepts s 0 = false ∧
      wPushPending s = ⟨.capacity, 0, s.setSink s.snk s.env.accepts.rest⟩) ∨
    (s.wpos.toNat % 8 ≠ 0 ∧ sinkAccepts s 0 = true ∧ wPushPending s = ⟨.ok, padBits s.wpos.toNat,
      (s.setSink (s.snk ++ [s.wpend]) s.env.accepts.rest).setWriter (alignUp s.wpos.toNat) 0 0⟩) := by
  unfold wPushPending
  simp only
  by_cases h : s.wpos.toNat % 8 = 0
  · exact .inl ⟨h, by rw [if_pos ((padBits_eq_zero_iff _).2 h)]⟩
  · rw [if_neg (fun e => h ((padBits_eq_zero_iff _).1 e))]
    rcases snkPush_cases s.wpend s with ⟨hw, hq⟩ | ⟨hw, hq⟩
    · exact .inr (.inl ⟨h, hw, by rw [hq]⟩)
    · exact .inr (.inr ⟨h, hw, by rw [hq, ← add_padBits]⟩)

end Sys2Proof.Machine
end

