-- ==== Sys2Proof/Tests/Slice0.lean ====
section
/-! SUPPORT. Tests. Expected words come from 30_encoding.md R92 and R102, expected results from the examples and vectors of
95_test_vectors.md (the section stands with each group) or by hand from the rule named. The witnesses at the end show, for
each statement with hypotheses, a state and operands that meet them all. -/

namespace Sys2Proof.Tests

open Sys2Proof Sys2Proof.Machine

/-! ### Decoding: every row's word, written out from R92 -/

theorem test_decode_pack : decode 0b0000000100001001 = .ok (.pack 9) := by decide
theorem test_decode_unpack : decode 0b0000001000100000 = .ok (.unpack 32) := by decide
theorem test_decode_rBitb : decode 0b0001000000000100 = .ok (.rBitb 4) := by decide
theorem test_decode_rByte : decode 0b0001000100000000 = .ok .rByte := by decide
theorem test_decode_rBool : decode 0b0001001000000000 = .ok .rBool := by decide
theorem test_decode_rBits : decode 0b0001001100010001 = .ok (.rBits 17) := by decide
theorem test_decode_rField : decode 0b0001010000001011 = .ok (.rField 11) := by decide
theorem test_decode_rAlign : decode 0b0001010100000000 = .ok .rAlign := by decide
theorem test_decode_rArr : decode 0b0001011000000010 = .ok (.rArr 2) := by decide
theorem test_decode_rPos : decode 0b0001011100000000 = .ok .rPos := by decide
theorem test_decode_rRst : decode 0b0001100000000000 = .ok .rRst := by decide
theorem test_decode_wBitb : decode 0b0010000000000011 = .ok (.wBitb 3) := by decide
theorem test_decode_wByte : decode 0b0010000100000000 = .ok .wByte := by decide
theorem test_decode_wBool : decode 0b0010001000000000 = .ok .wBool := by decide
theorem test_decode_wBits : decode 0b0010001100011000 = .ok (.wBits 24) := by decide
theorem test_decode_wField : decode 0b0010010000001011 = .ok (.wField 11) := by decide
theorem test_decode_wAlign : decode 0b0010010100000000 = .ok .wAlign := by decide
theorem test_decode_wGrow : decode 0b0010011000000000 = .ok .wGrow := by decide
theorem test_decode_wFlush : decode 0b0010011100000000 = .ok .wFlush := by decide
theorem test_decode_wLen : decode 0b0010100000000000 = .ok .wLen := by decide
theorem test_decode_wPos : decode 0b0010100100000000 = .ok .wPos := by decide
theorem test_decode_wRst : decode 0b0010101000000000 = .ok .wRst := by decide
theorem test_decode_sysStat : decode 0b0011000000000000 = .ok .sysStat := by decide

/-- A count outside its row's range still decodes (R100); the largest `n` of a counting row. -/
theorem test_decode_count_out_of_range : decode 0x01FF = .ok (.pack 255) ∧ decode 0x1000 = .ok (.rBitb 0) := by decide

/-- Words that match no row (R98, 95 §2.8). -/
theorem test_decode_refuses :
    decode 0x0000 = .error (.reservedOp 0x00) ∧ decode 0x0300 = .error (.reservedOp 0x03) ∧
    decode 0xFFFF = .error (.reservedOp 0xFF) ∧ decode 0x1101 = .error (.countNotZero 0x11 1) ∧
    decode 0x3001 = .error (.countNotZero 0x30 1) := by decide

/-- `W.FIELD 11` is 0x240B (R102). -/
theorem test_encode_wField : encode (.wField 11) = 0x240B := by decide

theorem test_decodeTableWord : decodeTableWord 16 0x240B = some (.wField 11) ∧ decodeTableWord 16 0x0000 = none ∧
    decodeTableWord 32 0x1100 = none := by decide

/-! ### Well-formedness: one ill-formed term for each check (R100) -/

theorem test_wellFormed_refuses :
    (Instr.pack 0).wellFormed = false ∧ (Instr.pack 65).wellFormed = false ∧
    (Instr.unpack 0).wellFormed = false ∧ (Instr.unpack 65).wellFormed = false ∧
    (Instr.rBitb 0).wellFormed = false ∧ (Instr.rBitb 9).wellFormed = false ∧
    (Instr.rBits 65).wellFormed = false ∧ (Instr.rField 0).wellFormed = false ∧
    (Instr.rField 65).wellFormed = false ∧ (Instr.rArr 9).wellFormed = false ∧
    (Instr.wBitb 0).wellFormed = false ∧ (Instr.wBitb 9).wellFormed = false ∧
    (Instr.wBits 65).wellFormed = false ∧ (Instr.wField 0).wellFormed = false ∧
    (Instr.wField 65).wellFormed = false := by decide

theorem test_wellFormed_accepts :
    (Instr.pack 64).wellFormed = true ∧ (Instr.rBits 0).wellFormed = true ∧ (Instr.rArr 8).wellFormed = true ∧
    (Instr.wBitb 8).wellFormed = true ∧ Instr.sysStat.wellFormed = true := by decide

/-! ### Small states -/

/-- A byte store in canonical form. -/
def store (bytes : List Byte) : Memory :=
  (bytes.zipIdx.filter (fun p => p.1 ≠ 0)).map (fun p => (p.2, p.1))

/-- A buffer reader over these bytes at this position. -/
def bufferReader (bytes : List Byte) (p : Nat) : State :=
  { State.reset with cfg := { defaultParams with rlen := bytes.length }, rbuf := store bytes, rpos := BitVec.ofNat 64 p }

/-- A stream reader at this position with this pending byte and these bytes to come. -/
def streamReader (src : List Byte) (p : Nat) (pend : Byte) : State :=
  { State.reset with
    cfg := { defaultParams with rvar := .stream }, src := ⟨src, .ends⟩
    rpos := BitVec.ofNat 64 p, rpend := pend, rpcnt := BitVec.ofNat 3 (p % 8) }

/-- A stream reader at a byte boundary whose source never ends and holds any bytes at all (R6). -/
def endlessReader (p : Nat) : State := { streamReader [] p 0 with src := ⟨[], .endless 0 0⟩ }

/-- A stream reader whose source answers as listed, then as that of R57. -/
def listedReader (src : List Byte) (p : Nat) (pend : Byte) (pulls : List Bool) : State :=
  { streamReader src p pend with env := { defaultEnv with pulls := ⟨pulls, .ends⟩ } }

/-- A fixed writer over these bytes at this position. -/
def fixedWriter (bytes : List Byte) (p : Nat) (o : U64) : State :=
  { State.reset with
    cfg := { defaultParams with wvar := .fixed }, wbuf := store bytes, wcap := bytes.length
    wpos := BitVec.ofNat 64 p, opnd := o }

/-- A growable writer over these bytes at this position, with the limit GROW_MAX of R57. -/
def growableWriter (bytes : List Byte) (p growMax : Nat) (o : U64) : State :=
  { State.reset with
    env := { defaultEnv with growMax := growMax }, wbuf := store bytes, wcap := bytes.length
    wpos := BitVec.ofNat 64 p, opnd := o }

/-- A stream writer at this position with this pending byte, with the limit SINK_MAX of R57. -/
def streamWriter (snk : List Byte) (p : Nat) (pend : Byte) (sinkMax : Nat) (o : U64) : State :=
  { State.reset with
    cfg := { defaultParams with wvar := .stream }, env := { defaultEnv with sinkMax := some sinkMax }, snk := snk
    wpos := BitVec.ofNat 64 p, wpend := pend, wpcnt := BitVec.ofNat 3 (p % 8), opnd := o }

/-- What the host sees of an outcome, if it is a next state. -/
def seen {α : Type} (look : State → α) (r : Result) : Option α :=
  match r with
  | .next t => some (look t)
  | .fault _ => none
  | .refused _ => none

/-- STATUS, COUNT and RESULT. -/
def response (t : State) : Status × BitVec 8 × U64 := (t.status, t.count, t.result)

/-- STATUS, COUNT and RPOS. -/
def reading (t : State) : Status × BitVec 8 × U64 := (t.status, t.count, t.rpos)

/-- STATUS, COUNT, WPOS and WBUF. -/
def writing (t : State) : Status × BitVec 8 × U64 × Memory := (t.status, t.count, t.wpos, t.wbuf)

/-- STATUS, COUNT, SNK and WPEND. -/
def pushing (t : State) : Status × BitVec 8 × List Byte × Byte := (t.status, t.count, t.snk, t.wpend)

/-! ### Codec (95 S1, §2.1) -/

theorem test_pack : seen response (exec (.pack 9) { State.reset with opnd := 0x153 }) =
    some (.ok, 2, 0xA980000000000000) := by decide

theorem test_pack_drops_high_bits : seen response (exec (.pack 7) { State.reset with opnd := 0xFFFF }) =
    some (.ok, 1, 0xFE00000000000000) := by decide

theorem test_unpack : seen response (exec (.unpack 32) { State.reset with opnd := 0xC1B2A3D4DEADBEEF }) =
    some (.ok, 4, 0xC1B2A3D4) := by decide

theorem test_unpack_zero_width : seen (fun t => (t.status, t.fault, t.fcause)) (exec (.unpack 0) State.reset) =
    some (.precond, true, 3) := by decide

/-! ### Reader (95 §2.3, §2.4 and the examples of 41_reader.md) -/

theorem test_rBitb_crosses : seen response (exec (.rBitb 8) (bufferReader [0xB3, 0x25] 3)) =
    some (.ok, 8, 0x9900000000000000) := by decide

theorem test_rBitb_stream_pending :
    seen (fun t => (response t, t.rpcnt, t.src)) (exec (.rBitb 4) (streamReader [0x34] 4 0x12)) =
      some ((.ok, 4, 0x2000000000000000), 0, ⟨[0x34], .ends⟩) := by decide

theorem test_rByte : seen response (exec .rByte (bufferReader [0x12, 0x34] 4)) =
    some (.ok, 8, 0x2300000000000000) := by decide

theorem test_rByte_stream :
    seen (fun t => (response t, t.rpend, t.rpcnt)) (exec .rByte (streamReader [0x56, 0x78] 11 0x34)) =
      some ((.ok, 8, 0xA200000000000000), 0x56, 3) := by decide

theorem test_rBool : seen response (exec .rBool (bufferReader [0x12, 0x34] 13)) = some (.ok, 1, 1) := by decide

theorem test_rBool_exhausted : seen reading (exec .rBool (streamReader [] 40 0)) = some (.eod, 0, 40) := by decide

/-- `Exhausted` while the source still holds a byte: the byte stays, and the pull is not repeated (R53, 93 U14). -/
theorem test_rBool_exhausted_holding_a_byte :
    seen (fun t => (reading t, t.src, t.env.pulls)) (exec .rBool (listedReader [0x12] 40 0 [false, true])) =
      some ((.eod, 0, 40), ⟨[0x12], .ends⟩, ⟨[true], .ends⟩) := by decide

/-- A source that never ends always has the next bits (R6). -/
theorem test_rBits_endless : seen (fun t => (reading t, t.src)) (exec (.rBits 17) (endlessReader 40)) =
    some ((.ok, 17, 57), ⟨[], .endless 0 3⟩) := by decide

theorem test_rBits_short : seen (fun t => (response t, t.rpos)) (exec (.rBits 17) (streamReader [0xAD] 3 0xDE)) =
    some ((.eod, 8, 0xF500000000000000), 11) := by decide

theorem test_rBits_all_or_nothing : seen reading (exec (.rBits 17) (bufferReader [0xDE, 0xAD] 0)) =
    some (.eod, 0, 0) := by decide

theorem test_rField : seen response (exec (.rField 11) (bufferReader [0xB3, 0x25] 0)) =
    some (.ok, 11, 0x599) := by decide

theorem test_rField_stream : seen response (exec (.rField 13) (streamReader [0x78, 0x9A] 24 0)) =
    some (.ok, 13, 0xF13) := by decide

theorem test_rAlign : seen reading (exec .rAlign (bufferReader [0xB3, 0x25] 11)) = some (.ok, 5, 16) := by decide

theorem test_rAlign_stream : seen (fun t => (reading t, t.rpend, t.rpcnt)) (exec .rAlign (streamReader [0x78] 19 0x56)) =
    some ((.ok, 5, 24), 0, 0) := by decide

theorem test_rArr : seen response (exec (.rArr 2) (bufferReader [0xB3, 0x25] 0)) =
    some (.ok, 16, 0xB325000000000000) := by decide

theorem test_rArr_past_the_end : seen reading (exec (.rArr 3) (bufferReader [0xB3, 0x25] 0)) =
    some (.eod, 0, 0) := by decide

theorem test_rPos_when_faulted : seen response (exec .rPos { bufferReader [0xB3] 3 with fault := true, fcause := 3 }) =
    some (.ok, 0, 3) := by decide

theorem test_rRst : seen (fun t => (reading t, t.rpend, t.src)) (exec .rRst (streamReader [0x34, 0x56] 5 0x12)) =
    some ((.ok, 0, 0), 0, ⟨[0x34, 0x56], .ends⟩) := by decide

/-! ### Writer (95 S3, §2.5 to §2.7) -/

theorem test_wBitb_zeroes_the_tail :
    seen writing (exec (.wBitb 3) (fixedWriter [0xFF, 0xFF] 0 0xBF00000000000000)) =
      some (.ok, 3, 3, [(0, 0xA0), (1, 0xFF)]) := by decide

theorem test_wByte_carry : seen writing (exec .wByte (fixedWriter [0, 0] 3 0xE500000000000000)) =
    some (.ok, 8, 11, [(0, 0x1C), (1, 0xA0)]) := by decide

theorem test_wByte_carry_stream : seen pushing (exec .wByte (streamWriter [] 3 0 1 0xE500000000000000)) =
    some (.ok, 8, [0x1C], 0xA0) := by decide

theorem test_wBool_reads_bit_zero : seen writing (exec .wBool (fixedWriter [0xBC, 0xA0, 0xFF] 16 0xFFFE)) =
    some (.ok, 1, 17, [(0, 0xBC), (1, 0xA0)]) := by decide

theorem test_wBits_fixed_partial : seen writing (exec (.wBits 24) (fixedWriter [0, 0] 0 0xAABBCC0000000000)) =
    some (.capacity, 16, 16, [(0, 0xAA), (1, 0xBB)]) := by decide

theorem test_wBits_stream_partial :
    seen pushing (exec (.wBits 20) (streamWriter [] 3 0xE0 1 0xAABBC00000000000)) =
      some (.capacity, 8, [0xF5], 0x40) := by decide

/-- No bits, mid-byte on a growable store: nothing changes, the garbage in the byte's tail included (R153). -/
theorem test_wBits_zero : seen writing (exec (.wBits 0) (growableWriter [0xFF] 3 9 0)) =
    some (.ok, 0, 3, [(0, 0xFF)]) := by decide

theorem test_wField_grows :
    seen (fun t => (t.count, t.wpos, t.wcap, t.wbuf)) (exec (.wField 11) (growableWriter [0x77] 0 9 0x599)) =
      some (11, 11, 2, [(0, 0xB3), (1, 0x20)]) := by decide

theorem test_wField_growable_atomic :
    seen writing (exec (.wField 24) (growableWriter [] 0 2 0xAABBCC)) = some (.capacity, 0, 0, []) := by decide

theorem test_wAlign_moves_only : seen writing (exec .wAlign (fixedWriter [0xBC, 0xA0] 11 0)) =
    some (.ok, 5, 16, [(0, 0xBC), (1, 0xA0)]) := by decide

theorem test_wAlign_stream : seen pushing (exec .wAlign (streamWriter [0x1C] 11 0xA0 2 0)) =
    some (.ok, 5, [0x1C, 0xA0], 0) := by decide

theorem test_wGrow : seen (fun t => (t.status, t.wcap, t.wpos)) (exec .wGrow (growableWriter [0xB3, 0x20] 11 18 128)) =
    some (.ok, 18, 11) := by decide

theorem test_wGrow_too_large :
    seen (fun t => (t.status, t.wcap)) (exec .wGrow (growableWriter [0xAA, 0xBB] 16 9 0xFFFFFFFFFFFFFFFF)) =
      some (.capacity, 2) := by decide

theorem test_wFlush_refused : seen pushing (exec .wFlush (streamWriter [0xF5] 11 0x40 1 0)) =
    some (.capacity, 0, [0xF5], 0x40) := by decide

theorem test_wFlush_absent : seen (fun t => (t.status, t.fcause)) (exec .wFlush (fixedWriter [] 0 0)) =
    some (.illegal, 4) := by decide

theorem test_wLen : seen response (exec .wLen (fixedWriter [0xBC, 0xA0] 11 0)) = some (.ok, 0, 2) := by decide

theorem test_wPos : seen response (exec .wPos (streamWriter [0xF5] 11 0x40 1 0)) = some (.ok, 0, 11) := by decide

theorem test_wRst_discards : seen pushing (exec .wRst (streamWriter [0xA5] 13 0xF8 1 0)) =
    some (.ok, 0, [0xA5], 0) := by decide

/-! ### System, conditions and the step (95 §2.8) -/

theorem test_sysStat : seen response (exec .sysStat { State.reset with fault := true, fcause := 3 }) =
    some (.ok, 0, 0x13) := by decide

theorem test_illegal_word : seen (fun t => (t.status, t.fault, t.fcause))
    (step { State.reset with pending := [.command 0x1101 0] }) = some (.illegal, true, 4) := by decide

theorem test_variant_before_range : seen (fun t => t.fcause) (exec (.rArr 65) (streamReader [1, 2] 0 0)) =
    some 4 := by decide

theorem test_position_overflow : seen (fun t => (reading t, t.fcause))
    (exec (.rBitb 4) (streamReader [0xFF] (2 ^ 64 - 4) 0xFF)) = some ((.posovf, 0, 0xFFFFFFFFFFFFFFFC), 5) := by decide

theorem test_step_runs_the_word : seen response (step ({ State.reset with opnd := 0x153 }.withFetchWord 16 0x0109)) =
    some (.ok, 2, 0xA980000000000000) := by decide

/-- A carried-over cursor (95 §2.4, last paragraph). -/
theorem test_reset_carries_the_cursor :
    seen (fun t => (t.rpos, t.rpend, t.rpcnt)) (step { State.reset with
      cfg := { defaultParams with rvar := .stream, rposInit := 3, rpendInit := 0xDE }, pending := [.reset] }) =
      some (3, 0xDE, 3) := by decide

theorem test_illegal_configuration :
    (match step { State.reset with cfg := { defaultParams with rposInit := 1 }, pending := [.reset] } with
      | .refused r => some r
      | .next _ => none
      | .fault _ => none) = some .configuration := by decide

/-! ### Witnesses: each theorem is named for the statement whose hypotheses it meets -/

/-- The state with FAULT set by a PRECOND. -/
def faulted (s : State) : State := { s with fault := true, fcause := 3 }

/-- The state with this command as the host's next input. -/
def issuing (w : CmdWord) (s : State) : State := { s with pending := [.command w s.opnd] }

/-- STATUS of a command that answers a next state. -/
def answered (i : Instr) (s : State) : Option Status := seen (fun t => t.status) (exec i s)

theorem next_of_answered {i : Instr} {s : State} {st : Status} (h : answered i s = some st) :
    ∃ t, exec i s = .next t ∧ t.status = st := by
  unfold answered seen at h
  split at h
  · rename_i t ht; exact ⟨t, ht, by simpa using h⟩
  · cases h
  · cases h

theorem witness_DecodedWordIsTheCommandsWord : decode 0x0109 = .ok (.pack 9) := by decide

theorem witness_AtMostOneRowSelectsAWord : ∃ r, rows[3]? = some r ∧ r.selects 0x1100 = true := ⟨_, rfl, by decide⟩

theorem witness_WordThatMatchesNoRowIsIllegal_reserved :
    (issuing 0x0000 State.reset).pending = .command 0x0000 0 :: [] ∧ (issuing 0x0000 State.reset).fault = false ∧
    (issuing 0x0000 (faulted State.reset)).fault = true ∧
    opField 0x0000 ∉ ([0x01, 0x02, 0x10, 0x11, 0x12, 0x13, 0x14, 0x15, 0x16, 0x17, 0x18, 0x20, 0x21, 0x22, 0x23, 0x24, 0x25,
      0x26, 0x27, 0x28, 0x29, 0x2A, 0x30] : List (BitVec 8)) := by decide

theorem witness_WordThatMatchesNoRowIsIllegal_count :
    opField 0x1101 ∈ ([0x11, 0x12, 0x15, 0x17, 0x18, 0x21, 0x22, 0x25, 0x26, 0x27, 0x28, 0x29, 0x2A, 0x30] :
      List (BitVec 8)) ∧ countOf 0x1101 ≠ 0 ∧ countOf 0x11FF ≠ 0 := by decide

theorem witness_StepRunsTheDecodedCommand :
    (issuing 0x0109 State.reset).pending = .command 0x0109 0 :: [] ∧ decode 0x0109 = .ok (.pack 9) := by decide

theorem witness_IdleStepKeepsTheState : State.reset.pending = [] := rfl

theorem witness_FaultedBlockPerformsOnlyTheReadouts :
    (faulted State.reset).fault = true ∧ Instr.rRst ≠ .rPos ∧ Instr.rRst ≠ .wPos ∧ Instr.rRst ≠ .sysStat ∧
    (issuing 0x3001 (faulted State.reset)).pending = .command 0x3001 0 :: [] ∧
    decode 0x3001 = .error (.countNotZero 0x30 1) := by decide

theorem witness_FatalConditionChangesOnlyFault_word :
    State.reset.fault = false ∧ (issuing 0x0300 State.reset).pending = .command 0x0300 0 :: [] ∧
    decode 0x0300 = .error (.reservedOp 3) := by decide

theorem witness_FatalConditionChangesOnlyFault_precond :
    ∃ t, exec (.pack 65) State.reset = .next t ∧ t.status = .precond := next_of_answered (by decide)

theorem witness_FatalConditionChangesOnlyFault_illegal :
    ∃ t, exec .wFlush State.reset = .next t ∧ t.status = .illegal := next_of_answered (by decide)

theorem witness_FatalConditionChangesOnlyFault_posovf :
    ∃ t, exec .rBool (streamReader [0xFF] (2 ^ 64 - 1) 0xFF) = .next t ∧ t.status = .posovf := next_of_answered (by decide)

theorem witness_RecoverableConditionLeavesFaultAlone :
    (∃ t, exec (.rBits 0) State.reset = .next t ∧ t.status = .ok) ∧
    (∃ t, exec .rByte State.reset = .next t ∧ t.status = .eod) ∧
    (∃ t, exec .wByte (fixedWriter [] 0 0) = .next t ∧ t.status = .capacity) :=
  ⟨next_of_answered (by decide), next_of_answered (by decide), next_of_answered (by decide)⟩

theorem witness_NoCommandLeavesTheFaultedState :
    (issuing 0x1800 (faulted State.reset)).fault = true ∧
    (issuing 0x1800 (faulted State.reset)).pending = .command 0x1800 0 :: [] ∧
    ∃ t, step (issuing 0x1800 (faulted State.reset)) = .next t := ⟨rfl, rfl, _, rfl⟩

theorem witness_PrecondIsACountOutOfRange :
    State.reset.fault = false ∧ (Instr.rArr 9).availableIn State.reset.cfg = true ∧ (Instr.rArr 9).wellFormed = false ∧
    (Instr.wBitb 0).availableIn State.reset.cfg = true ∧ (Instr.wBitb 0).wellFormed = false := by decide

theorem witness_PrecondIsACountOutOfRange_raised :
    ∃ t, exec (.rArr 9) State.reset = .next t ∧ t.status = .precond := next_of_answered (by decide)

theorem witness_AbsentCommandIsIllegal :
    (streamReader [] 0 0).fault = false ∧ (streamReader [] 0 0).cfg.rvar = .stream ∧
    (fixedWriter [] 0 0).fault = false ∧ (fixedWriter [] 0 0).cfg.wvar ≠ .growable ∧ (fixedWriter [] 0 0).cfg.wvar ≠ .stream ∧
    (streamWriter [] 0 0 0 0).fault = false ∧ (streamWriter [] 0 0 0 0).cfg.wvar = .stream := by decide

theorem witness_AbsentCommandIsIllegal_raised :
    ∃ t, exec .wLen (streamWriter [] 0 0 0 0) = .next t ∧ t.status = .illegal := next_of_answered (by decide)

theorem witness_PositionOverflowStopsBeforeAnyTransfer_read :
    (streamReader [] (2 ^ 64 - 1) 0xFF).fault = false ∧ (streamReader [] (2 ^ 64 - 1) 0xFF).cfg.rvar = .stream ∧
    Instr.rBool.availableIn (streamReader [] (2 ^ 64 - 1) 0xFF).cfg = true ∧ Instr.rBool.wellFormed = true ∧
    Instr.rBool.readBits = some 1 ∧ 2 ^ 64 - 1 < (streamReader [] (2 ^ 64 - 1) 0xFF).rpos.toNat + 1 ∧
    2 ^ 64 - 1 < (streamReader [] (2 ^ 64 - 3) 0xFF).rpos.toNat + padBits (streamReader [] (2 ^ 64 - 3) 0xFF).rpos.toNat := by
  decide

theorem witness_PositionOverflowStopsBeforeAnyTransfer_write :
    (streamWriter [] (2 ^ 64 - 1) 0 9 0).fault = false ∧ (streamWriter [] (2 ^ 64 - 1) 0 9 0).cfg.wvar = .stream ∧
    Instr.wBool.wellFormed = true ∧ Instr.wBool.operandBits 0 = some [false] ∧
    2 ^ 64 - 1 < (streamWriter [] (2 ^ 64 - 1) 0 9 0).wpos.toNat + 1 ∧
    2 ^ 64 - 1 < (streamWriter [] (2 ^ 64 - 3) 0 9 0).wpos.toNat + padBits (streamWriter [] (2 ^ 64 - 3) 0 9 0).wpos.toNat := by
  decide

theorem witness_PackShiftsTheValueToTheTop :
    State.reset.fault = false ∧ (faulted State.reset).fault = true ∧ 1 ≤ (1 : BitVec 8).toNat ∧ (64 : BitVec 8).toNat ≤ 64 ∧
    (0 : BitVec 8).toNat = 0 ∧ 64 < (65 : BitVec 8).toNat := by decide

theorem witness_UnpackShiftsTheFieldToTheBottom :
    State.reset.fault = false ∧ (faulted State.reset).fault = true ∧ 1 ≤ (1 : BitVec 8).toNat ∧ (64 : BitVec 8).toNat ≤ 64 ∧
    (0 : BitVec 8).toNat = 0 ∧ 64 < (65 : BitVec 8).toNat := by decide

theorem witness_CodecLaws : 1 ≤ 64 ∧ 64 ≤ 64 ∧ (0xFFFFFFFFFFFFFFFF : U64).toNat < 2 ^ 64 ∧ (1 : U64).toNat < 2 ^ 1 := by decide

theorem witness_PackThenUnpackGivesTheValue : State.reset.fault = false ∧ 1 ≤ (9 : BitVec 8).toNat ∧ (9 : BitVec 8).toNat ≤ 64 := by
  decide

theorem witness_BufferReadsReturnTheExtractedBits :
    (bufferReader [1, 2, 3, 4, 5, 6, 7, 8] 0).fault = false ∧ (bufferReader [1, 2, 3, 4, 5, 6, 7, 8] 0).cfg.rvar = .buffer ∧
    (bufferReader [1, 2, 3, 4, 5, 6, 7, 8] 0).cfg.rlen ≤ 2 ^ 61 - 1 ∧
    (bufferReader [1, 2, 3, 4, 5, 6, 7, 8] 0).rpos.toNat + (64 : BitVec 8).toNat ≤
      8 * (bufferReader [1, 2, 3, 4, 5, 6, 7, 8] 0).cfg.rlen ∧
    (bufferReader [1, 2, 3, 4, 5, 6, 7, 8] 0).rpos.toNat + 8 * (8 : BitVec 8).toNat ≤
      8 * (bufferReader [1, 2, 3, 4, 5, 6, 7, 8] 0).cfg.rlen ∧
    (bufferReader [1, 2] 8).rpos.toNat + 8 ≤ 8 * (bufferReader [1, 2] 8).cfg.rlen ∧
    (bufferReader [1, 2] 15).rpos.toNat + 1 ≤ 8 * (bufferReader [1, 2] 15).cfg.rlen := by decide

theorem witness_BufferReadPastTheEndChangesNothing :
    (bufferReader [1, 2] 0).fault = false ∧ (bufferReader [1, 2] 0).cfg.rvar = .buffer ∧ (Instr.rBits 17).wellFormed = true ∧
    (Instr.rBits 17).readBits = some 17 ∧ (Instr.rField 17).readBits = some 17 ∧ (Instr.rField 17).wellFormed = true ∧
    8 * (bufferReader [1, 2] 0).cfg.rlen < (bufferReader [1, 2] 0).rpos.toNat + 17 := by decide

theorem witness_ReadsWithEnoughBitsComplete_buffer :
    (bufferReader [1, 2] 5).fault = false ∧ (Instr.rBits 11).availableIn (bufferReader [1, 2] 5).cfg = true ∧
    (Instr.rBits 11).wellFormed = true ∧ (Instr.rBits 11).readBits = some 11 ∧
    (unreadBits 11 (bufferReader [1, 2] 5)).length = 11 ∧
    ((bufferReader [1, 2] 5).cfg.rvar = .buffer → (bufferReader [1, 2] 5).cfg.rlen ≤ 2 ^ 61 - 1 ∧
      (bufferReader [1, 2] 5).rpos.toNat ≤ 8 * (bufferReader [1, 2] 5).cfg.rlen) ∧
    ((bufferReader [1, 2] 5).cfg.rvar = .stream → (bufferReader [1, 2] 5).rpos.toNat + 11 ≤ 2 ^ 64 - 1 ∧
      SourceWilling (bufferReader [1, 2] 5) (pullsNeeded (bufferReader [1, 2] 5).rpcnt.toNat 11)) := by decide

theorem witness_ReadsWithEnoughBitsComplete_stream :
    (streamReader [1, 2] 5 0x12).fault = false ∧ (Instr.rField 19).availableIn (streamReader [1, 2] 5 0x12).cfg = true ∧
    (Instr.rField 19).wellFormed = true ∧ (Instr.rField 19).readBits = some 19 ∧
    (unreadBits 19 (streamReader [1, 2] 5 0x12)).length = 19 ∧
    ((streamReader [1, 2] 5 0x12).cfg.rvar = .buffer → (streamReader [1, 2] 5 0x12).cfg.rlen ≤ 2 ^ 61 - 1 ∧
      (streamReader [1, 2] 5 0x12).rpos.toNat ≤ 8 * (streamReader [1, 2] 5 0x12).cfg.rlen) ∧
    ((streamReader [1, 2] 5 0x12).cfg.rvar = .stream → (streamReader [1, 2] 5 0x12).rpos.toNat + 19 ≤ 2 ^ 64 - 1 ∧
      SourceWilling (streamReader [1, 2] 5 0x12) (pullsNeeded (streamReader [1, 2] 5 0x12).rpcnt.toNat 19)) := by decide

/-- A request for no bits, at the end of a buffer and on an empty stream. -/
theorem witness_ReadsWithEnoughBitsComplete_none :
    (Instr.rBits 0).wellFormed = true ∧ (Instr.rBits 0).readBits = some 0 ∧
    (unreadBits 0 (bufferReader [1] 8)).length = 0 ∧ (unreadBits 0 (streamReader [] 5 0x12)).length = 0 ∧
    SourceWilling (streamReader [] 5 0x12) (pullsNeeded (streamReader [] 5 0x12).rpcnt.toNat 0) := by decide

/-- A source that never ends. -/
theorem witness_ReadsWithEnoughBitsComplete_endless :
    (endlessReader 40).fault = false ∧ (Instr.rBits 64).availableIn (endlessReader 40).cfg = true ∧
    (Instr.rBits 64).wellFormed = true ∧ (Instr.rBits 64).readBits = some 64 ∧
    (unreadBits 64 (endlessReader 40)).length = 64 ∧ (endlessReader 40).rpos.toNat + 64 ≤ 2 ^ 64 - 1 ∧
    SourceWilling (endlessReader 40) (pullsNeeded (endlessReader 40).rpcnt.toNat 64) := by decide

theorem witness_ShortStreamReadDeliversWholeBytes :
    (streamReader [0xAD] 3 0xDE).fault = false ∧ (streamReader [0xAD] 3 0xDE).cfg.rvar = .stream ∧
    (Instr.rBits 17).availableIn (streamReader [0xAD] 3 0xDE).cfg = true ∧ (Instr.rBits 17).wellFormed = true ∧
    (Instr.rBits 17).readBits = some 17 ∧ (streamReader [0xAD] 3 0xDE).rpos.toNat + 17 ≤ 2 ^ 64 - 1 ∧
    SourceWilling (streamReader [0xAD] 3 0xDE) (pullsNeeded (streamReader [0xAD] 3 0xDE).rpcnt.toNat 17) ∧
    (unreadBits 17 (streamReader [0xAD] 3 0xDE)).length < 17 := by decide

/-- Exhausted at the first pull and at the second of two, the source holding bytes both times. -/
theorem witness_StreamReadsStopAtTheExhaustedPull :
    (listedReader [1, 2, 3] 5 0x12 [true, false, true]).fault = false ∧
    (listedReader [1, 2, 3] 5 0x12 [true, false, true]).cfg.rvar = .stream ∧
    (Instr.rBits 19).availableIn (listedReader [1, 2, 3] 5 0x12 [true, false, true]).cfg = true ∧
    (Instr.rBits 19).wellFormed = true ∧ (Instr.rBits 19).readBits = some 19 ∧
    (listedReader [1, 2, 3] 5 0x12 [true, false, true]).rpos.toNat + 19 ≤ 2 ^ 64 - 1 ∧
    (listedReader [1, 2, 3] 5 0x12 [true, false, true]).env.pulls = ⟨List.replicate 1 true ++ false :: [true], .ends⟩ ∧
    ((listedReader [1, 2, 3] 5 0x12 [true, false, true]).src.take Config.endlessByte 1).length = 1 ∧
    1 < pullsNeeded (listedReader [1, 2, 3] 5 0x12 [true, false, true]).rpcnt.toNat 19 ∧
    (listedReader [1, 2, 3] 5 0x12 [false, true]).env.pulls = ⟨List.replicate 0 true ++ false :: [true], .ends⟩ ∧
    0 < pullsNeeded (listedReader [1, 2, 3] 5 0x12 [false, true]).rpcnt.toNat 4 := by decide

theorem witness_ReadsConsumeExactlyWhatTheyReport :
    (Instr.rBits 17).readBits = some 17 ∧
    ((bufferReader [1, 2, 3] 0).cfg.rlen ≤ 2 ^ 61 - 1 ∧
      (bufferReader [1, 2, 3] 0).rpos.toNat ≤ 8 * (bufferReader [1, 2, 3] 0).cfg.rlen) ∧
    (∃ t, exec (.rBits 17) (bufferReader [1, 2, 3] 0) = .next t ∧ t.status = .ok) ∧
    (∃ t, exec (.rBits 17) (bufferReader [1, 2] 0) = .next t ∧ t.status = .eod) ∧
    (∃ t, exec (.rBits 17) (streamReader [0xAD] 3 0xDE) = .next t ∧ t.status = .eod) :=
  ⟨by decide, by decide, next_of_answered (by decide), next_of_answered (by decide), next_of_answered (by decide)⟩

/-- The five bits left of 0xB3, 0x25 after 11 are read, whichever store holds them. -/
theorem witness_same_bits (h : Nat) :
    unreadBits h (streamReader [] 11 0x25) = unreadBits h (bufferReader [0xB3, 0x25] 11) := by
  have hs : unreadBits h (streamReader [] 11 0x25) = (bitsAt (bufferReader [0xB3, 0x25] 11).rbuf 11 5).take h := by
    rw [unreadBits_stream rfl (a := h) (by omega), sourceBits_ended rfl, List.append_nil]
    congr 1
  rw [hs, unreadBits_buffer rfl]
  change _ = bitsAt _ 11 (min h 5)
  rw [← bitsAt_take (bufferReader [0xB3, 0x25] 11).rbuf 11 5 (min h 5) (by omega), List.take_eq_take_iff]
  simp

theorem witness_willing (j : Nat) : sourceAnswers (streamReader [] 11 0x25) j = true := by
  induction j with
  | zero => rfl
  | succ j ih => exact ih

/-- The buffer reader and the stream reader over 0xB3, 0x25, both with 11 bits read; the 5 bits left are all that is asked. -/
theorem witness_StreamAndBufferReadersAgree :
    SameBitsToCome (bufferReader [0xB3, 0x25] 11) (streamReader [] 11 0x25) ∧ (Instr.rField 5).wellFormed = true ∧
    (∀ m, Instr.rField 5 ≠ .rArr m) ∧ (Instr.rField 5).readBits = some 5 ∧
    (unreadBits 5 (bufferReader [0xB3, 0x25] 11)).length = 5 ∧ Instr.rAlign.wellFormed = true ∧ Instr.rPos.wellFormed = true :=
  ⟨⟨by decide, by decide, by decide, by decide, by decide, by decide, by decide, by decide, witness_same_bits,
      fun _ j _ => witness_willing j⟩, by decide, nofun, by decide, by decide, by decide, by decide⟩

theorem witness_ShortReadsAreOneCommand :
    1 ≤ (1 : BitVec 8).toNat ∧ (8 : BitVec 8).toNat ≤ 8 ∧ (bufferReader [0xB3] 0).cfg.rvar = .buffer := by decide

theorem witness_FieldReadIsUnpackOfBitsRead :
    1 ≤ (64 : BitVec 8).toNat ∧ (64 : BitVec 8).toNat ≤ 64 ∧
    (∃ t, exec (.rBits 64) (bufferReader [1, 2, 3, 4, 5, 6, 7, 8] 0) = .next t ∧ t.status = .ok) ∧
    (∃ t, exec (.rBits 64) (bufferReader [1, 2] 0) = .next t ∧ t.status = .eod) :=
  ⟨by decide, by decide, next_of_answered (by decide), next_of_answered (by decide)⟩

/-- The state after R.BITS 8 of 0xB3, 0x25. -/
theorem witness_SplitReadIsTheWholeRead :
    (8 : BitVec 8).toNat % 8 = 0 ∧ (8 : BitVec 8).toNat + (3 : BitVec 8).toNat ≤ 64 ∧
    (bufferReader [0xB3, 0x25] 0).cfg.rlen ≤ 2 ^ 61 - 1 ∧
    ∃ t u, exec (.rBits 8) (bufferReader [0xB3, 0x25] 0) = .next t ∧ t.status = .ok ∧ exec (.rBits 3) t = .next u ∧
      u.status = .ok := ⟨by decide, by decide, by decide, _, _, rfl, by decide, rfl, by decide⟩

theorem witness_ReaderAlignAdvancesToTheByteBoundary :
    (bufferReader [1, 2] 11).fault = false ∧ (bufferReader [1, 2] 11).cfg.rvar = .buffer ∧
    (streamReader [] (2 ^ 64 - 9) 1).fault = false ∧ alignUp (streamReader [] (2 ^ 64 - 9) 1).rpos.toNat ≤ 2 ^ 64 - 1 ∧
    (streamReader [] (2 ^ 64 - 7) 1).fault = false ∧ (streamReader [] (2 ^ 64 - 7) 1).cfg.rvar = .stream ∧
    2 ^ 64 - 1 < alignUp (streamReader [] (2 ^ 64 - 7) 1).rpos.toNat := by decide

theorem witness_ReaderAlignAdvancesToTheByteBoundary_again :
    ∃ t, exec .rAlign (bufferReader [1, 2] 11) = .next t ∧ t.status = .ok := next_of_answered (by decide)

theorem witness_SoftResetsClearOneCursor : State.reset.fault = false ∧ (faulted State.reset).fault = true := by decide

theorem witness_ReadoutsAnswerTheRegisters :
    (fixedWriter [1, 2] 11 0).fault = false ∧ (fixedWriter [1, 2] 11 0).cfg.wvar ≠ .stream := by decide

/-- Room in each variant, the fixed buffer and the sink filled exactly. -/
theorem witness_WritesWithRoomComplete :
    (Inv (fixedWriter [0xA0, 0] 3 0) ∧ (fixedWriter [0xA0, 0] 3 0).fault = false ∧ RoomFor (fixedWriter [0xA0, 0] 3 0) 13) ∧
    (Inv (growableWriter [0xA0] 3 2 0) ∧ (growableWriter [0xA0] 3 2 0).fault = false ∧ RoomFor (growableWriter [0xA0] 3 2 0) 13) ∧
    (Inv (streamWriter [] 3 0xA0 2 0) ∧ (streamWriter [] 3 0xA0 2 0).fault = false ∧ RoomFor (streamWriter [] 3 0xA0 2 0) 13) ∧
    (Instr.wBits 13).wellFormed = true ∧ (Instr.wBits 13).operandBits 0 = some (List.replicate 13 false) :=
  ⟨⟨by decide, by decide, by change _ ≤ _; decide⟩, ⟨by decide, by decide, by change _ ∨ _; decide⟩,
    ⟨by decide, by decide, by change _ ∧ _; decide⟩, by decide, by decide⟩

/-- A growable store that covers the need exactly, and so is not asked. -/
theorem witness_WritesWithRoomComplete_covered :
    Inv (growableWriter [0xA0, 0] 3 2 0) ∧ (growableWriter [0xA0, 0] 3 2 0).fault = false ∧
    RoomFor (growableWriter [0xA0, 0] 3 2 0) 13 ∧
    ceil8 ((growableWriter [0xA0, 0] 3 2 0).wpos.toNat + 13) ≤ (growableWriter [0xA0, 0] 3 2 0).wcap :=
  ⟨by decide, by decide, by change _ ∨ _; decide, by decide⟩

/-- No bits, mid-byte on a growable store that would refuse to grow. -/
theorem witness_WritesWithRoomComplete_none :
    Inv (growableWriter [0xFF] 3 0 0) ∧ (growableWriter [0xFF] 3 0 0).fault = false ∧ (Instr.wBits 0).wellFormed = true ∧
    (Instr.wBits 0).operandBits (growableWriter [0xFF] 3 0 0).opnd = some [] ∧
    RoomFor (growableWriter [0xFF] 3 0 0) ([] : List Bool).length :=
  ⟨by decide, by decide, by decide, by decide, by change _ ∨ _; decide⟩

theorem witness_WritesAppendExactlyWhatTheyReport_none :
    ∃ t, exec (.wBits 0) (growableWriter [0xFF] 3 0 0) = .next t ∧ t.status = .ok := next_of_answered (by decide)

theorem witness_WritesAppendExactlyWhatTheyReport :
    Inv (fixedWriter [0xA0] 3 0) ∧ (Instr.wBits 13).operandBits (fixedWriter [0xA0] 3 0).opnd = some (List.replicate 13 false) ∧
    (∃ t, exec (.wBits 13) (fixedWriter [0xA0] 3 0) = .next t ∧ t.status = .capacity) ∧
    (∃ t, exec (.wBits 13) (fixedWriter [0xA0, 0] 3 0) = .next t ∧ t.status = .ok) :=
  ⟨by decide, by decide, next_of_answered (by decide), next_of_answered (by decide)⟩

theorem witness_GrowableWritesAreAllOrNothing :
    (growableWriter [0xA0] 3 1 0).fault = false ∧ (growableWriter [0xA0] 3 1 0).cfg.wvar = .growable ∧
    (Instr.wBits 13).wellFormed = true ∧ (Instr.wBits 13).operandBits 0 = some (List.replicate 13 false) ∧
    (growableWriter [0xA0] 3 1 0).wcap < ceil8 ((growableWriter [0xA0] 3 1 0).wpos.toNat + 13) ∧
    GrowWilling (growableWriter [0xA0] 3 1 0) (ceil8 ((growableWriter [0xA0] 3 1 0).wpos.toNat + 13)) = false := by decide

theorem witness_FixedWritesCommitTheBytesThatFit :
    Inv (fixedWriter [0xA0] 3 0) ∧ (fixedWriter [0xA0] 3 0).fault = false ∧ (fixedWriter [0xA0] 3 0).cfg.wvar = .fixed ∧
    (Instr.wBits 13).wellFormed = true ∧ (Instr.wBits 13).operandBits 0 = some (List.replicate 13 false) ∧
    8 * (fixedWriter [0xA0] 3 0).wcap < (fixedWriter [0xA0] 3 0).wpos.toNat + 13 := by decide

/-- A stream writer whose sink answers as listed. -/
def scriptedWriter (accepts : List Bool) : State :=
  { streamWriter [] 3 0xA0 9 0 with env := { defaultEnv with accepts := ⟨accepts, .ends⟩ } }

theorem witness_StreamWritesStopAtTheRefusedPush :
    Inv (scriptedWriter [true, false, true]) ∧ (scriptedWriter [true, false, true]).fault = false ∧
    (scriptedWriter [true, false, true]).cfg.wvar = .stream ∧ (Instr.wBits 13).wellFormed = true ∧
    (Instr.wBits 13).operandBits 0 = some (List.replicate 13 false) ∧
    (scriptedWriter [true, false, true]).wpos.toNat + 13 ≤ 2 ^ 64 - 1 ∧
    (scriptedWriter [true, false, true]).env.accepts = ⟨List.replicate 1 true ++ false :: [true], .ends⟩ ∧
    1 < ((scriptedWriter [true, false, true]).wpcnt.toNat + 13) / 8 := by decide

theorem witness_ShortWritesAreOneCommand :
    1 ≤ (1 : BitVec 8).toNat ∧ (8 : BitVec 8).toNat ≤ 8 ∧ 1 ≤ (64 : BitVec 8).toNat ∧ (64 : BitVec 8).toNat ≤ 64 ∧
    ∃ t, exec (.wField 64) (growableWriter [] 0 8 5) = .next t ∧ t.status = .ok :=
  ⟨by decide, by decide, by decide, by decide, next_of_answered (by decide)⟩

theorem witness_WriterAlignOnABufferOnlyMovesThePosition :
    (fixedWriter [0xA0] 3 0).fault = false ∧ (fixedWriter [0xA0] 3 0).cfg.wvar ≠ .stream ∧ Inv (fixedWriter [0xA0] 3 0) ∧
    TailZero (fixedWriter [0xA0] 3 0) ∧ ∃ t, exec .wAlign (fixedWriter [0xA0] 3 0) = .next t :=
  ⟨by decide, by decide, by decide, by decide, _, rfl⟩

theorem witness_FlushPushesThePendingByte_aligned :
    (streamWriter [] 8 0 1 0).fault = false ∧ (streamWriter [] 8 0 1 0).cfg.wvar = .stream ∧
    (streamWriter [] 8 0 1 0).wpos.toNat % 8 = 0 := by decide

theorem witness_FlushPushesThePendingByte_pushed :
    (streamWriter [] 3 0xA0 1 0).wpos.toNat % 8 ≠ 0 ∧ alignUp (streamWriter [] 3 0xA0 1 0).wpos.toNat ≤ 2 ^ 64 - 1 ∧
    SinkWilling (streamWriter [] 3 0xA0 1 0) 1 := by decide

theorem witness_FlushPushesThePendingByte_refused :
    (streamWriter [] 3 0xA0 0 0).wpos.toNat % 8 ≠ 0 ∧ alignUp (streamWriter [] 3 0xA0 0 0).wpos.toNat ≤ 2 ^ 64 - 1 ∧
    ¬ SinkWilling (streamWriter [] 3 0xA0 0 0) 1 := by decide

theorem witness_FlushPushesThePendingByte_overflow :
    2 ^ 64 - 1 < alignUp (streamWriter [] (2 ^ 64 - 7) 0xA0 1 0).wpos.toNat ∧ (fixedWriter [] 0 0).fault = false ∧
    (fixedWriter [] 0 0).cfg.wvar ≠ .stream := by decide

theorem witness_WriterAlignIsIdempotent :
    ∃ t, exec .wFlush (streamWriter [] 3 0xA0 1 0) = .next t ∧ t.status = .ok := next_of_answered (by decide)

/-- The five cases of W.GROW at the limits where they meet. -/
theorem witness_GrowReservesCapacityOnly :
    (fixedWriter [] 0 0).fault = false ∧ (fixedWriter [] 0 0).cfg.wvar ≠ .growable ∧
    (growableWriter [1] 3 1 5).cfg.wvar = .growable ∧
    ceil8 ((growableWriter [1] 3 1 5).wpos.toNat + (growableWriter [1] 3 1 5).opnd.toNat) ≤ (growableWriter [1] 3 1 5).wcap ∧
    (growableWriter [1] 3 1 6).wcap < ceil8 ((growableWriter [1] 3 1 6).wpos.toNat + (growableWriter [1] 3 1 6).opnd.toNat) ∧
    GrowWilling (growableWriter [1] 3 1 6) (ceil8 ((growableWriter [1] 3 1 6).wpos.toNat + (growableWriter [1] 3 1 6).opnd.toNat)) =
      false ∧
    GrowWilling (growableWriter [1] 3 2 6) (ceil8 ((growableWriter [1] 3 2 6).wpos.toNat + (growableWriter [1] 3 2 6).opnd.toNat)) =
      true ∧
    2 ^ 61 - 1 < ceil8 ((growableWriter [1] 3 1 0xFFFFFFFFFFFFFFFF).wpos.toNat +
      (growableWriter [1] 3 1 0xFFFFFFFFFFFFFFFF).opnd.toNat) := by decide

theorem witness_CommittedBitsAreNeverCorrupted :
    Inv (fixedWriter [0xA0, 0] 3 0) ∧ ∃ t, exec .wByte (fixedWriter [0xA0, 0] 3 0) = .next t ∧ t.status = .ok :=
  ⟨by decide, next_of_answered (by decide)⟩

/-- The reader that reads back the 5-bit field 0b10110 written at position 3 after 0b101. -/
theorem witness_FieldWrittenIsReadBack :
    Inv (fixedWriter [0xA0] 3 0x16) ∧ (fixedWriter [0xA0] 3 0x16).fault = false ∧
    (fixedWriter [0xA0] 3 0x16).cfg.wvar ≠ .stream ∧ 1 ≤ (5 : BitVec 8).toNat ∧ (5 : BitVec 8).toNat ≤ 64 ∧
    RoomFor (fixedWriter [0xA0] 3 0x16) (5 : BitVec 8).toNat ∧
    seen (fun t => t.wbuf) (exec (.wField 5) (fixedWriter [0xA0] 3 0x16)) = some (bufferReader [0xB6] 3).rbuf ∧
    (bufferReader [0xB6] 3).fault = false ∧ (bufferReader [0xB6] 3).cfg.rvar = .buffer ∧
    (bufferReader [0xB6] 3).cfg.rlen ≤ 2 ^ 61 - 1 ∧ (bufferReader [0xB6] 3).rpos = (fixedWriter [0xA0] 3 0x16).wpos ∧
    (bufferReader [0xB6] 3).rpos.toNat + (5 : BitVec 8).toNat ≤ 8 * (bufferReader [0xB6] 3).cfg.rlen :=
  ⟨by decide, by decide, by decide, by decide, by decide, by change _ ≤ _; decide, by decide, by decide, by decide, by decide,
    by decide, by decide⟩

/-- The two fields of the spec's end-to-end scenario (95 S5). -/
def scenario : List (BitVec 8 × U64) := [(11, 0x599), (5, 0x05)]

theorem test_scenario_reads_back :
    readFields (scenario.map (fun f => f.1)) (bufferReader [0xB3, 0x25] 0) = some [0x599, 0x5] := by decide

theorem witness_FieldSequenceWrittenIsReadBack_buffer :
    Inv (fixedWriter [0, 0] 0 0) ∧ (fixedWriter [0, 0] 0 0).wpos = 0 ∧ (fixedWriter [0, 0] 0 0).cfg.wvar ≠ .stream ∧
    (bufferReader [0xB3, 0x25] 0).fault = false ∧ (bufferReader [0xB3, 0x25] 0).cfg.rvar = .buffer ∧
    (bufferReader [0xB3, 0x25] 0).rpos = 0 ∧ (bufferReader [0xB3, 0x25] 0).cfg.rlen ≤ 2 ^ 61 - 1 ∧
    ∃ t, writeFields scenario (fixedWriter [0, 0] 0 0) = some t ∧
      (bufferReader [0xB3, 0x25] 0).cfg.rlen = ceil8 t.wpos.toNat ∧
      ∀ a, a < (bufferReader [0xB3, 0x25] 0).cfg.rlen →
        Memory.read (bufferReader [0xB3, 0x25] 0).rbuf a = Memory.read t.wbuf a :=
  ⟨by decide, by decide, by decide, by decide, by decide, by decide, by decide, _, rfl, by decide, by decide⟩

/-- Only the 11-bit field, so that the flush has a byte to push. -/
theorem witness_FieldSequenceWrittenIsReadBack_stream :
    Inv (streamWriter [] 0 0 2 0) ∧ (streamWriter [] 0 0 2 0).wpos = 0 ∧ (streamWriter [] 0 0 2 0).cfg.wvar = .stream ∧
    (streamWriter [] 0 0 2 0).snk = [] ∧
    ∃ t v, writeFields [(11, 0x599)] (streamWriter [] 0 0 2 0) = some t ∧ exec .wFlush t = .next v ∧ v.status = .ok ∧
      (bufferReader [0xB3, 0x20] 0).cfg.rlen = v.snk.length ∧
      ∀ a, a < (bufferReader [0xB3, 0x20] 0).cfg.rlen →
        some (Memory.read (bufferReader [0xB3, 0x20] 0).rbuf a) = v.snk[a]? :=
  ⟨by decide, by decide, by decide, by decide, _, _, rfl, rfl, by decide, by decide, by decide⟩

theorem witness_CommandsTouchOnlyTheirOwnUnit :
    (∃ t, exec .wByte (fixedWriter [0xA0, 0] 3 0) = .next t ∧ t.status = .ok) ∧ Instr.wByte.isReader = false ∧
    (∃ t, exec .rByte (bufferReader [0xA0] 0) = .next t ∧ t.status = .ok) ∧ Instr.rByte.isWriter = false :=
  ⟨next_of_answered (by decide), by decide, next_of_answered (by decide), by decide⟩

theorem witness_UnreadOperandBitsHaveNoEffect :
    Instr.wBool.operandBits 1 = some [true] ∧ Instr.wBool.operandBits 0xFFFFFFFFFFFFFFFF = some [true] ∧
    (∃ t, exec .wBool (fixedWriter [0] 0 1) = .next t ∧ t.status = .ok) ∧
    Instr.rByte.operandBits 7 = none ∧ (∀ n, Instr.rByte ≠ .pack n) ∧ (∀ n, Instr.rByte ≠ .unpack n) ∧ Instr.rByte ≠ .wGrow :=
  ⟨by decide, by decide, next_of_answered (by decide), by decide, nofun, nofun, by decide⟩

theorem witness_HardwareResetLoadsTheRegisters :
    Params.valid (faulted State.reset).cfg = true ∧
    ({ faulted State.reset with pending := [.reset] } : State).pending = .reset :: [] := by decide

/-- A binding of an empty reader buffer to a block with these parameters. -/
def binding (c : Params) : Binding := { cfg := c, rbuf := [], src := ⟨[], .ends⟩, wbuf := [], env := defaultEnv }

theorem witness_ConfigurationIsRefusedExactlyWhenIllegal :
    Memory.wf (binding defaultParams).rbuf = true ∧ Memory.wf (binding defaultParams).wbuf = true ∧
    Params.valid (binding { defaultParams with rlen := 2 ^ 61 - 1, rposInit := 2 ^ 64 - 8 }).cfg = true ∧
    Params.valid (binding { defaultParams with rlen := 2 ^ 61 }).cfg = false ∧
    Params.valid (binding { defaultParams with rlen := 1, rposInit := 9 }).cfg = false ∧
    Params.valid (binding { defaultParams with wvar := .stream, wposInit := 3, wpendInit := 0x10 }).cfg = false := by decide

theorem witness_StepKeepsTheInvariants :
    Inv (issuing 0x2100 (fixedWriter [0xA0, 0] 3 0)) ∧
    ∃ t, step (issuing 0x2100 (fixedWriter [0xA0, 0] 3 0)) = .next t := ⟨by decide, _, rfl⟩

theorem witness_StepKeepsTheInProgressTailZero :
    Inv (issuing 0x2100 (fixedWriter [0xA0, 0] 3 0)) ∧ TailZero (issuing 0x2100 (fixedWriter [0xA0, 0] 3 0)) ∧
    BootReady (issuing 0x2100 (fixedWriter [0xA0, 0] 3 0)) ∧
    ∃ t, step (issuing 0x2100 (fixedWriter [0xA0, 0] 3 0)) = .next t := ⟨by decide, by decide, trivial, _, rfl⟩

end Sys2Proof.Tests
end

/-! PROOFS. Frames across the units (00_scope.md R2, 20_memory.md R50, 41_reader.md R139 item 6, 43_system.md R181): in any
state at all, what the reader's and the writer's shared operations leave alone, and from it what each command does. -/

section
namespace Sys2Proof.Machine

/-! ### What the two units keep of each other -/

/-- What no command changes: the parameters, RBUF, the host's inputs, CMD and OPND. -/
def SharedKept (s t : State) : Prop :=
  t.cfg = s.cfg ∧ t.rbuf = s.rbuf ∧ t.pending = s.pending ∧ t.cmd = s.cmd ∧ t.opnd = s.opnd

/-- The writer's registers, its stores and their coming answers are as they were. -/
def WriterKept (s t : State) : Prop :=
  t.wpos = s.wpos ∧ t.wpend = s.wpend ∧ t.wpcnt = s.wpcnt ∧ t.wbuf = s.wbuf ∧ t.wcap = s.wcap ∧ t.snk = s.snk ∧
    t.env.accepts = s.env.accepts ∧ t.env.grows = s.env.grows

/-- The reader's registers, its source with its coming answers and the free-value counter are as they were. -/
def ReaderKept (s t : State) : Prop :=
  t.rpos = s.rpos ∧ t.rpend = s.rpend ∧ t.rpcnt = s.rpcnt ∧ t.src = s.src ∧ t.env.pulls = s.env.pulls ∧
    t.freeIdx = s.freeIdx

/-- Only the three response fields differ (R14). -/
def OnlyResponded (s t : State) : Prop := ∃ st c r, t = s.respond st c r

/-- A fatal condition was raised and nothing else happened (R200), or `P` holds of the two states. -/
def RaisedOr (P : State → State → Prop) (s t : State) : Prop := (∃ st, t = s.raise st) ∨ P s t

theorem OnlyResponded.onlyReaderMoved {s t : State} (h : OnlyResponded s t) : OnlyReaderMoved s t := by
  obtain ⟨st, c, r, rfl⟩ := h
  exact onlyReaderMoved_respond s st c r

theorem onlyWriterMoved_respond (s : State) (st : Status) (c : Nat) (r : U64) :
    OnlyWriterMoved s (s.respond st c r) := rfl

theorem OnlyResponded.onlyWriterMoved {s t : State} (h : OnlyResponded s t) : OnlyWriterMoved s t := by
  obtain ⟨st, c, r, rfl⟩ := h
  exact onlyWriterMoved_respond s st c r

theorem OnlyReaderMoved.keeps {s t : State} (h : OnlyReaderMoved s t) : SharedKept s t ∧ WriterKept s t := by
  rw [h]
  exact ⟨⟨rfl, rfl, rfl, rfl, rfl⟩, rfl, rfl, rfl, rfl, rfl, rfl, rfl, rfl⟩

theorem OnlyWriterMoved.keeps {s t : State} (h : OnlyWriterMoved s t) : SharedKept s t ∧ ReaderKept s t := by
  rw [h]
  exact ⟨⟨rfl, rfl, rfl, rfl, rfl⟩, rfl, rfl, rfl, rfl, rfl, rfl⟩

theorem raise_keeps (s : State) (st : Status) :
    SharedKept s (s.raise st) ∧ WriterKept s (s.raise st) ∧ ReaderKept s (s.raise st) :=
  ⟨⟨rfl, rfl, rfl, rfl, rfl⟩, ⟨rfl, rfl, rfl, rfl, rfl, rfl, rfl, rfl⟩, rfl, rfl, rfl, rfl, rfl, rfl⟩

theorem RaisedOr.mono {P Q : State → State → Prop} {s t : State} (h : RaisedOr P s t) (hPQ : P s t → Q s t) :
    RaisedOr Q s t := h.imp_right hPQ

theorem RaisedOr.reader_keeps {s t : State} (h : RaisedOr OnlyReaderMoved s t) : SharedKept s t ∧ WriterKept s t := by
  rcases h with ⟨st, rfl⟩ | h
  · obtain ⟨hshared, hwriter, -⟩ := raise_keeps s st
    exact ⟨hshared, hwriter⟩
  · exact h.keeps

theorem RaisedOr.writer_keeps {s t : State} (h : RaisedOr OnlyWriterMoved s t) : SharedKept s t ∧ ReaderKept s t := by
  rcases h with ⟨st, rfl⟩ | h
  · obtain ⟨hshared, -, hreader⟩ := raise_keeps s st
    exact ⟨hshared, hreader⟩
  · exact h.keeps

/-- The checks of R198 end a command early with the FAULTED answer or a raise only: what holds of that answer and of the
command's own rule holds of the command, unless it raises. -/
theorem command_raisedOr {P : State → State → Prop} {a c o : Bool} {own : State → Result} {s t : State}
    (h : command a c o own s = .next t) (hfaulted : P s s.refuseFaulted) (hown : own s = .next t → P s t) :
    RaisedOr P s t := by
  rcases command_cases a c o own s with ⟨-, e⟩ | ⟨-, -, e⟩ | ⟨-, -, -, e⟩ | ⟨-, -, -, -, e⟩ | ⟨-, -, -, -, e⟩ <;>
    rw [e] at h
  · cases h
    exact .inr hfaulted
  · cases h
    exact .inl ⟨_, rfl⟩
  · cases h
    exact .inl ⟨_, rfl⟩
  · cases h
    exact .inl ⟨_, rfl⟩
  · exact .inr (hown h)

/-! ### The reader's shared operations move only the reader -/

theorem rStreamChunk_only (n : Nat) (s : State) : OnlyReaderMoved s (rStreamChunk n s).2 := by
  unfold rStreamChunk
  simp only
  rcases srcPull_cases s with ⟨-, h⟩ | ⟨b, -, -, h⟩ <;> rw [h] <;> split_ifs <;> rfl

/-- A buffer chunk advances RPOS and changes nothing else (R62). -/
theorem rBufChunk_post {n : Nat} {s t : State} {out : Byte} (h : rBufChunk n s = .ok (out, t)) :
    t = s.setRpos (s.rpos.toNat + n) := by
  unfold rBufChunk at h
  simp only at h
  split at h
  · cases h
  · split at h
    · cases h
    · cases h
      rfl

theorem rChunk_only {m : Nat} {s t : State} {out : Option Byte} (h : rChunk m s = .ok (out, t)) :
    OnlyReaderMoved s t := by
  unfold rChunk at h
  cases hv : s.cfg.rvar with
  | stream =>
    simp only [hv, Except.ok.injEq] at h
    have hs := rStreamChunk_only m s
    rwa [h] at hs
  | buffer =>
    simp only [hv] at h
    split at h
    · cases h
      exact .refl s
    · split at h
      · cases h
      · next hb =>
        cases h
        rw [rBufChunk_post hb]
        exact onlyReaderMoved_setRpos s _

theorem rChunks_only {sizes : List Nat} {j done : Nat} {res : U64} {s : State} {run : ReadRun}
    (h : rChunks sizes j done res s = .ok run) : OnlyReaderMoved s run.post := by
  induction sizes generalizing j done res s with
  | nil =>
    cases h
    exact .refl s
  | cons m rest ih =>
    simp only [rChunks] at h
    split at h
    · cases h
    · next hc =>
      cases h
      exact rChunk_only hc
    · next hc => exact (rChunk_only hc).trans (ih h)

theorem rBits_only {n : Nat} {s : State} {run : ReadRun} (h : rBits n s = .ok run) : OnlyReaderMoved s run.post := by
  unfold rBits at h
  split at h
  · cases h
    exact .refl s
  · exact rChunks_only h

theorem respondChunk_only {m n : Nat} {result : Byte → U64} {s t : State}
    (h : respondChunk n result (rChunk m s) = .next t) : OnlyReaderMoved s t := by
  cases hr : rChunk m s with
  | error f =>
    rw [hr] at h
    cases h
  | ok p =>
    obtain ⟨out, u⟩ := p
    have hu := rChunk_only hr
    rw [hr] at h
    cases out <;> cases h <;> exact hu.trans (onlyReaderMoved_respond u _ _ _)

theorem respondRead_only {n : Nat} {s t : State} (h : respondRead (rBits n s) = .next t) : OnlyReaderMoved s t := by
  cases hr : rBits n s with
  | error f =>
    rw [hr] at h
    cases h
  | ok run =>
    rw [hr] at h
    cases h
    exact (rBits_only hr).trans (onlyReaderMoved_respond _ _ _ _)

theorem onlyReaderMoved_nextFree (s : State) : OnlyReaderMoved s s.nextFree := rfl

theorem respondField_only {m n : Nat} {s t : State} (h : respondField m (rBits n s) = .next t) : OnlyReaderMoved s t := by
  cases hr : rBits n s with
  | error f =>
    rw [hr] at h
    cases h
  | ok run =>
    rw [hr] at h
    simp only [respondField] at h
    split at h
    · cases h
      exact (rBits_only hr).trans (onlyReaderMoved_respond _ _ _ _)
    · cases h
      exact ((rBits_only hr).trans (onlyReaderMoved_nextFree _)).trans (onlyReaderMoved_respond _ _ _ _)

/-! ### The writer's shared operations move only the writer -/

theorem onlyWriterMoved_setWriter (s : State) (p : Nat) (b : Byte) (c : Nat) : OnlyWriterMoved s (s.setWriter p b c) := rfl

theorem onlyWriterMoved_setWpos (s : State) (p : Nat) : OnlyWriterMoved s (s.setWpos p) := rfl

theorem onlyWriterMoved_setSink (s : State) (l : List Byte) (q : Feed Bool) : OnlyWriterMoved s (s.setSink l q) := rfl

theorem onlyWriterMoved_setGrown (s : State) (cap : Nat) (m : Memory) (q : Feed GrowAnswer) :
    OnlyWriterMoved s (s.setGrown cap m q) := rfl

theorem memWriteW_only {i : Nat} {b : Byte} {s t : State} (h : memWriteW s i b = .ok t) : OnlyWriterMoved s t := by
  unfold memWriteW at h
  split at h
  · cases h
    rfl
  · cases h

theorem wBufChunk_only {ch : Byte} {n : Nat} {s t : State} (h : wBufChunk ch n s = .ok t) : OnlyWriterMoved s t := by
  unfold wBufChunk at h
  simp only at h
  split at h
  · cases h
  · split at h
    · cases h
    · next s1 h1 =>
      have hfirst := memWriteW_only h1
      split at h
      · cases h
      · next s2 h2 =>
        cases h
        refine OnlyWriterMoved.trans ?_ (onlyWriterMoved_setWpos s2 _)
        split at h2
        · exact hfirst.trans (memWriteW_only h2)
        · cases h2
          exact hfirst

theorem wChunk_only {ch : Byte} {m : Nat} {s t : State} {ok : Bool} (h : wChunk ch m s = .ok (ok, t)) :
    OnlyWriterMoved s t := by
  unfold wChunk at h
  cases hv : s.cfg.wvar with
  | stream =>
    simp only [hv, Except.ok.injEq] at h
    have hs := wStreamChunk_only ch m s
    rwa [h] at hs
  | fixed =>
    simp only [hv] at h
    split at h
    · cases h
      exact .refl s
    · split at h
      · cases h
      · next hb =>
        cases h
        exact wBufChunk_only hb
  | growable =>
    simp only [hv] at h
    split at h
    · cases h
    · next hb =>
      cases h
      exact wBufChunk_only hb

theorem wChunks_only {sizes : List Nat} {j done : Nat} {l : U64} {s : State} {run : WriteRun}
    (h : wChunks sizes j done l s = .ok run) : OnlyWriterMoved s run.post := by
  induction sizes generalizing j done s with
  | nil =>
    cases h
    exact .refl s
  | cons m rest ih =>
    simp only [wChunks] at h
    split at h
    · cases h
    · next hc =>
      cases h
      exact wChunk_only hc
    · next hc => exact (wChunk_only hc).trans (ih h)

theorem wEnsure_only (n : Nat) (s : State) : OnlyWriterMoved s (wEnsure n s).2 := by
  rcases wEnsure_spec n s with ⟨q, h, -⟩ | ⟨cap, mem, q, h, -⟩ <;> rw [h] <;> exact onlyWriterMoved_setGrown s _ _ _

theorem wBits_only {l : U64} {n : Nat} {s : State} {run : WriteRun} (h : wBits l n s = .ok run) :
    OnlyWriterMoved s run.post := by
  unfold wBits at h
  split at h
  · have hgrown := wEnsure_only n s
    split at h
    · next he =>
      rw [he] at hgrown
      cases h
      exact hgrown
    · next he =>
      rw [he] at hgrown
      exact hgrown.trans (wChunks_only h)
  · exact wChunks_only h

theorem wPushPending_only (s : State) : OnlyWriterMoved s (wPushPending s).post := by
  rcases wPushPending_cases s with ⟨-, h⟩ | ⟨-, -, h⟩ | ⟨-, -, h⟩ <;> rw [h]
  · exact .refl s
  · exact onlyWriterMoved_setSink s _ _
  · exact (onlyWriterMoved_setSink s _ _).trans (onlyWriterMoved_setWriter _ _ _ _)

theorem respondWrite_wBits_only {l : U64} {n : Nat} {s t : State} (h : respondWrite (wBits l n s) = .next t) :
    OnlyWriterMoved s t := by
  obtain ⟨run, hr⟩ := wBits_ne_error l n s
  rw [hr] at h
  cases h
  exact (wBits_only hr).trans (onlyWriterMoved_respond _ _ _ _)

theorem respondWrite_wPushPending_only {s t : State} (h : respondWrite (.ok (wPushPending s)) = .next t) :
    OnlyWriterMoved s t := by
  cases h
  exact (wPushPending_only s).trans (onlyWriterMoved_respond _ _ _ _)

/-! ### The commands of each unit -/

/-- A reader command raises or moves only the reader (R139 item 6). -/
theorem exec_reader_raisedOr {i : Instr} {s t : State} (hi : i.isReader = true) (h : exec i s = .next t) :
    RaisedOr OnlyReaderMoved s t := by
  cases i with simp only [exec] at h
  | rBitb n => exact command_raisedOr h rfl respondChunk_only
  | rByte => exact command_raisedOr h rfl respondChunk_only
  | rBool => exact command_raisedOr h rfl respondChunk_only
  | rBits n => exact command_raisedOr h rfl respondRead_only
  | rField n => exact command_raisedOr h rfl respondField_only
  | rArr n => exact command_raisedOr h rfl respondRead_only
  | rAlign =>
    refine command_raisedOr h rfl fun e => ?_
    cases e
    exact (onlyReaderMoved_setReader s _ _ _).trans (onlyReaderMoved_respond _ _ _ _)
  | rRst =>
    refine command_raisedOr h rfl fun e => ?_
    cases e
    exact (onlyReaderMoved_setReader s _ _ _).trans (onlyReaderMoved_respond _ _ _ _)
  | rPos =>
    cases h
    exact .inr (onlyReaderMoved_respond s _ _ _)
  | _ => cases hi

/-- A writer command raises or moves only the writer (R2, R50). -/
theorem exec_writer_raisedOr {i : Instr} {s t : State} (hi : i.isWriter = true) (h : exec i s = .next t) :
    RaisedOr OnlyWriterMoved s t := by
  cases i with simp only [exec] at h
  | wBitb n => exact command_raisedOr h rfl respondWrite_wBits_only
  | wByte => exact command_raisedOr h rfl respondWrite_wBits_only
  | wBool => exact command_raisedOr h rfl respondWrite_wBits_only
  | wBits n => exact command_raisedOr h rfl respondWrite_wBits_only
  | wField n => exact command_raisedOr h rfl respondWrite_wBits_only
  | wFlush => exact command_raisedOr h rfl respondWrite_wPushPending_only
  | wAlign =>
    refine command_raisedOr h rfl fun e => ?_
    split at e
    · exact respondWrite_wPushPending_only e
    · cases e
      exact (onlyWriterMoved_setWpos s _).trans (onlyWriterMoved_respond _ _ _ _)
  | wGrow =>
    refine command_raisedOr h rfl fun e => ?_
    have hgrown := wEnsure_only (opndValue s).toNat s
    split at e <;>
    · next he =>
      rw [he] at hgrown
      cases e
      exact hgrown.trans (onlyWriterMoved_respond _ _ _ _)
  | wLen =>
    refine command_raisedOr h rfl fun e => ?_
    cases e
    exact onlyWriterMoved_respond s _ _ _
  | wRst =>
    refine command_raisedOr h rfl fun e => ?_
    cases e
    exact (onlyWriterMoved_setWriter s _ _ _).trans (onlyWriterMoved_respond _ _ _ _)
  | wPos =>
    cases h
    exact .inr (onlyWriterMoved_respond s _ _ _)
  | _ => cases hi

/-- PACK, UNPACK and SYS.STAT raise or only respond (R181). -/
theorem exec_other_raisedOr {i : Instr} {s t : State} (hr : i.isReader = false) (hw : i.isWriter = false)
    (h : exec i s = .next t) : RaisedOr OnlyResponded s t := by
  cases i with simp only [exec] at h
  | pack n =>
    refine command_raisedOr h ⟨_, _, _, rfl⟩ fun e => ?_
    cases e
    exact ⟨_, _, _, rfl⟩
  | unpack n =>
    refine command_raisedOr h ⟨_, _, _, rfl⟩ fun e => ?_
    cases e
    exact ⟨_, _, _, rfl⟩
  | sysStat =>
    cases h
    exact .inr ⟨_, _, _, rfl⟩
  | _ => simp [Instr.isReader, Instr.isWriter] at hr hw

/-- A command outside the writer unit raises or moves only the reader. -/
theorem exec_nonWriter_raisedOr {i : Instr} {s t : State} (hw : i.isWriter = false) (h : exec i s = .next t) :
    RaisedOr OnlyReaderMoved s t := by
  cases hr : i.isReader with
  | true => exact exec_reader_raisedOr hr h
  | false => exact (exec_other_raisedOr hr hw h).mono OnlyResponded.onlyReaderMoved

/-- A command outside the reader unit raises or moves only the writer. -/
theorem exec_nonReader_raisedOr {i : Instr} {s t : State} (hr : i.isReader = false) (h : exec i s = .next t) :
    RaisedOr OnlyWriterMoved s t := by
  cases hw : i.isWriter with
  | true => exact exec_writer_raisedOr hw h
  | false => exact (exec_other_raisedOr hr hw h).mono OnlyResponded.onlyWriterMoved

/-- No command changes the parameters, RBUF, the host's inputs, CMD or OPND. -/
theorem exec_sharedKept {i : Instr} {s t : State} (h : exec i s = .next t) : SharedKept s t := by
  cases hw : i.isWriter with
  | true => exact (exec_writer_raisedOr hw h).writer_keeps.1
  | false => exact (exec_nonWriter_raisedOr hw h).reader_keeps.1

/-- Settles O45: a command outside a unit raises or moves only what is not that unit's. -/
theorem commandsTouchOnlyTheirOwnUnit : Obligations.CommandsTouchOnlyTheirOwnUnit := by
  intro i s t h
  exact ⟨exec_sharedKept h, fun hw => (exec_nonWriter_raisedOr hw h).reader_keeps.2,
    fun hr => (exec_nonReader_raisedOr hr h).writer_keeps.2⟩

end Sys2Proof.Machine
end

/-! PROOFS. One step, by the host's next input (10_state.md R38), and the two invariants kept by every step (R29, R222,
R224). What keeps an invariant is said once for each shared operation of a unit, then of the unit's commands, then of the
step. -/

section
namespace Sys2Proof.Machine

/-! ### The step, input by input -/

section Inputs

variable {s : State} {w : CmdWord} {o : U64} {rest : List HostEvent}

theorem step_idle (hp : s.pending = []) : step s = .next s := by simp only [step, hp]

theorem step_command {i : Instr} (hp : s.pending = .command w o :: rest) (hd : decode w = .ok i) :
    step s = exec i (s.issue w o rest) := by simp only [step, hp, hd]

theorem step_illegalWord {e : DecodeError} (hp : s.pending = .command w o :: rest) (hd : decode w = .error e) :
    step s = .next (illegalWord (s.issue w o rest)) := by simp only [step, hp, hd]

theorem step_reset (hp : s.pending = .reset :: rest) : step s = hardwareReset { s with pending := rest } := by
  simp only [step, hp]

theorem step_rebind {b : Binding} (hp : s.pending = .rebind b :: rest) :
    step s = rebindAndReset b { s with pending := rest } := by simp only [step, hp]

end Inputs

/-- Everything a step that answers a next state can have done. -/
theorem step_next_cases {s t : State} (h : step s = .next t) :
    (s.pending = [] ∧ t = s) ∨
    (∃ w o rest i, s.pending = .command w o :: rest ∧ exec i (s.issue w o rest) = .next t) ∨
    (∃ w o rest, s.pending = .command w o :: rest ∧ t = illegalWord (s.issue w o rest)) ∨
    (∃ rest, s.pending = .reset :: rest ∧ Params.valid s.cfg = true ∧ t = State.load { s with pending := rest }) ∨
    (∃ b rest, s.pending = .rebind b :: rest ∧ b.valid = true ∧
      t = State.load (State.bind { s with pending := rest } b)) := by
  rcases hp : s.pending with _ | ⟨⟨w, o⟩ | _ | b, rest⟩
  · rw [step_idle hp] at h
    cases h
    exact .inl ⟨rfl, rfl⟩
  · cases hd : decode w with
    | ok i =>
      rw [step_command hp hd] at h
      exact .inr (.inl ⟨w, o, rest, i, rfl, h⟩)
    | error e =>
      rw [step_illegalWord hp hd] at h
      cases h
      exact .inr (.inr (.inl ⟨w, o, rest, rfl, rfl⟩))
  · rw [step_reset hp] at h
    obtain ⟨hvalid, ht⟩ := hardwareReset_next h
    exact .inr (.inr (.inr (.inl ⟨rest, rfl, hvalid, ht⟩)))
  · rw [step_rebind hp] at h
    obtain ⟨hvalid, ht⟩ := rebindAndReset_next h
    exact .inr (.inr (.inr (.inr ⟨b, rest, rfl, hvalid, ht⟩)))

/-- Settles O6, by the case of the step for a word that decodes. -/
theorem stepRunsTheDecodedCommand : Obligations.StepRunsTheDecodedCommand :=
  fun _ _ _ _ _ hp hd => step_command hp hd

/-- Settles O7, by the case of the step for no input. -/
theorem idleStepKeepsTheState : Obligations.IdleStepKeepsTheState := fun _ hp => step_idle hp

/-! ### Every command answers -/

/-- FAULT and FCAUSE are as they were. -/
def FaultKept (s t : State) : Prop := t.fault = s.fault ∧ t.fcause = s.fcause

theorem OnlyReaderMoved.faultKept {s t : State} (h : OnlyReaderMoved s t) : FaultKept s t := by
  rw [h]
  exact ⟨rfl, rfl⟩

theorem OnlyWriterMoved.faultKept {s t : State} (h : OnlyWriterMoved s t) : FaultKept s t := by
  rw [h]
  exact ⟨rfl, rfl⟩

/-- The outcome is a next state, with FAULT and FCAUSE as they were or a fatal condition raised (R190, R200). -/
def Answers (s : State) (r : Result) : Prop :=
  ∃ t, r = .next t ∧ (FaultKept s t ∨ ∃ st, st.isFatal = true ∧ t = s.raise st)

theorem answers_respond {s u : State} (h : FaultKept s u) (st : Status) (c : Nat) (r : U64) :
    Answers s (.next (u.respond st c r)) := ⟨_, rfl, .inl h⟩

/-- A command answers if its own rule does under the checks it has passed (R198). -/
theorem command_answers {a c o : Bool} {own : State → Result} {s : State} (hown : c = true → Answers s (own s)) :
    Answers s (command a c o own s) := by
  rcases command_cases a c o own s with ⟨-, e⟩ | ⟨-, -, e⟩ | ⟨-, -, -, e⟩ | ⟨-, -, -, -, e⟩ | ⟨-, -, hc, -, e⟩ <;> rw [e]
  · exact answers_respond ⟨rfl, rfl⟩ _ _ _
  · exact ⟨_, rfl, .inr ⟨_, rfl, rfl⟩⟩
  · exact ⟨_, rfl, .inr ⟨_, rfl, rfl⟩⟩
  · exact ⟨_, rfl, .inr ⟨_, rfl, rfl⟩⟩
  · exact hown hc

/-- The loop of RBits never faults, in any state at all (R52). -/
theorem rChunks_ne_error {sizes : List Nat} (hs : FullButLast sizes) (j done : Nat) (res : U64) (s : State) :
    ∃ run, rChunks sizes j done res s = .ok run := by
  induction sizes generalizing j done res s with
  | nil => exact ⟨_, rfl⟩
  | cons m rest ih =>
    obtain ⟨h1, h8, -, hrest⟩ := hs
    obtain ⟨⟨out, t⟩, ht⟩ := rChunk_ne_error m s h1 h8
    simp only [rChunks, ht]
    cases out with
    | none => exact ⟨_, rfl⟩
    | some out => exact ih hrest _ _ _ _

theorem rBits_ne_error (n : Nat) (s : State) : ∃ run, rBits n s = .ok run := by
  unfold rBits
  split
  · exact ⟨_, rfl⟩
  · exact rChunks_ne_error (fullButLast_chunkSizes n) _ _ _ _

theorem respondChunk_answers {m : Nat} (n : Nat) (result : Byte → U64) (s : State) (h1 : 1 ≤ m) (h8 : m ≤ 8) :
    Answers s (respondChunk n result (rChunk m s)) := by
  obtain ⟨⟨out, t⟩, ht⟩ := rChunk_ne_error m s h1 h8
  have hkept := (rChunk_only ht).faultKept
  rw [ht]
  cases out <;> exact answers_respond hkept _ _ _

theorem respondRead_answers (n : Nat) (s : State) : Answers s (respondRead (rBits n s)) := by
  obtain ⟨run, hrun⟩ := rBits_ne_error n s
  rw [hrun]
  exact answers_respond (rBits_only hrun).faultKept _ _ _

theorem respondField_answers (m n : Nat) (s : State) : Answers s (respondField m (rBits n s)) := by
  obtain ⟨run, hrun⟩ := rBits_ne_error n s
  have honly := rBits_only hrun
  rw [hrun]
  simp only [respondField]
  split
  · exact answers_respond honly.faultKept _ _ _
  · exact answers_respond (honly.trans (onlyReaderMoved_nextFree _)).faultKept _ _ _

theorem respondWrite_wBits_answers (l : U64) (n : Nat) (s : State) : Answers s (respondWrite (wBits l n s)) := by
  obtain ⟨run, hrun⟩ := wBits_ne_error l n s
  rw [hrun]
  exact answers_respond (wBits_only hrun).faultKept _ _ _

theorem respondWrite_wPushPending_answers (s : State) : Answers s (respondWrite (.ok (wPushPending s))) :=
  answers_respond (wPushPending_only s).faultKept _ _ _

theorem chunkWidthOk_iff (n : BitVec 8) : chunkWidthOk n = true ↔ 1 ≤ n.toNat ∧ n.toNat ≤ 8 := decide_eq_true_iff

theorem fieldWidthOk_iff (n : BitVec 8) : fieldWidthOk n = true ↔ 1 ≤ n.toNat ∧ n.toNat ≤ 64 := decide_eq_true_iff

theorem bitCountOk_iff (n : BitVec 8) : bitCountOk n = true ↔ n.toNat ≤ 64 := decide_eq_true_iff

theorem byteCountOk_iff (n : BitVec 8) : byteCountOk n = true ↔ n.toNat ≤ 8 := decide_eq_true_iff

/-- Every command answers a next state, whatever the state, and touches FAULT and FCAUSE only by raising a fatal
condition. -/
theorem exec_answers (i : Instr) (s : State) : Answers s (exec i s) := by
  cases i with simp only [exec]
  | pack n => exact command_answers fun _ => answers_respond ⟨rfl, rfl⟩ _ _ _
  | unpack n => exact command_answers fun _ => answers_respond ⟨rfl, rfl⟩ _ _ _
  | rBitb n =>
    refine command_answers fun hc => ?_
    obtain ⟨h1, h8⟩ := (chunkWidthOk_iff n).1 hc
    exact respondChunk_answers _ _ _ h1 h8
  | rByte => exact command_answers fun _ => respondChunk_answers _ _ _ (by decide) (by decide)
  | rBool => exact command_answers fun _ => respondChunk_answers _ _ _ (by decide) (by decide)
  | rBits n => exact command_answers fun _ => respondRead_answers _ _
  | rField n => exact command_answers fun _ => respondField_answers _ _ _
  | rAlign => exact command_answers fun _ => answers_respond (onlyReaderMoved_setReader s _ _ _).faultKept _ _ _
  | rArr n => exact command_answers fun _ => respondRead_answers _ _
  | rPos => exact answers_respond ⟨rfl, rfl⟩ _ _ _
  | rRst => exact command_answers fun _ => answers_respond (onlyReaderMoved_setReader s _ _ _).faultKept _ _ _
  | wBitb n => exact command_answers fun _ => respondWrite_wBits_answers _ _ _
  | wByte => exact command_answers fun _ => respondWrite_wBits_answers _ _ _
  | wBool => exact command_answers fun _ => respondWrite_wBits_answers _ _ _
  | wBits n => exact command_answers fun _ => respondWrite_wBits_answers _ _ _
  | wField n => exact command_answers fun _ => respondWrite_wBits_answers _ _ _
  | wAlign =>
    refine command_answers fun _ => ?_
    split
    · exact respondWrite_wPushPending_answers s
    · exact answers_respond (onlyWriterMoved_setWpos s _).faultKept _ _ _
  | wGrow =>
    refine command_answers fun _ => ?_
    have hkept := (wEnsure_only (opndValue s).toNat s).faultKept
    split <;>
    · next he =>
      rw [he] at hkept
      exact answers_respond hkept _ _ _
  | wFlush => exact command_answers fun _ => respondWrite_wPushPending_answers s
  | wLen => exact command_answers fun _ => answers_respond ⟨rfl, rfl⟩ _ _ _
  | wPos => exact answers_respond ⟨rfl, rfl⟩ _ _ _
  | wRst => exact command_answers fun _ => answers_respond (onlyWriterMoved_setWriter s _ _ _).faultKept _ _ _
  | sysStat => exact answers_respond ⟨rfl, rfl⟩ _ _ _

/-- Settles O53: a command and an illegal word always answer, and the two resets are refused exactly on their check. -/
theorem stepStopsOnlyAtAnIllegalConfiguration : Obligations.StepStopsOnlyAtAnIllegalConfiguration := by
  intro s
  rcases hp : s.pending with _ | ⟨⟨w, o⟩ | _ | b, rest⟩
  · exact .inl ⟨_, step_idle hp⟩
  · cases hd : decode w with
    | ok i =>
      obtain ⟨t, ht, -⟩ := exec_answers i (s.issue w o rest)
      exact .inl ⟨t, (step_command hp hd).trans ht⟩
    | error e => exact .inl ⟨_, step_illegalWord hp hd⟩
  · rw [step_reset hp]
    cases hvalid : Params.valid s.cfg with
    | true => exact .inl ⟨_, if_pos hvalid⟩
    | false => exact .inr ⟨by simp [hardwareReset, hvalid], rest, .inl ⟨rfl, rfl⟩⟩
  · rw [step_rebind hp]
    cases hvalid : b.valid with
    | true => exact .inl ⟨_, if_pos hvalid⟩
    | false => exact .inr ⟨by simp [rebindAndReset, hvalid], rest, .inr ⟨b, rfl, hvalid⟩⟩

/-! ### The faulted block -/

/-- With FAULT set every command only responds, the readouts with their value and every other with FAULTED (R196). -/
theorem exec_faulted_onlyResponded (i : Instr) {s : State} (hf : s.fault = true) :
    ∃ t, exec i s = .next t ∧ OnlyResponded s t := by
  cases i with simp only [exec]
  | rPos | wPos | sysStat => exact ⟨_, rfl, _, _, _, rfl⟩
  | _ => exact ⟨_, command_faulted _ _ _ _ hf, _, _, _, rfl⟩

theorem illegalWord_faulted_onlyResponded {s : State} (hf : s.fault = true) : OnlyResponded s (illegalWord s) := by
  rcases illegalWord_cases s with ⟨-, e⟩ | ⟨hclear, -⟩
  · exact ⟨_, _, _, e⟩
  · simp [hf] at hclear

/-- Settles O11: with FAULT set a command and an illegal word only respond. -/
theorem noCommandLeavesTheFaultedState : Obligations.NoCommandLeavesTheFaultedState := by
  intro s t w o rest hf hp h
  have hf' : (s.issue w o rest).fault = true := hf
  have hresp : OnlyResponded (s.issue w o rest) t := by
    cases hd : decode w with
    | ok i =>
      obtain ⟨u, hu, honly⟩ := exec_faulted_onlyResponded i hf'
      rw [step_command hp hd, hu] at h
      cases h
      exact honly
    | error e =>
      rw [step_illegalWord hp hd] at h
      cases h
      exact illegalWord_faulted_onlyResponded hf'
  obtain ⟨st, c, r, rfl⟩ := hresp
  rfl

/-! ### Reset -/

theorem toNat_ofNat64 {p : Nat} (h : p < 2 ^ 64) : (BitVec.ofNat 64 p).toNat = p := by
  rw [BitVec.toNat_ofNat]
  exact Nat.mod_eq_of_lt h

/-- Legal parameters and canonical buffers are all that reset needs to establish the invariants (R36, R222). -/
theorem inv_load {s : State} (hvalid : Params.valid s.cfg = true) (hrbuf : Memory.wf s.rbuf = true)
    (hwbuf : Memory.wf s.wbuf = true) : Inv s.load := by
  obtain ⟨⟨-, hcap⟩, ⟨hr64, hw64⟩, hrb, hwb, hrs, hws⟩ := (Params.valid_iff s.cfg).1 hvalid
  have hrpos : (BitVec.ofNat 64 s.cfg.rposInit).toNat = s.cfg.rposInit := toNat_ofNat64 hr64
  have hwpos : (BitVec.ofNat 64 s.cfg.wposInit).toNat = s.cfg.wposInit := toNat_ofNat64 hw64
  refine ⟨?reader, ?writer, ⟨fun _ => rfl, by simp⟩, hvalid, hrbuf, hwbuf, hcap⟩
  case reader =>
    cases hv : s.cfg.rvar with
    | buffer =>
      obtain ⟨hle, hpend⟩ := hrb hv
      simp [ReaderInv, hv, hpend, hrpos, hle]
    | stream =>
      have hcnt : (BitVec.ofNat 3 (s.cfg.rposInit % 8)).toNat = s.cfg.rposInit % 8 :=
        toNat_ofNat3 (Nat.mod_lt _ (by decide))
      refine ⟨fun _ => by simp [hv, hrpos], by simp [hv], fun hz => hrs hv ?_⟩
      simp only [State.load_rpcnt, hv, if_true] at hz
      rw [← hcnt, hz]
      rfl
  case writer =>
    by_cases hv : s.cfg.wvar = .stream
    · have hcnt : (BitVec.ofNat 3 (s.cfg.wposInit % 8)).toNat = s.cfg.wposInit % 8 :=
        toNat_ofNat3 (Nat.mod_lt _ (by decide))
      refine ⟨fun _ => by simp [hv, hwpos], fun h => absurd hv h, ?_⟩
      simp only [State.load_wpcnt, State.load_wpend, hv, if_true, hcnt]
      exact hws hv
    · obtain ⟨hle, hpend⟩ := hwb hv
      simp [WriterInv, hv, hpend, hwpos, hle]

theorem tailZero_load {s : State} (hvalid : Params.valid s.cfg = true) (hboot : BootTail s.cfg s.wbuf) :
    TailZero s.load := by
  obtain ⟨-, ⟨-, hw64⟩, -⟩ := (Params.valid_iff s.cfg).1 hvalid
  have hwpos : s.load.wpos.toNat = s.cfg.wposInit := toNat_ofNat64 hw64
  intro hv hmid
  rw [hwpos] at hmid ⊢
  exact hboot hv hmid

/-- `State.reset` is what a hardware reset loads. -/
theorem load_reset : State.reset.load = State.reset := rfl

/-- Settles O47: the registers by evaluation, the invariants as those of any reset. -/
theorem resetStateIsClear : Obligations.ResetStateIsClear := by
  have hvalid : Params.valid State.reset.cfg = true := by decide
  refine ⟨rfl, rfl, rfl, rfl, rfl, rfl, rfl, rfl, rfl, rfl, ?_, ?_⟩
  · rw [← load_reset]
    exact inv_load hvalid rfl rfl
  · rw [← load_reset]
    exact tailZero_load hvalid fun _ hmid => absurd rfl hmid

theorem toNat_loaded_count (stream : Prop) [Decidable stream] (p : Nat) :
    (BitVec.ofNat 3 (if stream then p % 8 else 0)).toNat = if stream then p % 8 else 0 :=
  toNat_ofNat3 (by split <;> omega)

/-- Settles O48: with legal parameters the step is `State.load`. -/
theorem hardwareResetLoadsTheRegisters : Obligations.HardwareResetLoadsTheRegisters := by
  intro s rest hvalid hp
  refine ⟨State.load { s with pending := rest }, (step_reset hp).trans (if_pos hvalid), rfl, rfl,
    toNat_loaded_count _ _, rfl, rfl, toNat_loaded_count _ _, rfl, rfl, rfl, rfl, rfl, rfl, rfl, rfl, rfl, rfl⟩

/-! ### The reader's invariant -/

/-- The reader's part of the invariants, with the legal length of its buffer. -/
def ReaderSound (s : State) : Prop := ReaderInv s ∧ s.cfg.rlen ≤ maxBytes

theorem ReaderSound.pos_le {s : State} (hs : ReaderSound s) (hv : s.cfg.rvar = .buffer) :
    s.rpos.toNat ≤ 8 * s.cfg.rlen := by
  obtain ⟨⟨-, hbuffer, -⟩, -⟩ := hs
  exact (hbuffer hv).2.2

/-- The cursor has taken `k` bits that were there: what a chunk and a whole request have in common (R62, R63, R137). -/
structure ReaderAdvanced (s : State) (k : Nat) (t : State) : Prop where
  enough : (unreadBits k s).length = k
  pos    : t.rpos = BitVec.ofNat 64 (s.rpos.toNat + k)
  cnt    : s.cfg.rvar = .stream → t.rpcnt.toNat = (s.rpcnt.toNat + k) % 8
  pend   : (s.rpcnt = 0 → s.rpend = 0) → t.rpcnt = 0 → t.rpend = 0
  kept   : BufferReaderKept s t
  only   : OnlyReaderMoved s t

theorem ReaderTook.advanced {s t : State} {n : Nat} {out : Byte} (h : ReaderTook s n out t) : ReaderAdvanced s n t :=
  ⟨h.enough, h.pos, h.cnt, h.pend, h.kept, h.only⟩

theorem ReadMoved.advanced {s : State} {taken : List Bool} {total done k : Nat} {run : ReadRun}
    (h : ReadMoved s taken total done run k) : ReaderAdvanced s k run.post :=
  ⟨h.enough, h.pos, h.cnt, h.pend, h.kept, h.only⟩

/-- A position keeps its offset in the byte when it is written modulo 2^64. -/
theorem toNat_ofNat64_mod_eight (p : Nat) : (BitVec.ofNat 64 p).toNat % 8 = p % 8 := by
  rw [BitVec.toNat_ofNat]
  omega

/-- Positions up to the end of a legal buffer are written whole (R222). -/
theorem toNat_ofNat64_of_le_maxBytes {p c : Nat} (hp : p ≤ 8 * c) (hc : c ≤ maxBytes) :
    (BitVec.ofNat 64 p).toNat = p := by
  unfold maxBytes at hc
  exact toNat_ofNat64 (by omega)

/-- The next byte boundary is inside a buffer that the position is inside of (R32). -/
theorem alignUp_le {p c : Nat} (h : p ≤ 8 * c) : alignUp p ≤ 8 * c :=
  Nat.mul_le_mul_left 8 ((ceil8_le_iff p c).2 h)

/-- On a stream the offset is kept modulo 8; on a buffer the bits taken were inside it. -/
theorem ReaderAdvanced.readerSound {s t : State} {k : Nat} (h : ReaderAdvanced s k t) (hs : ReaderSound s) :
    ReaderSound t := by
  obtain ⟨⟨hstream, hbuffer, hpend⟩, hlen⟩ := hs
  have hcfg := h.only.cfg_eq
  refine ⟨⟨fun hv => ?_, fun hv => ?_, h.pend hpend⟩, by rwa [hcfg]⟩
  · rw [hcfg] at hv
    rw [h.cnt hv, h.pos, toNat_ofNat64_mod_eight, hstream hv]
    omega
  · rw [hcfg] at hv ⊢
    obtain ⟨hrpend, hrpcnt, hle⟩ := hbuffer hv
    obtain ⟨hpend', hcnt', -, -⟩ := h.kept hv
    have hk := h.enough
    rw [unreadBits_buffer hv, bitsAt_length] at hk
    have hle' : s.rpos.toNat + k ≤ 8 * s.cfg.rlen := by omega
    rw [hpend', hcnt', h.pos, toNat_ofNat64_of_le_maxBytes hle' hlen]
    exact ⟨hrpend, hrpcnt, hle'⟩

theorem rChunk_readerSound {n : Nat} {s t : State} {out : Option Byte} (hs : ReaderSound s) (h1 : 1 ≤ n) (h8 : n ≤ 8)
    (h : rChunk n s = .ok (out, t)) : ReaderSound t := by
  rcases rChunk_spec h1 h8 (fun _ => hs.2) with ⟨-, e, -⟩ | ⟨-, e, -⟩ | ⟨_, u, e, htook⟩ <;> rw [e] at h <;> cases h
  · exact hs
  · exact hs
  · exact htook.advanced.readerSound hs

theorem rBits_readerSound {n : Nat} {s : State} {run : ReadRun} (hs : ReaderSound s) (hn : n ≤ 64)
    (h : rBits n s = .ok run) : ReaderSound run.post := by
  obtain ⟨run', k, e, hmoved, -⟩ := rBits_spec s hn fun hv => ⟨hs.2, hs.pos_le hv⟩
  rw [e] at h
  cases h
  exact hmoved.advanced.readerSound hs

theorem respondChunk_readerSound {m n : Nat} {result : Byte → U64} {s t : State} (hs : ReaderSound s) (h1 : 1 ≤ m)
    (h8 : m ≤ 8) (h : respondChunk n result (rChunk m s) = .next t) : ReaderSound t := by
  obtain ⟨⟨out, u⟩, hu⟩ := rChunk_ne_error m s h1 h8
  have hsound := rChunk_readerSound hs h1 h8 hu
  rw [hu] at h
  cases out <;> cases h <;> exact hsound

theorem respondRead_readerSound {n : Nat} {s t : State} (hs : ReaderSound s) (hn : n ≤ 64)
    (h : respondRead (rBits n s) = .next t) : ReaderSound t := by
  obtain ⟨run, hrun⟩ := rBits_ne_error n s
  rw [hrun] at h
  cases h
  exact rBits_readerSound hs hn hrun

theorem respondField_readerSound {m n : Nat} {s t : State} (hs : ReaderSound s) (hn : n ≤ 64)
    (h : respondField m (rBits n s) = .next t) : ReaderSound t := by
  obtain ⟨run, hrun⟩ := rBits_ne_error n s
  have hsound := rBits_readerSound hs hn hrun
  rw [hrun] at h
  simp only [respondField] at h
  split at h <;> cases h <;> exact hsound

/-- R.ALIGN: the next byte boundary is not past the end of a buffer (R135). -/
theorem readerSound_align {s : State} (hs : ReaderSound s) :
    ReaderSound (s.setReader (s.rpos.toNat + padBits s.rpos.toNat) 0 0) := by
  rw [add_padBits]
  refine ⟨⟨fun _ => ?_, fun hv => ⟨rfl, rfl, ?_⟩, fun _ => rfl⟩, hs.2⟩
  · rw [State.setReader_rpos, toNat_ofNat64_mod_eight, alignUp_mod]
    rfl
  · have hle := alignUp_le (hs.pos_le hv)
    rw [State.setReader_rpos, toNat_ofNat64_of_le_maxBytes hle hs.2]
    exact hle

theorem readerSound_rewind {s : State} (hs : ReaderSound s) : ReaderSound (s.setReader 0 0 0) :=
  ⟨⟨fun _ => rfl, fun _ => ⟨rfl, rfl, Nat.zero_le _⟩, fun _ => rfl⟩, hs.2⟩

/-- What holds of the FAULTED answer, of a raise and of the command's own rule under its variant and count checks holds of a
command. -/
theorem command_keeps {P : State → Prop} {a c o : Bool} {own : State → Result} {s t : State}
    (h : command a c o own s = .next t) (hfaulted : P s.refuseFaulted) (hraise : ∀ st, P (s.raise st))
    (hown : a = true → c = true → own s = .next t → P t) : P t := by
  rcases command_cases a c o own s with ⟨-, e⟩ | ⟨-, -, e⟩ | ⟨-, -, -, e⟩ | ⟨-, -, -, -, e⟩ | ⟨-, ha, hc, -, e⟩ <;>
    rw [e] at h
  · cases h
    exact hfaulted
  · cases h
    exact hraise _
  · cases h
    exact hraise _
  · cases h
    exact hraise _
  · exact hown ha hc h

theorem exec_reader_readerSound {i : Instr} {s t : State} (hi : i.isReader = true) (hs : ReaderSound s)
    (h : exec i s = .next t) : ReaderSound t := by
  cases i with simp only [exec] at h
  | rBitb n =>
    refine command_keeps h hs (fun _ => hs) fun _ hc e => ?_
    obtain ⟨h1, h8⟩ := (chunkWidthOk_iff n).1 hc
    exact respondChunk_readerSound hs h1 h8 e
  | rByte =>
    exact command_keeps h hs (fun _ => hs) fun _ _ e => respondChunk_readerSound hs (by decide) (by decide) e
  | rBool =>
    exact command_keeps h hs (fun _ => hs) fun _ _ e => respondChunk_readerSound hs (by decide) (by decide) e
  | rBits n =>
    exact command_keeps h hs (fun _ => hs) fun _ hc e => respondRead_readerSound hs ((bitCountOk_iff n).1 hc) e
  | rField n =>
    exact command_keeps h hs (fun _ => hs) fun _ hc e => respondField_readerSound hs ((fieldWidthOk_iff n).1 hc).2 e
  | rAlign =>
    refine command_keeps h hs (fun _ => hs) fun _ _ e => ?_
    cases e
    exact readerSound_align hs
  | rArr n =>
    refine command_keeps h hs (fun _ => hs) fun _ hc e => respondRead_readerSound hs ?_ e
    have := (byteCountOk_iff n).1 hc
    omega
  | rPos =>
    cases h
    exact hs
  | rRst =>
    refine command_keeps h hs (fun _ => hs) fun _ _ e => ?_
    have hrewound := readerSound_rewind hs
    cases e
    exact hrewound
  | _ => cases hi

/-! ### The writer's invariants -/

/-- The writer's part of the invariants, with its store's canonical form and legal capacity. -/
def WriterSound (s : State) : Prop := WriterInv s ∧ Memory.wf s.wbuf = true ∧ s.wcap ≤ maxBytes

/-- Both of the writer's invariants carry over from s to t; the tail of the in-progress byte (R29 item 7) needs the
others. -/
def WriterKeeps (s t : State) : Prop := WriterSound s → WriterSound t ∧ (TailZero s → TailZero t)

theorem WriterKeeps.refl (s : State) : WriterKeeps s s := fun hs => ⟨hs, id⟩

theorem WriterSound.ready {s : State} (hs : WriterSound s) : WriterReady s := by
  obtain ⟨⟨-, -, htail⟩, hwf, hcap⟩ := hs
  exact ⟨fun _ => htail, fun _ => ⟨hwf, hcap⟩⟩

theorem WriterSound.pos_le {s : State} (hs : WriterSound s) (hv : s.cfg.wvar ≠ .stream) :
    s.wpos.toNat ≤ 8 * s.wcap := by
  obtain ⟨⟨-, hbuffer, -⟩, -⟩ := hs
  exact (hbuffer hv).2.2

/-- The invariant on a buffer, from what a write there can change. -/
theorem writerSound_of_buffer {t : State} (hv : t.cfg.wvar ≠ .stream) (hpend : t.wpend = 0) (hcnt : t.wpcnt = 0)
    (hpos : t.wpos.toNat ≤ 8 * t.wcap) (hwf : Memory.wf t.wbuf = true) (hcap : t.wcap ≤ maxBytes) : WriterSound t :=
  ⟨⟨fun h => absurd h hv, fun _ => ⟨hpend, hcnt, hpos⟩, by simp [hpend]⟩, hwf, hcap⟩

/-- On a stream the offset is kept modulo 8 and the store is not touched. -/
theorem WriterWrote.writerSound_stream {s : State} {l : U64} {n k : Nat} {run : WriteRun} (h : WriterWrote s l n run k)
    (hs : WriterSound s) (hv : s.cfg.wvar = .stream) : WriterSound run.post := by
  obtain ⟨⟨hstream, -, -⟩, hwf, hcap⟩ := hs
  obtain ⟨-, hwbuf, hstore⟩ := h.kept
  have hvt : run.post.cfg.wvar = .stream := by rw [h.only.cfg_eq, hv]
  refine ⟨⟨fun _ => ?_, fun hne => absurd hvt hne, h.ready.1 hvt⟩, ?_, ?_⟩
  · rw [h.cnt hv, h.pos, toNat_ofNat64_mod_eight, hstream hv]
    omega
  · rwa [hwbuf hv]
  · rwa [(hstore (by simp [hv])).1]

/-- On a buffer the position stays inside the capacity, so it is written whole. -/
theorem WriterWrote.toNat_wpos {s : State} {l : U64} {n k : Nat} {run : WriteRun} (h : WriterWrote s l n run k)
    (hv : s.cfg.wvar ≠ .stream) : run.post.wpos.toNat = s.wpos.toNat + k := by
  have hvt : run.post.cfg.wvar ≠ .stream := by rwa [h.only.cfg_eq]
  rw [h.pos, toNat_ofNat64_of_le_maxBytes (h.fits hv) (h.ready.2 hvt).2]

theorem WriterWrote.writerSound_buffer {s : State} {l : U64} {n k : Nat} {run : WriteRun} (h : WriterWrote s l n run k)
    (hs : WriterSound s) (hv : s.cfg.wvar ≠ .stream) : WriterSound run.post := by
  obtain ⟨⟨-, hbuffer, -⟩, -⟩ := hs
  obtain ⟨hpend, hcnt, -⟩ := hbuffer hv
  obtain ⟨hpend', hcnt', -, -⟩ := h.kept.1 hv
  have hvt : run.post.cfg.wvar ≠ .stream := by rwa [h.only.cfg_eq]
  obtain ⟨hwf, hcap⟩ := h.ready.2 hvt
  refine writerSound_of_buffer hvt (hpend'.trans hpend) (hcnt'.trans hcnt) ?_ hwf hcap
  rw [h.toNat_wpos hv]
  exact h.fits hv

/-- A write that moves bits leaves a zero tail behind them, one that moves none leaves WBUF as it was (R64). -/
theorem WriterWrote.tailZero {s : State} {l : U64} {n k : Nat} {run : WriteRun} (h : WriterWrote s l n run k)
    (ht : TailZero s) : TailZero run.post := by
  intro hvt hmid
  have hv : s.cfg.wvar ≠ .stream := by rwa [h.only.cfg_eq] at hvt
  rw [h.toNat_wpos hv] at hmid ⊢
  rcases Nat.eq_zero_or_pos k with hk | hk
  · rw [hk, Nat.add_zero] at hmid ⊢
    rw [h.zero hk]
    exact ht hv hmid
  · exact h.tail hv hk hmid

theorem wBits_keeps {l : U64} {n : Nat} {s : State} {run : WriteRun} (hn : n ≤ 64) (h : wBits l n s = .ok run) :
    WriterKeeps s run.post := by
  intro hs
  obtain ⟨run', k, e, hwrote, -⟩ := wBits_spec l s hn hs.ready hs.pos_le
  rw [e] at h
  cases h
  refine ⟨?_, hwrote.tailZero⟩
  by_cases hv : s.cfg.wvar = .stream
  · exact hwrote.writerSound_stream hs hv
  · exact hwrote.writerSound_buffer hs hv

theorem respondWrite_wBits_keeps {l : U64} {n : Nat} {s t : State} (hn : n ≤ 64)
    (h : respondWrite (wBits l n s) = .next t) : WriterKeeps s t := by
  obtain ⟨run, hrun⟩ := wBits_ne_error l n s
  rw [hrun] at h
  cases h
  exact wBits_keeps hn hrun

/-- On a stream only the offset and the pending byte are bound by the invariants, and at a boundary both are 0. -/
theorem writerKeeps_boundary {s t : State} (hv : t.cfg.wvar = .stream) (hpos : t.wpos.toNat % 8 = 0)
    (hpend : t.wpend = 0) (hcnt : t.wpcnt = 0) (hwbuf : t.wbuf = s.wbuf) (hcap : t.wcap = s.wcap) : WriterKeeps s t := by
  intro hs
  refine ⟨⟨⟨fun _ => ?_, fun hne => absurd hv hne, by simp [hpend]⟩, ?_, ?_⟩, fun _ hne => absurd hv hne⟩
  · rw [hpos, hcnt]
    rfl
  · rw [hwbuf]
    exact hs.2.1
  · rw [hcap]
    exact hs.2.2

/-- WPushPending leaves the cursor at a byte boundary with nothing pending, or where it was (R164). -/
theorem wPushPending_keeps {s : State} (hv : s.cfg.wvar = .stream) : WriterKeeps s (wPushPending s).post := by
  rcases wPushPending_cases s with ⟨-, e⟩ | ⟨-, -, e⟩ | ⟨-, -, e⟩ <;> rw [e]
  · exact .refl s
  · exact .refl s
  · refine writerKeeps_boundary hv ?_ rfl rfl rfl rfl
    rw [State.setWriter_wpos, toNat_ofNat64_mod_eight, alignUp_mod]

/-- W.ALIGN on a buffer: the next byte boundary is inside the capacity, and has no tail (R155). -/
theorem writerKeeps_align {s : State} (hv : s.cfg.wvar ≠ .stream) :
    WriterKeeps s (s.setWpos (s.wpos.toNat + padBits s.wpos.toNat)) := by
  intro hs
  have hle := alignUp_le (hs.pos_le hv)
  obtain ⟨⟨-, hbuffer, -⟩, hwf, hcap⟩ := hs
  obtain ⟨hpend, hcnt, -⟩ := hbuffer hv
  rw [add_padBits]
  refine ⟨writerSound_of_buffer hv hpend hcnt ?_ hwf hcap, fun _ _ hmid => ?_⟩
  · rw [State.setWpos_wpos, toNat_ofNat64_of_le_maxBytes hle hcap]
    exact hle
  · rw [State.setWpos_wpos, toNat_ofNat64_mod_eight, alignUp_mod] at hmid
    exact absurd rfl hmid

/-- W.RST: position 0 has no tail and nothing is pending (R171). -/
theorem writerKeeps_rewind (s : State) : WriterKeeps s (s.setWriter 0 0 0) := by
  intro hs
  obtain ⟨-, hstore⟩ := hs
  exact ⟨⟨⟨fun _ => rfl, fun _ => ⟨rfl, rfl, Nat.zero_le _⟩, BitVec.zero_and⟩, hstore⟩, fun _ _ hmid => absurd rfl hmid⟩

/-- WEnsure on a growable store leaves the cursor and every old byte alone, the in-progress one among them (R160). -/
theorem wEnsure_keeps (n : Nat) {s : State} (hv : s.cfg.wvar ≠ .stream) : WriterKeeps s (wEnsure n s).2 := by
  rcases wEnsure_spec n s with ⟨q, e, -⟩ | ⟨cap, mem, q, e, -, hge, hmax, hread, hwf, -⟩ <;> rw [e]
  · exact .refl s
  · intro hs
    have hpos := hs.pos_le hv
    obtain ⟨⟨-, hbuffer, -⟩, hwf', hcap⟩ := hs
    obtain ⟨hpend, hcnt, -⟩ := hbuffer hv
    refine ⟨writerSound_of_buffer hv hpend hcnt ?_ (hwf hwf') (hmax hcap), fun htail _ hmid => ?_⟩
    · show s.wpos.toNat ≤ 8 * cap
      omega
    · have hmid' : s.wpos.toNat % 8 ≠ 0 := hmid
      show TailZeroAt mem s.wpos.toNat
      unfold TailZeroAt
      rw [hread _ (by omega)]
      exact htail hv hmid'

theorem exec_writer_keeps {i : Instr} {s t : State} (hi : i.isWriter = true) (h : exec i s = .next t) :
    WriterKeeps s t := by
  have hsame : WriterKeeps s s := .refl s
  cases i with simp only [exec] at h
  | wBitb n =>
    refine command_keeps h hsame (fun _ => hsame) fun _ hc e => respondWrite_wBits_keeps ?_ e
    have := ((chunkWidthOk_iff n).1 hc).2
    omega
  | wByte => exact command_keeps h hsame (fun _ => hsame) fun _ _ e => respondWrite_wBits_keeps (by decide) e
  | wBool => exact command_keeps h hsame (fun _ => hsame) fun _ _ e => respondWrite_wBits_keeps (by decide) e
  | wBits n =>
    exact command_keeps h hsame (fun _ => hsame) fun _ hc e => respondWrite_wBits_keeps ((bitCountOk_iff n).1 hc) e
  | wField n =>
    exact command_keeps h hsame (fun _ => hsame) fun _ hc e => respondWrite_wBits_keeps ((fieldWidthOk_iff n).1 hc).2 e
  | wAlign =>
    refine command_keeps h hsame (fun _ => hsame) fun _ _ e => ?_
    split at e
    · next hv =>
      cases e
      exact wPushPending_keeps hv
    · next hv =>
      cases e
      exact writerKeeps_align hv
  | wGrow =>
    refine command_keeps h hsame (fun _ => hsame) fun ha _ e => ?_
    have hv : s.cfg.wvar ≠ .stream := by simp [of_decide_eq_true ha]
    have hgrown := wEnsure_keeps (opndValue s).toNat hv
    split at e <;>
    · next he =>
      rw [he] at hgrown
      cases e
      exact hgrown
  | wFlush =>
    refine command_keeps h hsame (fun _ => hsame) fun ha _ e => ?_
    cases e
    exact wPushPending_keeps (of_decide_eq_true ha)
  | wLen =>
    refine command_keeps h hsame (fun _ => hsame) fun _ _ e => ?_
    cases e
    exact hsame
  | wPos =>
    cases h
    exact hsame
  | wRst =>
    refine command_keeps h hsame (fun _ => hsame) fun _ _ e => ?_
    cases e
    exact writerKeeps_rewind s
  | _ => cases hi

/-! ### The invariants over a step -/

/-- A command keeps the reader's invariant, whichever unit it is of. -/
theorem exec_readerSound {i : Instr} {s t : State} (hs : ReaderSound s) (h : exec i s = .next t) : ReaderSound t := by
  cases hr : i.isReader with
  | true => exact exec_reader_readerSound hr hs h
  | false =>
    obtain ⟨⟨hcfg, -⟩, hpos, hpend, hcnt, -⟩ := (exec_nonReader_raisedOr hr h).writer_keeps
    unfold ReaderSound ReaderInv
    rwa [hcfg, hpos, hpend, hcnt]

/-- A command keeps the writer's invariants, whichever unit it is of. -/
theorem exec_writerKeeps {i : Instr} {s t : State} (h : exec i s = .next t) : WriterKeeps s t := by
  cases hw : i.isWriter with
  | true => exact exec_writer_keeps hw h
  | false =>
    obtain ⟨⟨hcfg, -⟩, hpos, hpend, hcnt, hbuf, hcap, -⟩ := (exec_nonWriter_raisedOr hw h).reader_keeps
    unfold WriterKeeps WriterSound WriterInv TailZero
    rw [hcfg, hpos, hpend, hcnt, hbuf, hcap]
    exact fun hs => ⟨hs, id⟩

/-- A raised condition's code is one of the three FCAUSE can hold (R28, R190). -/
theorem faultInv_raise {st : Status} (hst : st.isFatal = true) (s : State) : FaultInv (s.raise st) := by
  refine ⟨fun h => by simp at h, fun _ => ?_⟩
  cases st with
  | precond => exact .inl rfl
  | illegal => exact .inr (.inl rfl)
  | posovf => exact .inr (.inr rfl)
  | _ => cases hst

theorem exec_faultInv {i : Instr} {s t : State} (hs : FaultInv s) (h : exec i s = .next t) : FaultInv t := by
  obtain ⟨u, hu, hcase⟩ := exec_answers i s
  rw [hu] at h
  cases h
  rcases hcase with ⟨hfault, hcause⟩ | ⟨st, hst, rfl⟩
  · unfold FaultInv
    rwa [hfault, hcause]
  · exact faultInv_raise hst s

theorem inv_iff (s : State) : Inv s ↔ ReaderSound s ∧ WriterSound s ∧ FaultInv s ∧ Params.valid s.cfg = true ∧
    Memory.wf s.rbuf = true := by
  constructor
  · rintro ⟨hreader, hwriter, hfault, hvalid, hrbuf, hwbuf, hcap⟩
    exact ⟨⟨hreader, ((Params.valid_iff _).1 hvalid).1.1⟩, ⟨hwriter, hwbuf, hcap⟩, hfault, hvalid, hrbuf⟩
  · rintro ⟨⟨hreader, -⟩, ⟨hwriter, hwbuf, hcap⟩, hfault, hvalid, hrbuf⟩
    exact ⟨hreader, hwriter, hfault, hvalid, hrbuf, hwbuf, hcap⟩

theorem exec_inv {i : Instr} {s t : State} (hs : Inv s) (h : exec i s = .next t) : Inv t := by
  obtain ⟨hreader, hwriter, hfault, hvalid, hrbuf⟩ := (inv_iff s).1 hs
  obtain ⟨hcfg, hbuf, -⟩ := exec_sharedKept h
  exact (inv_iff t).2 ⟨exec_readerSound hreader h, (exec_writerKeeps h hwriter).1, exec_faultInv hfault h,
    by rwa [hcfg], by rwa [hbuf]⟩

theorem illegalWord_inv {s : State} (hs : Inv s) : Inv (illegalWord s) := by
  rcases illegalWord_cases s with ⟨-, e⟩ | ⟨-, e⟩ <;> rw [e]
  · exact hs
  · obtain ⟨hreader, hwriter, -, hstore⟩ := hs
    exact ⟨hreader, hwriter, faultInv_raise rfl s, hstore⟩

/-- Settles O50: a command and an illegal word keep the invariants, a reset establishes them from its own check. -/
theorem stepKeepsTheInvariants : Obligations.StepKeepsTheInvariants := by
  intro s t hs h
  rcases step_next_cases h with ⟨-, rfl⟩ | ⟨w, o, rest, i, -, he⟩ | ⟨w, o, rest, -, rfl⟩ | ⟨rest, -, hvalid, rfl⟩ |
    ⟨b, rest, -, hvalid, rfl⟩
  · exact hs
  · have hissued : Inv (s.issue w o rest) := hs
    exact exec_inv hissued he
  · have hissued : Inv (s.issue w o rest) := hs
    exact illegalWord_inv hissued
  · obtain ⟨-, ⟨-, hwbuf, -⟩, -, -, hrbuf⟩ := (inv_iff s).1 hs
    exact inv_load hvalid hrbuf hwbuf
  · simp only [Binding.valid, Bool.and_eq_true] at hvalid
    obtain ⟨⟨hparams, hrbuf⟩, hwbuf⟩ := hvalid
    exact inv_load hparams hrbuf hwbuf

theorem illegalWord_tailZero {s : State} (hs : TailZero s) : TailZero (illegalWord s) := by
  rcases illegalWord_cases s with ⟨-, e⟩ | ⟨-, e⟩ <;> rw [e] <;> exact hs

/-- Settles O51: a command keeps the zero tail with the writer's invariants, a reset takes it from the boot requirement. -/
theorem stepKeepsTheInProgressTailZero : Obligations.StepKeepsTheInProgressTailZero := by
  intro s t hs htail hboot h
  unfold BootReady at hboot
  rcases step_next_cases h with ⟨-, rfl⟩ | ⟨w, o, rest, i, -, he⟩ | ⟨w, o, rest, -, rfl⟩ | ⟨rest, hp, hvalid, rfl⟩ |
    ⟨b, rest, hp, hvalid, rfl⟩
  · exact htail
  · obtain ⟨-, hwriter, -⟩ := (inv_iff s).1 hs
    have hissued : WriterSound (s.issue w o rest) := hwriter
    exact (exec_writerKeeps he hissued).2 htail
  · have hissued : TailZero (s.issue w o rest) := htail
    exact illegalWord_tailZero hissued
  · rw [hp] at hboot
    exact tailZero_load hvalid hboot
  · rw [hp] at hboot
    simp only [Binding.valid, Bool.and_eq_true] at hvalid
    obtain ⟨⟨hparams, -⟩, -⟩ := hvalid
    exact tailZero_load hparams hboot

end Sys2Proof.Machine
end

/-! PROOFS. What a data command answers to what the shared body of its unit hands back: for the reader's commands RBits
(41_reader.md R130 to R134, R142), for the writer's WBits (42_writer.md R150 to R154); and a feed's listed answers. -/

section
namespace Sys2Proof

/-! ### Listed answers -/

/-- A feed of answers that lists k times `true` and then `false` (20_memory.md R53, R56). -/
def Feed.trueUntil (k : Nat) (q : List Bool) (after : After) : Feed Bool := ⟨List.replicate k true ++ false :: q, after⟩

theorem Feed.head_skip_trueUntil (e : Nat → Nat → Bool) {j k : Nat} (q : List Bool) (after : After) (h : j ≤ k) :
    ((Feed.trueUntil k q after).skip j).head e = some (decide (j < k)) := by
  unfold Feed.trueUntil
  rw [Feed.head_skip_listed e after (by simp; omega)]
  by_cases hj : j < k
  · simp [List.getElem_append_left, hj]
  · have hjk : j = k := by omega
    subst hjk
    simp

theorem Feed.skip_trueUntil (k : Nat) (q : List Bool) (after : After) :
    (Feed.trueUntil k q after).skip (k + 1) = ⟨q, after⟩ := by
  have h := Feed.skip_append (List.replicate k true ++ [false]) q after
  simpa [Feed.trueUntil] using h

namespace Machine

theorem sourceAnswers_trueUntil {s : State} {j k : Nat} {q : List Bool} {after : After}
    (h : s.env.pulls = Feed.trueUntil k q after) (hj : j ≤ k) : sourceAnswers s j = decide (j < k) := by
  unfold sourceAnswers
  rw [h, Feed.head_skip_trueUntil _ _ _ hj, Option.getD_some]

theorem sinkAccepts_trueUntil {s : State} {j k : Nat} {q : List Bool} {after : After}
    (h : s.env.accepts = Feed.trueUntil k q after) (hj : j ≤ k) : sinkAccepts s j = decide (j < k) := by
  unfold sinkAccepts
  rw [h, Feed.head_skip_trueUntil _ _ _ hj, Option.getD_some]

/-! ### The checks, passed -/

/-- With FAULT clear and every check passed, a command answers as its own rule does. -/
theorem command_passed {a c o : Bool} {own : State → Result} {s : State} {r : Result} (hf : s.fault = false)
    (ha : a = true) (hc : c = true) (ho : o = false) (hown : own s = r) : command a c o own s = r := by
  subst ha hc ho
  exact (command_own hf).trans hown

theorem wellFormed_iff (i : Instr) : i.wellFormed = true ↔
    i.countRange.1 ≤ i.countField.toNat ∧ i.countField.toNat ≤ i.countRange.2 := by
  simp [Instr.wellFormed]

theorem readOverflows_eq_false {s : State} {n : Nat} (h : s.cfg.rvar = .stream → s.rpos.toNat + n ≤ maxPos) :
    readOverflows s n = false := by
  simp only [readOverflows, decide_eq_false_iff_not, not_and, not_lt]
  exact h

theorem writeOverflows_eq_false {s : State} {n : Nat} (h : s.cfg.wvar = .stream → s.wpos.toNat + n ≤ maxPos) :
    writeOverflows s n = false := by
  simp only [writeOverflows, decide_eq_false_iff_not, not_and, not_lt]
  exact h

/-! ### The reader's data commands -/

/-- A request of one chunk is that chunk, its byte in lane 0 (R15, R137). -/
theorem rBits_of_rChunk {n : Nat} {s t : State} {out : Option Byte} (h1 : 1 ≤ n) (h8 : n ≤ 8)
    (h : rChunk n s = .ok (out, t)) :
    rBits n s = .ok (match out with
      | none => ⟨.eod, 0, 0, t⟩
      | some b => ⟨.ok, n, inLane b 0, t⟩) := by
  unfold rBits
  split
  · rename_i hpast
    simp only [rChunk, hpast.1, hpast.2, if_true] at h
    cases h
    rfl
  · rw [chunkSizes_single h1 h8]
    cases out <;> simp [rChunks, h]

/-- A one-chunk command is its request's answer with the lane word put through `g` (R130 to R132). -/
theorem respondChunk_of_rBits {n : Nat} {result : Byte → U64} {s : State} {run : ReadRun} (g : U64 → U64) (h1 : 1 ≤ n)
    (h8 : n ≤ 8) (hg : ∀ out, result out = g (inLane out 0)) (hg0 : g 0 = 0) (hrun : rBits n s = .ok run) :
    respondChunk n result (rChunk n s) = .next (run.post.respond run.status run.done (g run.res)) := by
  obtain ⟨⟨out, t⟩, ht⟩ := rChunk_ne_error n s h1 h8
  rw [rBits_of_rChunk h1 h8 ht] at hrun
  rw [ht]
  cases out with
  | none =>
    cases hrun
    simp only [respondChunk, hg0]
  | some out =>
    cases hrun
    simp only [respondChunk, hg]

/-- The first bit of a chunk is the lane word's, unpacked as a field of one bit (R95, R132). -/
theorem boolResult_eq_unpackWord (out : Byte) : boolResult (out.getLsbD 7) = unpackWord (inLane out 0) 1 := by
  revert out
  decide

/-- A well-formed data command asks for at most 64 bits (R92). -/
theorem readBits_le {i : Instr} {n : Nat} (hw : i.wellFormed = true) (hn : i.readBits = some n) : n ≤ 64 := by
  obtain ⟨-, hhi⟩ := (wellFormed_iff i).1 hw
  cases i with simp only [Instr.readBits, Option.some.injEq, reduceCtorEq] at hn <;>
    simp only [Instr.countRange, Instr.countField] at hhi
  | _ => omega

/-- The state t a data command answers when RBits has handed back `run`, which moved k of the n bits asked for: the body's
state with a response, and on R.FIELD's EOD a free RESULT (R130 to R134, R138, R142). -/
structure ReadAnswered (i : Instr) (n : Nat) (s : State) (run : ReadRun) (k : Nat) (t : State) : Prop where
  moved  : ReadMoved s [] n 0 run k
  status : t.status = run.status
  count  : t.count = BitVec.ofNat 8 k
  whole  : run.status = .ok → t.result = i.readResult (unreadBits n s)
  short  : run.status = .eod → (∀ m, i ≠ .rField m) → t.result = leftJustified (unreadBits k s)
  free   : run.status = .ok ∨ (∀ m, i ≠ .rField m) → t.freeIdx = s.freeIdx
  post   : t = { run.post with status := t.status, count := t.count, result := t.result, freeIdx := t.freeIdx }

section Answered

variable {i : Instr} {n k : Nat} {s t : State} {run : ReadRun}

theorem ReadAnswered.rest (h : ReadAnswered i n s run k t) (b : Nat) : unreadBits b t = (unreadBits (k + b) s).drop k := by
  rw [← h.moved.rest b, h.post]
  rfl

theorem ReadAnswered.pos (h : ReadAnswered i n s run k t) : t.rpos = BitVec.ofNat 64 (s.rpos.toNat + k) := by
  rw [← h.moved.pos, h.post]

theorem ReadAnswered.source (h : ReadAnswered i n s run k t) : t.src = run.post.src ∧ t.env.pulls = run.post.env.pulls := by
  rw [h.post]
  exact ⟨rfl, rfl⟩

theorem ReadAnswered.pending (h : ReadAnswered i n s run k t) : t.rpend = run.post.rpend ∧ t.rpcnt = run.post.rpcnt := by
  rw [h.post]
  exact ⟨rfl, rfl⟩

theorem ReadAnswered.only (h : ReadAnswered i n s run k t) : OnlyReaderMoved s t := by
  have hpost : OnlyReaderMoved run.post t := by
    rw [h.post]
    rfl
  exact h.moved.only.trans hpost

/-- The response of every data command but R.FIELD under EOD. -/
theorem ReadMoved.answered {r : U64} (h : ReadMoved s [] n 0 run k)
    (hwhole : run.status = .ok → run.res = leftJustified (unreadBits n s) → r = i.readResult (unreadBits n s))
    (hshort : run.status = .eod → run.res = leftJustified (unreadBits k s) → r = leftJustified (unreadBits k s)) :
    ReadAnswered i n s run k (run.post.respond run.status run.done r) := by
  have hres := h.res
  rw [List.nil_append] at hres
  refine ⟨h, rfl, by rw [State.respond_count, h.done, Nat.zero_add], fun hok => hwhole hok ?_,
    fun heod _ => hshort heod hres, fun _ => h.free, rfl⟩
  obtain ⟨-, hk⟩ | ⟨heod, -⟩ := h.status
  · rw [hres, hk]
  · simp [hok] at heod

end Answered

/-- RBits' lane word, unpacked, is the value of the bits read (R134). -/
theorem ReadMoved.unpack_res {s : State} {n k : Nat} {run : ReadRun} (h : ReadMoved s [] n 0 run k) (hn : n ≤ 64)
    (hok : run.status = .ok) : unpackWord run.res n = BitVec.ofNat 64 (bitsValue (unreadBits n s)) := by
  have hk : k = n := by
    rcases h.status with ⟨-, hk⟩ | ⟨heod, -⟩
    · exact hk
    · simp [hok] at heod
  subst hk
  have hvalue := unpackWord_leftJustified (bs := unreadBits k s) (by rw [h.enough]; exact hn)
  rw [h.enough] at hvalue
  rw [h.res, List.nil_append, hvalue]

/-- A run that ends EOD inside its first byte read nothing: its lane word is empty. -/
theorem ReadMoved.res_eq_zero_of_eod {s : State} {n k : Nat} {run : ReadRun} (h : ReadMoved s [] n 0 run k) (hn : n ≤ 8)
    (heod : run.status = .eod) : run.res = 0 := by
  have hk : k = 0 := by
    rcases h.status with ⟨hok, -⟩ | ⟨-, hlt, hmod⟩
    · simp [hok] at heod
    · omega
  have hnone : unreadBits 0 s = [] := List.eq_nil_of_length_eq_zero (Nat.le_zero.1 (length_unreadBits_le 0 s))
  rw [h.res, hk, hnone]
  rfl

/-- R.FIELD's response: the field's value on OK, a free RESULT under EOD (R134, log entry 5). -/
theorem ReadMoved.field_answered {c : BitVec 8} {s : State} {k : Nat} {run : ReadRun}
    (h : ReadMoved s [] c.toNat 0 run k) (hc : c.toNat ≤ 64) :
    ∃ t, respondField c.toNat (.ok run) = .next t ∧ ReadAnswered (.rField c) c.toNat s run k t := by
  simp only [respondField]
  rcases h.status with ⟨hok, hk⟩ | ⟨heod, -⟩
  · simp only [hok]
    have hanswered := h.answered (i := .rField c) (fun _ _ => h.unpack_res hc hok) (fun heod => by simp [hok] at heod)
    rw [hok, h.done, Nat.zero_add] at hanswered
    subst hk
    exact ⟨_, rfl, hanswered⟩
  · simp only [heod]
    refine ⟨_, rfl, h, heod.symm, by rw [State.respond_count, h.done, Nat.zero_add], fun hok => by simp [heod] at hok,
      fun _ hne => absurd rfl (hne c), fun hfree => ?_, rfl⟩
    rcases hfree with hok | hne
    · simp [heod] at hok
    · exact absurd rfl (hne c)

/-- With its checks passed a reader data command answers what RBits moved, whatever the source or the buffer did. -/
theorem exec_readAnswered {i : Instr} {n k : Nat} {s : State} {run : ReadRun} (hf : s.fault = false)
    (ha : i.availableIn s.cfg = true) (hw : i.wellFormed = true) (hn : i.readBits = some n)
    (hpos : s.cfg.rvar = .stream → s.rpos.toNat + n ≤ maxPos) (hrun : rBits n s = .ok run)
    (hm : ReadMoved s [] n 0 run k) : ∃ t, exec i s = .next t ∧ ReadAnswered i n s run k t := by
  have hover := readOverflows_eq_false hpos
  have hlane : ∀ out, lanes out = id (inLane out 0) := fun _ => rfl
  obtain ⟨hlo, hhi⟩ := (wellFormed_iff i).1 hw
  cases i with simp only [Instr.readBits, Option.some.injEq, reduceCtorEq] at hn <;> subst hn <;> simp only [exec]
  | rBitb c =>
    exact ⟨_, command_passed hf rfl ((chunkWidthOk_iff c).2 ⟨hlo, hhi⟩) hover
      (respondChunk_of_rBits id hlo hhi hlane rfl hrun), hm.answered (fun _ h => h) (fun _ h => h)⟩
  | rByte =>
    exact ⟨_, command_passed hf rfl rfl hover (respondChunk_of_rBits id (by decide) (by decide) hlane rfl hrun),
      hm.answered (fun _ h => h) (fun _ h => h)⟩
  | rBool =>
    refine ⟨_, command_passed hf rfl rfl hover (respondChunk_of_rBits (fun l => unpackWord l 1) (by decide)
      (by decide) boolResult_eq_unpackWord rfl hrun), hm.answered (fun hok _ => ?_) (fun heod h => ?_)⟩
    · exact hm.unpack_res (by decide) hok
    · rw [← h, hm.res_eq_zero_of_eod (by decide) heod]
      rfl
  | rBits c =>
    exact ⟨_, command_passed hf rfl ((bitCountOk_iff c).2 hhi) hover (congrArg respondRead hrun),
      hm.answered (fun _ h => h) (fun _ h => h)⟩
  | rArr c =>
    exact ⟨_, command_passed hf ha ((byteCountOk_iff c).2 hhi) rfl (congrArg respondRead hrun),
      hm.answered (fun _ h => h) (fun _ h => h)⟩
  | rField c =>
    obtain ⟨t, ht, hanswered⟩ := hm.field_answered hhi
    exact ⟨t, command_passed hf rfl ((fieldWidthOk_iff c).2 ⟨hlo, hhi⟩) hover
      ((congrArg (respondField c.toNat) hrun).trans ht), hanswered⟩

/-- A reader data command with its checks passed: what it moved, and on a stream what it pulled and when it stops short. -/
theorem exec_read_spec {i : Instr} {n : Nat} {s : State} (hf : s.fault = false) (ha : i.availableIn s.cfg = true)
    (hw : i.wellFormed = true) (hn : i.readBits = some n) (hpos : s.cfg.rvar = .stream → s.rpos.toNat + n ≤ maxPos)
    (hr : s.cfg.rvar = .buffer → s.cfg.rlen ≤ maxBytes ∧ s.rpos.toNat ≤ 8 * s.cfg.rlen) :
    ∃ t run k, exec i s = .next t ∧ ReadAnswered i n s run k t ∧
      (s.cfg.rvar = .buffer → run.status = .eod → k = 0 ∧ run.post = s ∧ (unreadBits n s).length < n) ∧
      (s.cfg.rvar = .stream → PulledFor s n run k) ∧
      (s.cfg.rvar = .stream → SourceWilling s (pullsNeeded s.rpcnt.toNat n) → run.status = .eod → ShortOf s n k) := by
  obtain ⟨run, k, hrun, hm, hbuffer, hpulled, hshort⟩ := rBits_spec s (readBits_le hw hn) hr
  obtain ⟨t, ht, hanswered⟩ := exec_readAnswered hf ha hw hn hpos hrun hm
  exact ⟨t, run, k, ht, hanswered, hbuffer, hpulled, hshort⟩

/-- A reader data command whose bits are there, on a stream with a source willing to give them, ends OK with all of them
moved, and a stream has pulled exactly the bytes it needs (R137, R63). -/
theorem exec_read_complete {i : Instr} {n : Nat} {s : State} (hf : s.fault = false) (ha : i.availableIn s.cfg = true)
    (hw : i.wellFormed = true) (hn : i.readBits = some n) (hpos : s.cfg.rvar = .stream → s.rpos.toNat + n ≤ maxPos)
    (hr : s.cfg.rvar = .buffer → s.cfg.rlen ≤ maxBytes ∧ s.rpos.toNat ≤ 8 * s.cfg.rlen)
    (hwill : s.cfg.rvar = .stream → SourceWilling s (pullsNeeded s.rpcnt.toNat n))
    (hbits : (unreadBits n s).length = n) :
    ∃ t run, exec i s = .next t ∧ run.status = .ok ∧ ReadAnswered i n s run n t ∧
      (s.cfg.rvar = .stream → t.src = s.src.skip (pullsNeeded s.rpcnt.toNat n) ∧
        t.env.pulls = s.env.pulls.skip (pullsNeeded s.rpcnt.toNat n)) := by
  obtain ⟨t, run, k, ht, hanswered, hbuffer, hpulled, hshort⟩ := exec_read_spec hf ha hw hn hpos hr
  have hnot : run.status ≠ .eod := by
    intro heod
    have hlt : (unreadBits n s).length < n := by
      cases hv : s.cfg.rvar with
      | buffer => exact (hbuffer hv heod).2.2
      | stream => exact (hshort hv (hwill hv) heod).1
    omega
  obtain ⟨hok, hk⟩ | ⟨heod, -⟩ := hanswered.moved.status
  · subst hk
    refine ⟨t, run, ht, hok, hanswered, fun hv => ?_⟩
    obtain ⟨hsrc, hpulls⟩ := hanswered.source
    obtain ⟨p, -, hskip, ⟨-, hp, hq⟩ | ⟨heod, -⟩⟩ := hpulled hv
    · subst hp
      exact ⟨hsrc.trans hskip, hpulls.trans hq⟩
    · exact absurd heod hnot
  · exact absurd heod hnot

theorem availableIn_of_ne_rArr {i : Instr} {n : Nat} (c : Params) (hn : i.readBits = some n) (hne : ∀ m, i ≠ .rArr m) :
    i.availableIn c = true := by
  cases i with
  | rArr m => exact absurd rfl (hne m)
  | rBitb | rByte | rBool | rBits | rField => rfl
  | _ => simp [Instr.readBits] at hn

/-! ### The writer's data commands -/

/-- A lane word shorter by some bits shows the first of them. -/
theorem laneBits_eq_take {l : U64} {bits : List Bool} {k : Nat} (h : laneBits l bits.length = bits)
    (hk : k ≤ bits.length) : laneBits l k = bits.take k := by
  conv_rhs => rw [← h]
  simp [laneBits, ← List.map_take, List.take_range, hk]

/-- The byte in lane 0, alone in a lane word, has the operand's first bits (R95, R150). -/
theorem laneBits_lanes_lane (o : U64) {n : Nat} (h : n ≤ 8) : laneBits (lanes (lane o 0)) n = laneBits o n := by
  apply List.ext_getElem
  · simp
  · intro t h1 h2
    simp only [laneBits_length] at h1
    rw [laneBits_getElem, laneBits_getElem, lanes, inLane_getLsbD _ (by omega), lane_getLsbD _ _ (by omega)]
    have hlow : 56 - 8 * 0 ≤ 63 - t := by omega
    have hbit : 56 - 8 * 0 + (63 - t - (56 - 8 * 0)) = 63 - t := by omega
    rw [hbit, decide_eq_true hlow, Bool.true_and]

/-- A boolean at the top of a byte is the first bit of its lane word (R152). -/
theorem laneBits_lanes_bool (b : Bool) : laneBits (lanes (if b then 0x80 else 0x00)) 1 = [b] := by
  cases b <;> decide

/-- With its checks passed a writer data command is WBits over a lane word that starts with its operand's bits (R150 to
R154). -/
theorem exec_write_eq {i : Instr} {bits : List Bool} {s : State} (hf : s.fault = false) (hw : i.wellFormed = true)
    (hb : i.operandBits s.opnd = some bits) (hpos : s.cfg.wvar = .stream → s.wpos.toNat + bits.length ≤ maxPos) :
    ∃ l, bits.length ≤ 64 ∧ laneBits l bits.length = bits ∧ exec i s = respondWrite (wBits l bits.length s) := by
  have hover := writeOverflows_eq_false hpos
  obtain ⟨hlo, hhi⟩ := (wellFormed_iff i).1 hw
  cases i with simp only [Instr.operandBits, Option.some.injEq, reduceCtorEq] at hb <;> subst hb <;>
    simp only [exec, laneBits_length, valueBits_length] at hover ⊢
  | wBitb c =>
    exact ⟨_, hhi.trans (show 8 ≤ 64 by decide), laneBits_lanes_lane s.opnd hhi,
      command_passed hf rfl ((chunkWidthOk_iff c).2 ⟨hlo, hhi⟩) hover rfl⟩
  | wByte =>
    exact ⟨_, by decide, laneBits_lanes_lane s.opnd (le_refl 8), command_passed hf rfl rfl hover rfl⟩
  | wBool =>
    exact ⟨_, show 1 ≤ 64 by decide, laneBits_lanes_bool (opndBool s), command_passed hf rfl rfl hover rfl⟩
  | wBits c =>
    exact ⟨_, hhi, rfl, command_passed hf rfl ((bitCountOk_iff c).2 hhi) hover rfl⟩
  | wField c =>
    exact ⟨_, hhi, laneBits_packWord _ hhi, command_passed hf rfl ((fieldWidthOk_iff c).2 ⟨hlo, hhi⟩) hover rfl⟩

/-- A writer data command with its checks passed, in a state that meets the invariants: what it wrote of its operand. -/
theorem exec_write_spec {i : Instr} {bits : List Bool} {s : State} (hs : Inv s) (hf : s.fault = false)
    (hw : i.wellFormed = true) (hb : i.operandBits s.opnd = some bits)
    (hpos : s.cfg.wvar = .stream → s.wpos.toNat + bits.length ≤ maxPos) :
    ∃ l run k, laneBits l bits.length = bits ∧ exec i s = .next (run.post.respond run.status k 0) ∧
      WriterWrote s l bits.length run k ∧ (RoomFor s bits.length → run.status = .ok) ∧
      (s.cfg.wvar = .growable → run.status = .capacity → ∃ q, run.post = s.setGrown s.wcap s.wbuf q) ∧
      (s.cfg.wvar = .fixed → 8 * s.wcap < s.wpos.toNat + bits.length →
        run.status = .capacity ∧ k = 8 * ((8 * s.wcap - s.wpos.toNat) / 8)) := by
  have hready := writerReady_of_inv hs
  obtain ⟨-, ⟨-, hbuffer, -⟩, -⟩ := hs
  obtain ⟨l, hlen, hbits, hexec⟩ := exec_write_eq hf hw hb hpos
  obtain ⟨run, k, hrun, hwrote, hrest⟩ := wBits_spec l s hlen hready fun hv => (hbuffer hv).2.2
  refine ⟨l, run, k, hbits, ?_, hwrote, hrest⟩
  rw [hexec, hrun, respondWrite, hwrote.done]

end Machine
end Sys2Proof
end

/-! PROOFS. The stores' contracts seen from the commands (20_memory.md R52 to R56, R63, R65, R66): a stream command stops at
the answer that fails and does not ask again, a stream reader and a buffer reader stay in step, and no step accesses a byte
that does not exist. -/

section
namespace Sys2Proof.Machine

/-! ### The answer that fails -/

/-- Where the source answers k pulls and then `Exhausted`, a run that needs more than k pulls ends EOD at that one. -/
theorem PulledFor.stops_at {s : State} {total k m : Nat} {run : ReadRun} {q : List Bool} {after : After}
    (h : PulledFor s total run m) (hpulls : s.env.pulls = Feed.trueUntil k q after)
    (hsrc : (s.src.take Config.endlessByte k).length = k) (hk : k < pullsNeeded s.rpcnt.toNat total) :
    run.status = .eod ∧ m = 8 * k ∧ run.post.src = s.src.skip k ∧ run.post.env.pulls = ⟨q, after⟩ ∧
      (k = 0 → run.post.rpend = s.rpend ∧ run.post.rpcnt = s.rpcnt) := by
  obtain ⟨p, hanswered, hskip, hend⟩ := h
  have hple : p ≤ k := by
    by_contra hlt
    have hyes := hanswered k (by omega)
    rw [sourceAnswers_trueUntil hpulls (le_refl k)] at hyes
    simp at hyes
  rcases hend with ⟨-, hp, -⟩ | ⟨heod, hm, -, hq, hfail, hnone⟩
  · omega
  · have hpk : p = k := by
      by_contra hne
      have hlt : p < k := by omega
      rcases hfail with hno | hdry
      · rw [sourceAnswers_trueUntil hpulls hple] at hno
        simp [hlt] at hno
      · exact Feed.head_skip_ne_none hsrc hlt hdry
    subst hpk
    rw [hpulls, Feed.skip_trueUntil] at hq
    exact ⟨heod, hm, hskip, hq, fun h0 => hnone (by omega)⟩

/-- Settles O23: the pulls of R63 stop at the first `Exhausted`, k whole bytes into the request. -/
theorem streamReadsStopAtTheExhaustedPull : Obligations.StreamReadsStopAtTheExhaustedPull := by
  intro i n k q after s hf hv ha hw hn hpos hpulls hsrc hk
  obtain ⟨t, run, m, ht, hanswered, -, hpulled, -⟩ :=
    exec_read_spec hf ha hw hn (fun _ => hpos) (fun hb => by simp [hv] at hb)
  obtain ⟨heod, hm, hskip, hq, hnone⟩ := (hpulled hv).stops_at hpulls hsrc hk
  subst hm
  obtain ⟨hsrc', hpulls'⟩ := hanswered.source
  obtain ⟨hpend, hcnt⟩ := hanswered.pending
  refine ⟨t, ht, hanswered.status.trans heod, hanswered.count, hanswered.pos, hsrc'.trans hskip, hpulls'.trans hq,
    hanswered.rest, fun hne => ⟨hanswered.short heod hne, hanswered.free (.inr hne)⟩, fun h0 => ?_, hanswered.only⟩
  rw [hpend, hcnt]
  exact hnone h0

/-- Where the sink accepts k pushes and then refuses, a run that needs more than k pushes ends CAPACITY at that one. -/
theorem PushedUntil.stops_at {s : State} {total k m : Nat} {run : WriteRun} {q : List Bool} {after : After}
    (h : PushedUntil s total run m) (haccepts : s.env.accepts = Feed.trueUntil k q after)
    (hk : k < (s.wpcnt.toNat + total) / 8) :
    run.status = .capacity ∧ m = 8 * k ∧ run.post.snk.length = s.snk.length + k ∧
      run.post.env.accepts = ⟨q, after⟩ := by
  obtain ⟨p, ⟨haccepted, hlen⟩, hend⟩ := h
  have hple : p ≤ k := by
    by_contra hlt
    have hyes := haccepted k (by omega)
    rw [sinkAccepts_trueUntil haccepts (le_refl k)] at hyes
    simp at hyes
  rcases hend with ⟨-, hp, -⟩ | ⟨hcap, hm, -, hq, hno⟩
  · omega
  · have hpk : p = k := by
      by_contra hne
      have hlt : p < k := by omega
      rw [sinkAccepts_trueUntil haccepts hple] at hno
      simp [hlt] at hno
    subst hpk
    rw [haccepts, Feed.skip_trueUntil] at hq
    exact ⟨hcap, hm, hlen, hq⟩

/-- Settles O36: the pushes of R65 stop at the first refusal, k whole bytes into the request. -/
theorem streamWritesStopAtTheRefusedPush : Obligations.StreamWritesStopAtTheRefusedPush := by
  intro i bits k q after s hs hf hv hw hb hpos haccepts hk
  obtain ⟨l, run, m, hl, hexec, hwrote, -⟩ := exec_write_spec hs hf hw hb fun _ => hpos
  obtain ⟨hcap, hm, hlen, hq⟩ := (hwrote.pushed hv).stops_at haccepts hk
  subst hm
  have hfew : 8 * k ≤ bits.length := by
    rcases hwrote.status with ⟨-, h⟩ | ⟨-, -, h, -⟩ <;> omega
  have hbits := hwrote.bits
  rw [laneBits_eq_take hl hfew] at hbits
  exact ⟨_, hexec, hcap, rfl, hwrote.pos, hlen, hq, hbits, hwrote.kept,
    hwrote.only.trans (onlyWriterMoved_respond _ _ _ _)⟩

/-! ### Two readers over the same bits -/

/-- The reader's cursor has passed k of the bits to come, and only the reader has moved. -/
structure ReaderPassed (s : State) (k : Nat) (t : State) : Prop where
  pos  : t.rpos = BitVec.ofNat 64 (s.rpos.toNat + k)
  rest : ∀ h, unreadBits h t = (unreadBits (k + h) s).drop k
  only : OnlyReaderMoved s t

theorem ReadAnswered.passed {i : Instr} {n k : Nat} {s t : State} {run : ReadRun} (h : ReadAnswered i n s run k t) :
    ReaderPassed s k t := ⟨h.pos, h.rest, h.only⟩

theorem readerPassed_respond (s : State) (st : Status) (c : Nat) (r : U64) : ReaderPassed s 0 (s.respond st c r) := by
  refine ⟨by simp, fun h => ?_, onlyReaderMoved_respond s st c r⟩
  rw [Nat.zero_add, List.drop_zero]
  rfl

/-- On a buffer R.ALIGN passes the padding bits (R135). -/
theorem readerPassed_align_buffer {s : State} (hv : s.cfg.rvar = .buffer) (hlen : s.cfg.rlen ≤ maxBytes)
    (hle : s.rpos.toNat ≤ 8 * s.cfg.rlen) :
    ReaderPassed s (padBits s.rpos.toNat) (s.setReader (s.rpos.toNat + padBits s.rpos.toNat) 0 0) := by
  refine ⟨rfl, fun h => ?_, onlyReaderMoved_setReader s _ _ _⟩
  have hin := alignUp_le hle
  rw [← add_padBits] at hin
  have hpos := toNat_ofNat64_of_le_maxBytes hin hlen
  rw [unreadBits_buffer hv, unreadBits_buffer (s := s.setReader _ _ _) hv, bitsAt_drop]
  simp only [State.setReader_cfg, State.setReader_rbuf, State.setReader_rpos, hpos]
  congr 1
  omega

/-- On a stream the padding bits R.ALIGN passes are the unread bits of the pending byte (R25, R135). -/
theorem readerPassed_align_stream {s : State} (hv : s.cfg.rvar = .stream)
    (hcnt : s.rpcnt.toNat = s.rpos.toNat % 8) :
    ReaderPassed s (padBits s.rpos.toNat) (s.setReader (s.rpos.toNat + padBits s.rpos.toNat) 0 0) := by
  refine ⟨rfl, fun h => ?_, onlyReaderMoved_setReader s _ _ _⟩
  have hpending : (pendingBits s).length = padBits s.rpos.toNat := by
    unfold pendingBits padBits alignUp ceil8
    split
    · next h0 =>
      rw [eq_zero_iff_toNat] at h0
      simp only [List.length_nil]
      omega
    · next h0 =>
      rw [eq_zero_iff_toNat] at h0
      rw [List.length_drop, byteBits_length]
      omega
  rw [unreadBits_stream hv (a := padBits s.rpos.toNat + h) (by omega),
    unreadBits_stream (s := s.setReader _ _ _) hv (a := padBits s.rpos.toNat + h) (by omega), List.drop_take,
    List.drop_append_of_le_length (le_of_eq hpending.symm), List.drop_eq_nil_of_le (le_of_eq hpending),
    Nat.add_sub_cancel_left]
  rfl

/-- A position inside the buffer is one a stream's cursor holds (R222, R195). -/
theorem SameBitsToCome.pos_le_maxPos {s u : State} {k : Nat} (h : SameBitsToCome s u)
    (hfit : s.rpos.toNat + k ≤ 8 * s.cfg.rlen) : u.rpos.toNat + k ≤ maxPos := by
  obtain ⟨-, -, -, -, hlen, -, hpos, -⟩ := h
  rw [hpos]
  unfold maxPos
  unfold maxBytes at hlen
  omega

/-- Two readers in step that pass the same number of bits are in step again (R66 item 2). -/
theorem SameBitsToCome.passed {s u t v : State} {k : Nat} (h : SameBitsToCome s u) (hst : ReaderPassed s k t)
    (huv : ReaderPassed u k v) (hfit : s.rpos.toNat + k ≤ 8 * s.cfg.rlen)
    (hcnt : v.rpcnt.toNat = (u.rpcnt.toNat + k) % 8) (hpulls : ∃ p, v.env.pulls = u.env.pulls.skip p) :
    SameBitsToCome t v := by
  obtain ⟨hfs, hfu, hvs, hvu, hlen, -, hpos, hcu, hbits, hwill⟩ := h
  obtain ⟨p, hp⟩ := hpulls
  refine ⟨hst.only.faultKept.1.trans hfs, huv.only.faultKept.1.trans hfu, ?_, ?_, ?_, ?_, ?_, ?_, fun a => ?_,
    fun b j hj => ?_⟩
  · rwa [hst.only.cfg_eq]
  · rwa [huv.only.cfg_eq]
  · rwa [hst.only.cfg_eq]
  · rwa [hst.only.cfg_eq, hst.pos, toNat_ofNat64_of_le_maxBytes hfit hlen]
  · rw [huv.pos, hst.pos, hpos]
  · rw [hcnt, huv.pos, toNat_ofNat64_mod_eight, hcu]
    omega
  · rw [huv.rest, hst.rest, hbits]
  · rw [sourceAnswers_skip hp]
    exact hwill (p + j + 1) (p + j) (by omega)

/-- Both readers complete a read of bits that are there, with the same response (R66 item 2). -/
theorem SameBitsToCome.read {i : Instr} {n : Nat} {s u : State} (h : SameBitsToCome s u) (hw : i.wellFormed = true)
    (hne : ∀ m, i ≠ .rArr m) (hn : i.readBits = some n) (hbits : (unreadBits n s).length = n) :
    ∃ t v, exec i s = .next t ∧ exec i u = .next v ∧ t.status = .ok ∧ v.status = .ok ∧ v.count = t.count ∧
      v.result = t.result ∧ SameBitsToCome t v := by
  obtain ⟨hfs, hfu, hvs, hvu, hlen, hle, -, -, hsame, hwill⟩ := id h
  have hfit : s.rpos.toNat + n ≤ 8 * s.cfg.rlen := by
    rw [unreadBits_buffer hvs, bitsAt_length] at hbits
    omega
  obtain ⟨t, run, ht, hok, hst, -⟩ := exec_read_complete hfs (availableIn_of_ne_rArr _ hn hne) hw hn
    (fun hv => by simp [hvs] at hv) (fun _ => ⟨hlen, hle⟩) (fun hv => by simp [hvs] at hv) hbits
  obtain ⟨v, run', hv, hok', huv, hpulled⟩ := exec_read_complete hfu (availableIn_of_ne_rArr _ hn hne) hw hn
    (fun _ => h.pos_le_maxPos hfit) (fun hv => by simp [hvu] at hv) (fun _ => hwill _) (by rw [hsame, hbits])
  refine ⟨t, v, ht, hv, hst.status.trans hok, huv.status.trans hok', huv.count.trans hst.count.symm, ?_,
    h.passed hst.passed huv.passed hfit ?_ ⟨_, (hpulled hvu).2⟩⟩
  · rw [huv.whole hok', hst.whole hok, hsame]
  · rw [huv.pending.2]
    exact huv.moved.cnt hvu

theorem exec_rAlign {s : State} (hf : s.fault = false)
    (hpos : s.cfg.rvar = .stream → s.rpos.toNat + padBits s.rpos.toNat ≤ maxPos) :
    exec .rAlign s =
      .next ((s.setReader (s.rpos.toNat + padBits s.rpos.toNat) 0 0).respond .ok (padBits s.rpos.toNat) 0) := by
  simp only [exec]
  exact command_passed hf rfl rfl (readOverflows_eq_false hpos) rfl

/-- Both readers align to the same boundary, over the same padding bits (R66 item 2, R135). -/
theorem SameBitsToCome.align {s u : State} (h : SameBitsToCome s u) :
    ∃ t v, exec .rAlign s = .next t ∧ exec .rAlign u = .next v ∧ t.status = .ok ∧ v.status = .ok ∧ v.count = t.count ∧
      v.result = t.result ∧ SameBitsToCome t v := by
  obtain ⟨hfs, hfu, hvs, hvu, hlen, hle, hpos, hcu, -, -⟩ := id h
  have hfit := alignUp_le hle
  rw [← add_padBits] at hfit
  have hu := exec_rAlign hfu fun _ => h.pos_le_maxPos (by rwa [hpos])
  have hpassed := readerPassed_align_stream hvu hcu
  have hcnt : 0 = (u.rpcnt.toNat + padBits u.rpos.toNat) % 8 := by
    have hmod := alignUp_mod u.rpos.toNat
    rw [← add_padBits] at hmod
    omega
  rw [hpos] at hu hpassed hcnt
  have hsame := h.passed (readerPassed_align_buffer hvs hlen hle) hpassed hfit hcnt ⟨0, rfl⟩
  exact ⟨_, _, exec_rAlign hfs fun hv => by simp [hvs] at hv, hu, rfl, rfl, rfl, rfl, hsame⟩

/-- Settles O25, by the three kinds of command: the relation is kept because both readers pass the same bits. -/
theorem streamAndBufferReadersAgree : Obligations.StreamAndBufferReadersAgree := by
  intro i s u h hw hne hi
  rcases hi with ⟨n, hn, hbits⟩ | rfl | rfl
  · exact h.read hw hne hn hbits
  · exact h.align
  · obtain ⟨-, -, -, -, -, hle, hpos, hcu, -⟩ := id h
    refine ⟨_, _, rfl, rfl, rfl, rfl, rfl, hpos, h.passed (readerPassed_respond s _ _ _) (readerPassed_respond u _ _ _) hle ?_
      ⟨0, rfl⟩⟩
    exact (Nat.mod_eq_of_lt u.rpcnt.isLt).symm

/-! ### Accesses stay inside the stores -/

/-- Settles O52: a step answers or refuses a reset (O53), so no store port is asked for a byte that does not exist. -/
theorem noStepAccessesOutsideAStore : Obligations.NoStepAccessesOutsideAStore := by
  intro s f hfault
  rcases stepStopsOnlyAtAnIllegalConfiguration s with ⟨t, ht⟩ | ⟨hrefused, -⟩
  · rw [ht] at hfault
    cases hfault
  · rw [hrefused] at hfault
    cases hfault

end Sys2Proof.Machine
end

/-! PROOFS. The opcode map (30_encoding.md R91, R92, R97, R98): which words a row selects, and from it what decoding
answers. Decoding is said once, as the row a word selects; the table itself is read row by row against the encoder
(`rows_encoded`) and command by command against the rows (`decodeOfEncodeIsTheCommand`). -/

section
namespace Sys2Proof

/-! ### The two fields of a word -/

theorem opField_append (op n : BitVec 8) : opField (op ++ n) = op := by
  rw [opField, BitVec.extractLsb'_append_eq_of_le (le_refl 8), Nat.sub_self, BitVec.extractLsb'_eq_self]

/-- A word is its `op` field followed by its count field (R91). -/
theorem opField_append_countOf (w : CmdWord) : opField w ++ countOf w = w := by
  exact (BitVec.extractLsb'_append_extractLsb'_eq_extractLsb' (start₁ := 0) rfl).trans BitVec.extractLsb'_eq_self

/-! ### Which words a row selects -/

/-- A row whose command takes a count selects the words with its `op` (R97). -/
theorem countRow_selects_iff (op : BitVec 8) (build : BitVec 8 → Instr) (w : CmdWord) :
    (countRow op build).selects w = true ↔ opField w = op := by
  have hmask : w &&& 0xFF00 = opField w ++ (0 : BitVec 8) := by
    have hsplit : (0xFF00 : CmdWord) = BitVec.allOnes 8 ++ (0 : BitVec 8) := by decide
    conv_lhs => rw [← opField_append_countOf w, hsplit, BitVec.and_append, BitVec.and_allOnes]
    rw [show countOf w &&& 0 = 0 from BitVec.and_zero]
  simp only [Row.selects, countRow, hmask, beq_iff_eq]
  constructor
  · intro h
    simpa only [opField_append] using congrArg opField h
  · intro h
    rw [h]

/-- A row whose command takes no count selects one word, its `op` followed by zeros (R97). -/
theorem plainRow_selects_iff (op : BitVec 8) (i : Instr) (w : CmdWord) :
    (plainRow op i).selects w = true ↔ w = op ++ (0 : BitVec 8) := by
  have hmask : w &&& 0xFFFF = w := BitVec.and_allOnes
  simp only [Row.selects, plainRow, hmask, beq_iff_eq]

/-! ### The rows against the encoder -/

/-- A row's commands have the row's `op` and the count they were built from as their word (R92). -/
def Row.Encoded (r : Row) : Prop :=
  (∃ op build, r = countRow op build ∧ ∀ n, encode (build n) = op ++ n) ∨
  (∃ op i, r = plainRow op i ∧ encode i = op ++ (0 : BitVec 8))

theorem countRow_encoded {op : BitVec 8} {build : BitVec 8 → Instr} (h : ∀ n, encode (build n) = op ++ n) :
    (countRow op build).Encoded := .inl ⟨op, build, rfl, h⟩

theorem plainRow_encoded {op : BitVec 8} {i : Instr} (h : encode i = op ++ (0 : BitVec 8)) : (plainRow op i).Encoded :=
  .inr ⟨op, i, rfl, h⟩

theorem rows_encoded : ∀ r ∈ rows, r.Encoded := by
  simp only [rows, List.forall_mem_cons]
  exact ⟨
    countRow_encoded fun _ => rfl, countRow_encoded fun _ => rfl,
    countRow_encoded fun _ => rfl, plainRow_encoded rfl, plainRow_encoded rfl, countRow_encoded fun _ => rfl,
    countRow_encoded fun _ => rfl, plainRow_encoded rfl, countRow_encoded fun _ => rfl, plainRow_encoded rfl,
    plainRow_encoded rfl,
    countRow_encoded fun _ => rfl, plainRow_encoded rfl, plainRow_encoded rfl, countRow_encoded fun _ => rfl,
    countRow_encoded fun _ => rfl, plainRow_encoded rfl, plainRow_encoded rfl, plainRow_encoded rfl, plainRow_encoded rfl,
    plainRow_encoded rfl, plainRow_encoded rfl, plainRow_encoded rfl, by simp⟩

/-- A row is selected by words with its own `op` only. -/
theorem Row.Encoded.opField_eq {r : Row} {w : CmdWord} (h : r.Encoded) (hs : r.selects w = true) :
    opField w = opField r.value := by
  obtain ⟨op, build, rfl, -⟩ | ⟨op, i, rfl, -⟩ := h
  · rw [(countRow_selects_iff op build w).1 hs]
    exact (opField_append op 0).symm
  · rw [(plainRow_selects_iff op i w).1 hs]
    rfl

/-- The command a selected row builds has the word it was built from. -/
theorem Row.Encoded.encode_build {r : Row} {w : CmdWord} (h : r.Encoded) (hs : r.selects w = true) :
    encode (r.build (countOf w)) = w := by
  obtain ⟨op, build, rfl, hword⟩ | ⟨op, i, rfl, hword⟩ := h
  · rw [countRow, hword, ← (countRow_selects_iff op build w).1 hs, opField_append_countOf]
  · rw [plainRow, hword, (plainRow_selects_iff op i w).1 hs]

/-! ### At most one row -/

/-- No two rows of the table have the same `op` (R92). -/
theorem rows_ops_nodup : (rows.map fun r => opField r.value).Nodup := by decide

/-- Settles O3: a word has the `op` of any row it selects, and no two rows share one. -/
theorem atMostOneRowSelectsAWord : Obligations.AtMostOneRowSelectsAWord := by
  intro w a b ra rb ha hb hsa hsb
  have hop : opField ra.value = opField rb.value := by
    rw [← (rows_encoded ra (List.mem_of_getElem? ha)).opField_eq hsa,
      (rows_encoded rb (List.mem_of_getElem? hb)).opField_eq hsb]
  obtain ⟨hlt, -⟩ := List.getElem?_eq_some_iff.1 ha
  refine (List.getElem?_inj (by rwa [List.length_map]) rows_ops_nodup).1 ?_
  rw [List.getElem?_map, List.getElem?_map, ha, hb, Option.map_some, Option.map_some, hop]

theorem eq_of_selects {ra rb : Row} {w : CmdWord} (ha : ra ∈ rows) (hb : rb ∈ rows) (hsa : ra.selects w = true)
    (hsb : rb.selects w = true) : ra = rb := by
  obtain ⟨a, ha⟩ := List.mem_iff_getElem?.1 ha
  obtain ⟨b, hb⟩ := List.mem_iff_getElem?.1 hb
  rw [atMostOneRowSelectsAWord w a b ra rb ha hb hsa hsb, hb] at ha
  exact (Option.some.inj ha).symm

/-! ### Decoding -/

/-- A word decodes to what the row it selects builds from its count field, and to nothing else (R97). -/
theorem decode_eq_ok_iff {w : CmdWord} {i : Instr} :
    decode w = .ok i ↔ ∃ r ∈ rows, r.selects w = true ∧ r.build (countOf w) = i := by
  unfold decode
  cases hfind : rows.find? (fun r => r.selects w) with
  | some r =>
    have hmem := List.mem_of_find?_eq_some hfind
    have hsel := List.find?_some hfind
    constructor
    · intro h
      exact ⟨r, hmem, hsel, by cases h; rfl⟩
    · rintro ⟨r', hmem', hsel', rfl⟩
      rw [eq_of_selects hmem hmem' hsel hsel']
  | none =>
    constructor
    · intro h
      simp only at h
      split at h <;> cases h
    · rintro ⟨r, hmem, hsel, -⟩
      exact absurd hsel (List.find?_eq_none.1 hfind r hmem)

/-- Settles O2: the row that decodes a word builds a command with that word. -/
theorem decodedWordIsTheCommandsWord : Obligations.DecodedWordIsTheCommandsWord := by
  intro w i h
  obtain ⟨r, hmem, hsel, rfl⟩ := decode_eq_ok_iff.1 h
  exact (rows_encoded r hmem).encode_build hsel

/-- The words of a row that takes a count decode to its commands, one for each count. -/
theorem decode_countRow {op : BitVec 8} {build : BitVec 8 → Instr} (k : Nat) (h : rows[k]? = some (countRow op build))
    (n : BitVec 8) : decode (op ++ n) = .ok (build n) :=
  decode_eq_ok_iff.2 ⟨_, List.mem_of_getElem? h, (countRow_selects_iff _ _ _).2 (opField_append op n),
    congrArg build (Laws.countOf_append op n)⟩

/-- The one word of a row that takes no count decodes to its command. -/
theorem decode_plainRow {i : Instr} (k : Nat) (op : BitVec 8) (h : rows[k]? = some (plainRow op i)) :
    decode (op ++ (0 : BitVec 8)) = .ok i :=
  decode_eq_ok_iff.2 ⟨_, List.mem_of_getElem? h, (plainRow_selects_iff _ _ _).2 rfl, rfl⟩

/-- Settles O1: each command's word selects the command's own row of the table. -/
theorem decodeOfEncodeIsTheCommand : Obligations.DecodeOfEncodeIsTheCommand := by
  intro i
  cases i with
  | pack n => exact decode_countRow 0 rfl n
  | unpack n => exact decode_countRow 1 rfl n
  | rBitb n => exact decode_countRow 2 rfl n
  | rByte => exact decode_plainRow 3 0x11 rfl
  | rBool => exact decode_plainRow 4 0x12 rfl
  | rBits n => exact decode_countRow 5 rfl n
  | rField n => exact decode_countRow 6 rfl n
  | rAlign => exact decode_plainRow 7 0x15 rfl
  | rArr n => exact decode_countRow 8 rfl n
  | rPos => exact decode_plainRow 9 0x17 rfl
  | rRst => exact decode_plainRow 10 0x18 rfl
  | wBitb n => exact decode_countRow 11 rfl n
  | wByte => exact decode_plainRow 12 0x21 rfl
  | wBool => exact decode_plainRow 13 0x22 rfl
  | wBits n => exact decode_countRow 14 rfl n
  | wField n => exact decode_countRow 15 rfl n
  | wAlign => exact decode_plainRow 16 0x25 rfl
  | wGrow => exact decode_plainRow 17 0x26 rfl
  | wFlush => exact decode_plainRow 18 0x27 rfl
  | wLen => exact decode_plainRow 19 0x28 rfl
  | wPos => exact decode_plainRow 20 0x29 rfl
  | wRst => exact decode_plainRow 21 0x2A rfl
  | sysStat => exact decode_plainRow 22 0x30 rfl

/-- Settles O4: each of the nine words is the word of the command it decodes to. -/
theorem sampleWordsDecodeAsTheTableSays : Obligations.SampleWordsDecodeAsTheTableSays :=
  ⟨decodeOfEncodeIsTheCommand (.wField 11), decodeOfEncodeIsTheCommand (.pack 9),
    decodeOfEncodeIsTheCommand (.unpack 32), decodeOfEncodeIsTheCommand (.rBits 17),
    decodeOfEncodeIsTheCommand (.rArr 2), decodeOfEncodeIsTheCommand .rRst, decodeOfEncodeIsTheCommand .wByte,
    decodeOfEncodeIsTheCommand .wGrow, decodeOfEncodeIsTheCommand .sysStat⟩

/-! ### Words that match no row -/

/-- The `op` values of R92. -/
def tableOps : List (BitVec 8) := [0x01, 0x02, 0x10, 0x11, 0x12, 0x13, 0x14, 0x15, 0x16, 0x17, 0x18, 0x20, 0x21, 0x22,
  0x23, 0x24, 0x25, 0x26, 0x27, 0x28, 0x29, 0x2A, 0x30]

/-- Those of R92's commands that take no count. -/
def countlessOps : List (BitVec 8) := [0x11, 0x12, 0x15, 0x17, 0x18, 0x21, 0x22, 0x25, 0x26, 0x27, 0x28, 0x29, 0x2A, 0x30]

/-- A command's word has an `op` of the table, and no count where its `op` takes none. -/
theorem encode_fields (i : Instr) :
    opField (encode i) ∈ tableOps ∧ (opField (encode i) ∈ countlessOps → countOf (encode i) = 0) := by
  cases i with
  | pack | unpack | rBitb | rBits | rField | rArr | wBitb | wBits | wField =>
    rw [encode, opField_append]
    exact ⟨by decide, fun h => absurd h (by decide)⟩
  | _ => decide

/-- A reserved `op`, or a count where the `op` takes none, is in no command's word: it does not decode (R98). -/
theorem decode_error_of_fields {w : CmdWord}
    (h : opField w ∉ tableOps ∨ (opField w ∈ countlessOps ∧ countOf w ≠ 0)) : ∃ e, decode w = .error e := by
  cases hd : decode w with
  | error e => exact ⟨e, rfl⟩
  | ok i =>
    obtain ⟨hop, hcount⟩ := encode_fields i
    rw [decodedWordIsTheCommandsWord w i hd] at hop hcount
    rcases h with hreserved | ⟨hcountless, hne⟩
    · exact absurd hop hreserved
    · exact absurd (hcount hcountless) hne

namespace Machine

/-- Settles O5: such a word does not decode, so the step answers it as `illegalWord` does. -/
theorem wordThatMatchesNoRowIsIllegal : Obligations.WordThatMatchesNoRowIsIllegal := by
  intro s w o rest hp h
  obtain ⟨e, hd⟩ := decode_error_of_fields h
  rw [step_illegalWord hp hd]
  rcases illegalWord_cases (s.issue w o rest) with ⟨hf, hword⟩ | ⟨hf, hword⟩ <;> rw [hword] <;>
    rw [State.issue_fault] at hf
  · exact ⟨fun hclear => by simp [hf] at hclear, fun _ => rfl⟩
  · exact ⟨fun _ => rfl, fun hset => by simp [hf] at hset⟩

end Machine
end Sys2Proof
end

/-! PROOFS. Which check of a command raises which condition (30_encoding.md R99, R100; 60_exceptions.md R198): the checks
are the ones the command's row names, and its own rule raises nothing. -/

section
namespace Sys2Proof.Machine

/-! ### A command's own rule raises nothing -/

/-- The outcome carries no fatal status. -/
def NeverFatal (r : Result) : Prop := ∀ t, r = .next t → t.status.isFatal = false

theorem neverFatal_respond (s : State) {st : Status} (h : st.isFatal = false) (c : Nat) (r : U64) :
    NeverFatal (.next (s.respond st c r)) := by
  intro t ht
  cases ht
  exact h

theorem neverFatal_fault (f : Fault) : NeverFatal (.fault f) := by
  intro t ht
  cases ht

/-- The loop of RBits ends OK or EOD (R137). -/
theorem rChunks_status_not_fatal {sizes : List Nat} {j done : Nat} {res : U64} {s : State} {run : ReadRun}
    (h : rChunks sizes j done res s = .ok run) : run.status.isFatal = false := by
  induction sizes generalizing j done res s with
  | nil =>
    cases h
    rfl
  | cons m rest ih =>
    simp only [rChunks] at h
    split at h
    · cases h
    · cases h
      rfl
    · exact ih h

theorem rBits_status_not_fatal {n : Nat} {s : State} {run : ReadRun} (h : rBits n s = .ok run) :
    run.status.isFatal = false := by
  unfold rBits at h
  split at h
  · cases h
    rfl
  · exact rChunks_status_not_fatal h

theorem respondRead_neverFatal (n : Nat) (s : State) : NeverFatal (respondRead (rBits n s)) := by
  cases h : rBits n s with
  | error f => exact neverFatal_fault f
  | ok run => exact neverFatal_respond _ (rBits_status_not_fatal h) _ _

theorem respondField_neverFatal (m n : Nat) (s : State) : NeverFatal (respondField m (rBits n s)) := by
  cases h : rBits n s with
  | error f => exact neverFatal_fault f
  | ok run =>
    have hstatus := rBits_status_not_fatal h
    simp only [respondField]
    split
    · exact neverFatal_respond _ rfl _ _
    · exact neverFatal_respond _ hstatus _ _

theorem respondChunk_neverFatal (n : Nat) (result : Byte → U64) (r : Except Fault (Option Byte × State)) :
    NeverFatal (respondChunk n result r) := by
  rcases r with f | ⟨out | _, t⟩
  · exact neverFatal_fault f
  · exact neverFatal_respond _ rfl _ _
  · exact neverFatal_respond _ rfl _ _

/-- The loop of WBits ends OK or CAPACITY (R162). -/
theorem wChunks_status_not_fatal {sizes : List Nat} {j done : Nat} {l : U64} {s : State} {run : WriteRun}
    (h : wChunks sizes j done l s = .ok run) : run.status.isFatal = false := by
  induction sizes generalizing j done s with
  | nil =>
    cases h
    rfl
  | cons m rest ih =>
    simp only [wChunks] at h
    split at h
    · cases h
    · cases h
      rfl
    · exact ih h

theorem wBits_status_not_fatal {l : U64} {n : Nat} {s : State} {run : WriteRun} (h : wBits l n s = .ok run) :
    run.status.isFatal = false := by
  unfold wBits at h
  split at h
  · split at h
    · cases h
      rfl
    · exact wChunks_status_not_fatal h
  · exact wChunks_status_not_fatal h

theorem respondWrite_wBits_neverFatal (l : U64) (n : Nat) (s : State) : NeverFatal (respondWrite (wBits l n s)) := by
  cases h : wBits l n s with
  | error f => exact neverFatal_fault f
  | ok run => exact neverFatal_respond _ (wBits_status_not_fatal h) _ _

theorem respondWrite_wPushPending_neverFatal (s : State) : NeverFatal (respondWrite (.ok (wPushPending s))) := by
  rcases wPushPending_cases s with ⟨-, h⟩ | ⟨-, -, h⟩ | ⟨-, -, h⟩ <;> rw [h] <;> exact neverFatal_respond _ rfl _ _

/-! ### The checks are those the row names -/

/-- The outcome is that of the checks of R198, for a variant and a range as given, and then of a rule that raises
nothing. -/
def Checked (available countOk : Bool) (s : State) (r : Result) : Prop :=
  ∃ o own, r = command available countOk o own s ∧ NeverFatal (own s)

theorem checked_command {a a' c c' o : Bool} {own : State → Result} {s : State} (ha : a = a') (hc : c = c')
    (hown : NeverFatal (own s)) : Checked a' c' s (command a c o own s) := by
  subst ha hc
  exact ⟨o, own, rfl, hown⟩

theorem fieldWidthOk_eq (n : BitVec 8) : fieldWidthOk n = (decide (1 ≤ n.toNat) && decide (n.toNat ≤ 64)) :=
  Bool.decide_and _ _

theorem chunkWidthOk_eq (n : BitVec 8) : chunkWidthOk n = (decide (1 ≤ n.toNat) && decide (n.toNat ≤ 8)) :=
  Bool.decide_and _ _

/-- Every command but the readouts checks its row's variant (R99) and its row's range (R100). -/
theorem exec_checked {i : Instr} (hi : i.isReadout = false) (s : State) :
    Checked (i.availableIn s.cfg) i.wellFormed s (exec i s) := by
  cases i with simp only [exec]
  | pack n => exact checked_command rfl (fieldWidthOk_eq n) (neverFatal_respond s rfl _ _)
  | unpack n => exact checked_command rfl (fieldWidthOk_eq n) (neverFatal_respond s rfl _ _)
  | rBitb n => exact checked_command rfl (chunkWidthOk_eq n) (respondChunk_neverFatal _ _ _)
  | rByte => exact checked_command rfl rfl (respondChunk_neverFatal _ _ _)
  | rBool => exact checked_command rfl rfl (respondChunk_neverFatal _ _ _)
  | rBits n => exact checked_command rfl rfl (respondRead_neverFatal _ _)
  | rField n => exact checked_command rfl (fieldWidthOk_eq n) (respondField_neverFatal _ _ _)
  | rAlign => exact checked_command rfl rfl (neverFatal_respond _ rfl _ _)
  | rArr n => exact checked_command rfl rfl (respondRead_neverFatal _ _)
  | rRst => exact checked_command rfl rfl (neverFatal_respond _ rfl _ _)
  | wBitb n => exact checked_command rfl (chunkWidthOk_eq n) (respondWrite_wBits_neverFatal _ _ _)
  | wByte => exact checked_command rfl rfl (respondWrite_wBits_neverFatal _ _ _)
  | wBool => exact checked_command rfl rfl (respondWrite_wBits_neverFatal _ _ _)
  | wBits n => exact checked_command rfl rfl (respondWrite_wBits_neverFatal _ _ _)
  | wField n => exact checked_command rfl (fieldWidthOk_eq n) (respondWrite_wBits_neverFatal _ _ _)
  | wAlign =>
    refine checked_command rfl rfl ?_
    split
    · exact respondWrite_wPushPending_neverFatal s
    · exact neverFatal_respond _ rfl _ _
  | wGrow =>
    refine checked_command rfl rfl ?_
    split <;> exact neverFatal_respond _ rfl _ _
  | wFlush => exact checked_command rfl rfl (respondWrite_wPushPending_neverFatal s)
  | wLen => exact checked_command rfl rfl (neverFatal_respond s rfl _ _)
  | wRst => exact checked_command rfl rfl (neverFatal_respond _ rfl _ _)
  | _ => cases hi

theorem exec_readout_neverFatal {i : Instr} (hi : i.isReadout = true) (s : State) : NeverFatal (exec i s) := by
  cases i with
  | rPos | wPos | sysStat => exact neverFatal_respond s rfl _ _
  | _ => cases hi

/-- When a command answers a fatal status: FAULT was clear, and the first of its checks to fail raised it (R198). -/
theorem exec_fatal_cases {i : Instr} {s t : State} (h : exec i s = .next t) (hfatal : t.status.isFatal = true) :
    s.fault = false ∧
      ((i.availableIn s.cfg = false ∧ t = s.raise .illegal) ∨
        (i.availableIn s.cfg = true ∧ i.wellFormed = false ∧ t = s.raise .precond) ∨
        (i.availableIn s.cfg = true ∧ i.wellFormed = true ∧ t = s.raise .posovf)) := by
  cases hi : i.isReadout with
  | true => simp [exec_readout_neverFatal hi s t h] at hfatal
  | false =>
    obtain ⟨o, own, hexec, hown⟩ := exec_checked hi s
    rw [hexec] at h
    rcases command_cases (i.availableIn s.cfg) i.wellFormed o own s with ⟨-, e⟩ | ⟨hf, ha, e⟩ | ⟨hf, ha, hc, e⟩ |
      ⟨hf, ha, hc, -, e⟩ | ⟨-, -, -, -, e⟩ <;> rw [e] at h
    · cases h
      cases hfatal
    · cases h
      exact ⟨hf, .inl ⟨ha, rfl⟩⟩
    · cases h
      exact ⟨hf, .inr (.inl ⟨ha, hc, rfl⟩)⟩
    · cases h
      exact ⟨hf, .inr (.inr ⟨ha, hc, rfl⟩)⟩
    · simp [hown t h] at hfatal

/-! ### Commands absent in the configured variant -/

theorem command_absent (c o : Bool) (own : State → Result) {s : State} (hf : s.fault = false) :
    command false c o own s = .next (s.raise .illegal) := by simp [command, hf]

/-- The four commands that a variant can lack, and the variant that lacks them (R99). -/
theorem availableIn_eq_false_iff (i : Instr) (c : Params) : i.availableIn c = false ↔
    ((∃ n, i = .rArr n) ∧ c.rvar = .stream) ∨ (i = .wGrow ∧ c.wvar ≠ .growable) ∨ (i = .wFlush ∧ c.wvar ≠ .stream) ∨
    (i = .wLen ∧ c.wvar = .stream) := by
  cases i with
  | rArr n => cases hv : c.rvar <;> simp [Instr.availableIn, hv]
  | _ => simp [Instr.availableIn]

/-- An absent command raises ILLEGAL, whatever its count (R99, R198). -/
theorem exec_absent {i : Instr} {s : State} (hf : s.fault = false) (ha : i.availableIn s.cfg = false) :
    exec i s = .next (s.raise .illegal) := by
  have hi : i.isReadout = false := by
    cases i with
    | rPos | wPos | sysStat => cases ha
    | _ => rfl
  obtain ⟨o, own, h, -⟩ := exec_checked hi s
  rw [h, ha, command_absent _ _ _ hf]

/-- Settles O13: a command answers ILLEGAL exactly where its variant check fails, which is where R99 has no such
command. -/
theorem absentCommandIsIllegal : Obligations.AbsentCommandIsIllegal := by
  have habsent := fun (i : Instr) (s : State) => (availableIn_eq_false_iff i s.cfg).2
  refine ⟨fun n s hf hv => exec_absent hf (habsent _ s (.inl ⟨⟨n, rfl⟩, hv⟩)),
    fun s hf hv => exec_absent hf (habsent _ s (.inr (.inl ⟨rfl, hv⟩))),
    fun s hf hv => exec_absent hf (habsent _ s (.inr (.inr (.inl ⟨rfl, hv⟩)))),
    fun s hf hv => exec_absent hf (habsent _ s (.inr (.inr (.inr ⟨rfl, hv⟩)))), fun i s t h hst => ?_⟩
  rcases exec_fatal_cases h (by rw [hst]; rfl) with ⟨-, ⟨ha, -⟩ | ⟨-, -, rfl⟩ | ⟨-, -, rfl⟩⟩
  · exact (availableIn_eq_false_iff i s.cfg).1 ha
  · cases hst
  · cases hst

end Sys2Proof.Machine
end

/-! PROOFS. Where OPND is read (30_encoding.md R95): with another operand in the state every shared operation does the same,
WBits as long as the first bits of its lane word are the same, and so does a command that does not look at what differs. -/

section
namespace Sys2Proof.Machine

/-! ### The state with another operand -/

/-- The state with another OPND. -/
def State.withOpnd (o : U64) (s : State) : State := { s with opnd := o }

section Fields

variable (o : U64) (s : State)

@[simp] theorem State.withOpnd_cfg : (s.withOpnd o).cfg = s.cfg := rfl
@[simp] theorem State.withOpnd_env : (s.withOpnd o).env = s.env := rfl
@[simp] theorem State.withOpnd_rpos : (s.withOpnd o).rpos = s.rpos := rfl
@[simp] theorem State.withOpnd_rpend : (s.withOpnd o).rpend = s.rpend := rfl
@[simp] theorem State.withOpnd_rpcnt : (s.withOpnd o).rpcnt = s.rpcnt := rfl
@[simp] theorem State.withOpnd_wpos : (s.withOpnd o).wpos = s.wpos := rfl
@[simp] theorem State.withOpnd_wpend : (s.withOpnd o).wpend = s.wpend := rfl
@[simp] theorem State.withOpnd_wpcnt : (s.withOpnd o).wpcnt = s.wpcnt := rfl
@[simp] theorem State.withOpnd_fault : (s.withOpnd o).fault = s.fault := rfl
@[simp] theorem State.withOpnd_src : (s.withOpnd o).src = s.src := rfl
@[simp] theorem State.withOpnd_snk : (s.withOpnd o).snk = s.snk := rfl
@[simp] theorem State.withOpnd_wcap : (s.withOpnd o).wcap = s.wcap := rfl

end Fields

/-- What a chunk hands back, its state with another OPND. -/
def chunkWithOpnd {α : Type} (o : U64) (r : Except Fault (α × State)) : Except Fault (α × State) :=
  r.map (Prod.map id (State.withOpnd o))

/-- What RBits hands back, its state with another OPND. -/
def ReadRun.withOpnd (o : U64) (run : ReadRun) : ReadRun := { run with post := run.post.withOpnd o }

/-- What WBits hands back, its state with another OPND. -/
def WriteRun.withOpnd (o : U64) (run : WriteRun) : WriteRun := { run with post := run.post.withOpnd o }

/-- The outcome of a command, its next state with another OPND. -/
def resultWithOpnd (o : U64) (r : Result) : Result :=
  match r with
  | .next t => .next (t.withOpnd o)
  | .fault f => .fault f
  | .refused e => .refused e

/-! ### The store ports and the shared bodies do not read OPND -/

section Bodies

variable (o : U64) (s : State)

theorem srcPull_withOpnd : srcPull (s.withOpnd o) = Prod.map id (State.withOpnd o) (srcPull s) := by
  simp only [srcPull, deliver, State.withOpnd_env, State.withOpnd_src]
  split
  · rfl
  · split <;> rfl
  · split <;> rfl

theorem snkPush_withOpnd (b : Byte) : snkPush b (s.withOpnd o) = Prod.map id (State.withOpnd o) (snkPush b s) := by
  unfold snkPush
  rw [State.withOpnd_env, State.withOpnd_snk]
  split <;> rfl

theorem growEnsure_withOpnd (m : Nat) :
    growEnsure m (s.withOpnd o) = Prod.map id (State.withOpnd o) (growEnsure m s) := by
  unfold growEnsure
  rw [State.withOpnd_env, State.withOpnd_wcap]
  split
  · split <;> rfl
  · rfl
  · rfl

theorem memReadR_withOpnd (i : Nat) : memReadR (s.withOpnd o) i = memReadR s i := rfl

theorem memReadW_withOpnd (i : Nat) : memReadW (s.withOpnd o) i = memReadW s i := rfl

theorem memWriteW_withOpnd (i : Nat) (b : Byte) :
    memWriteW (s.withOpnd o) i b = (memWriteW s i b).map (State.withOpnd o) := by
  unfold memWriteW
  rw [State.withOpnd_wcap]
  split <;> rfl

theorem rBufChunk_withOpnd (n : Nat) : rBufChunk n (s.withOpnd o) = chunkWithOpnd o (rBufChunk n s) := by
  unfold rBufChunk
  simp only [memReadR_withOpnd]
  rw [State.withOpnd_rpos]
  cases memReadR s (byteIndex s.rpos.toNat) with
  | error f => rfl
  | ok b0 =>
    dsimp only
    split
    · cases memReadR s (byteIndex s.rpos.toNat + 1) <;> rfl
    · rfl

theorem rStreamChunk_withOpnd (n : Nat) :
    rStreamChunk n (s.withOpnd o) = Prod.map id (State.withOpnd o) (rStreamChunk n s) := by
  unfold rStreamChunk
  dsimp only
  rw [srcPull_withOpnd, State.withOpnd_rpos, State.withOpnd_rpend, State.withOpnd_rpcnt]
  rcases srcPull s with ⟨_ | b, t⟩ <;> split_ifs <;> rfl

theorem rChunk_withOpnd (m : Nat) : rChunk m (s.withOpnd o) = chunkWithOpnd o (rChunk m s) := by
  unfold rChunk
  rw [rBufChunk_withOpnd, rStreamChunk_withOpnd, State.withOpnd_cfg, State.withOpnd_rpos]
  split
  · split
    · rfl
    · cases rBufChunk m s <;> rfl
  · rfl

theorem rChunks_withOpnd (sizes : List Nat) (j done : Nat) (res : U64) :
    rChunks sizes j done res (s.withOpnd o) = (rChunks sizes j done res s).map (ReadRun.withOpnd o) := by
  induction sizes generalizing j done res s with
  | nil => rfl
  | cons m rest ih =>
    simp only [rChunks, rChunk_withOpnd]
    rcases rChunk m s with f | ⟨_ | out, t⟩
    · rfl
    · rfl
    · exact ih t _ _ _

theorem rBits_withOpnd (n : Nat) : rBits n (s.withOpnd o) = (rBits n s).map (ReadRun.withOpnd o) := by
  unfold rBits
  rw [State.withOpnd_cfg, State.withOpnd_rpos]
  split
  · rfl
  · exact rChunks_withOpnd o s _ _ _ _

theorem respondRead_withOpnd (n : Nat) :
    respondRead (rBits n (s.withOpnd o)) = resultWithOpnd o (respondRead (rBits n s)) := by
  rw [rBits_withOpnd]
  cases rBits n s <;> rfl

theorem respondField_withOpnd (m n : Nat) :
    respondField m (rBits n (s.withOpnd o)) = resultWithOpnd o (respondField m (rBits n s)) := by
  rw [rBits_withOpnd]
  rcases rBits n s with f | ⟨st, done, res, t⟩
  · rfl
  · cases st <;> rfl

theorem respondChunk_withOpnd (m n : Nat) (result : Byte → U64) :
    respondChunk n result (rChunk m (s.withOpnd o)) = resultWithOpnd o (respondChunk n result (rChunk m s)) := by
  rw [rChunk_withOpnd]
  rcases rChunk m s with f | ⟨_ | out, t⟩ <;> rfl

theorem wBufChunk_withOpnd (ch : Byte) (n : Nat) :
    wBufChunk ch n (s.withOpnd o) = (wBufChunk ch n s).map (State.withOpnd o) := by
  unfold wBufChunk
  dsimp only
  rw [memReadW_withOpnd, State.withOpnd_wpos]
  cases (if bitOffset s.wpos.toNat = 0 then .ok 0 else memReadW s (byteIndex s.wpos.toNat)) with
  | error f => rfl
  | ok old =>
    dsimp only
    rw [memWriteW_withOpnd]
    cases memWriteW s (byteIndex s.wpos.toNat) _ with
    | error f => rfl
    | ok t =>
      dsimp only [Except.map]
      rw [memWriteW_withOpnd]
      split_ifs
      · cases memWriteW t (byteIndex s.wpos.toNat + 1) _ <;> rfl
      · rfl

theorem wStreamChunk_withOpnd (ch : Byte) (n : Nat) :
    wStreamChunk ch n (s.withOpnd o) = Prod.map id (State.withOpnd o) (wStreamChunk ch n s) := by
  unfold wStreamChunk
  dsimp only
  rw [State.withOpnd_wpos, State.withOpnd_wpend, State.withOpnd_wpcnt, snkPush_withOpnd]
  split
  · rfl
  · rcases snkPush _ s with ⟨_ | _, t⟩ <;> rfl

theorem wEnsure_withOpnd (n : Nat) : wEnsure n (s.withOpnd o) = Prod.map id (State.withOpnd o) (wEnsure n s) := by
  unfold wEnsure
  dsimp only
  rw [growEnsure_withOpnd, State.withOpnd_wpos, State.withOpnd_wcap]
  split_ifs <;> rfl

theorem wChunk_withOpnd (ch : Byte) (m : Nat) : wChunk ch m (s.withOpnd o) = chunkWithOpnd o (wChunk ch m s) := by
  unfold wChunk
  rw [wBufChunk_withOpnd, wStreamChunk_withOpnd, State.withOpnd_cfg, State.withOpnd_wpos, State.withOpnd_wcap]
  split
  · rfl
  · split
    · rfl
    · cases wBufChunk ch m s <;> rfl
  · cases wBufChunk ch m s <;> rfl

theorem wChunks_withOpnd (sizes : List Nat) (j done : Nat) (l : U64) :
    wChunks sizes j done l (s.withOpnd o) = (wChunks sizes j done l s).map (WriteRun.withOpnd o) := by
  induction sizes generalizing j done s with
  | nil => rfl
  | cons m rest ih =>
    simp only [wChunks, wChunk_withOpnd]
    rcases wChunk (lane l j &&& topMask m) m s with f | ⟨_ | _, t⟩
    · rfl
    · rfl
    · exact ih t _ _

theorem wBits_withOpnd (l : U64) (n : Nat) : wBits l n (s.withOpnd o) = (wBits l n s).map (WriteRun.withOpnd o) := by
  unfold wBits
  rw [wEnsure_withOpnd, State.withOpnd_cfg]
  split
  · rcases wEnsure n s with ⟨_ | _, t⟩
    · rfl
    · exact wChunks_withOpnd o t _ _ _ _
  · exact wChunks_withOpnd o s _ _ _ _

theorem wPushPending_withOpnd : wPushPending (s.withOpnd o) = (wPushPending s).withOpnd o := by
  unfold wPushPending
  dsimp only
  rw [State.withOpnd_wpos, State.withOpnd_wpend, snkPush_withOpnd]
  split
  · rfl
  · rcases snkPush s.wpend s with ⟨_ | _, t⟩ <;> rfl

theorem respondWrite_wPushPending_withOpnd :
    respondWrite (.ok (wPushPending (s.withOpnd o))) = resultWithOpnd o (respondWrite (.ok (wPushPending s))) := by
  rw [wPushPending_withOpnd]
  rfl

end Bodies

/-! ### WBits reads the first bits of its lane word -/

/-- Chunk j of a request looks at the bits of the lane word the request asks for, and at no other (R15, R162). -/
theorem lane_and_topMask_congr {l l' : U64} {k j m : Nat} (h : laneBits l' k = laneBits l k) (hk : 8 * j + m ≤ k)
    (h64 : k ≤ 64) (h8 : m ≤ 8) : lane l' j &&& topMask m = lane l j &&& topMask m := by
  apply BitVec.eq_of_getLsbD_eq
  intro i hi
  rw [BitVec.getLsbD_and, BitVec.getLsbD_and, topMask_getLsbD h8 hi, lane_getLsbD _ _ hi, lane_getLsbD _ _ hi]
  by_cases htop : 8 ≤ m + i
  · have hbit := List.getElem_of_eq h (i := 8 * j + (7 - i)) (by rw [laneBits_length]; omega)
    have hplace : 63 - (8 * j + (7 - i)) = 56 - 8 * j + i := by omega
    rw [laneBits_getElem, laneBits_getElem, hplace] at hbit
    rw [hbit]
  · rw [decide_eq_false htop, Bool.and_false, Bool.and_false]

theorem wChunks_congr {sizes : List Nat} {l l' : U64} {k : Nat} (hs : FullButLast sizes) (j done : Nat) (s : State)
    (h : laneBits l' k = laneBits l k) (hk : 8 * j + sizes.sum ≤ k) (h64 : k ≤ 64) :
    wChunks sizes j done l' s = wChunks sizes j done l s := by
  induction sizes generalizing j done s with
  | nil => rfl
  | cons m rest ih =>
    obtain ⟨-, h8, hfull, hrest⟩ := hs
    rw [List.sum_cons] at hk
    have hnext : ∀ t, wChunks rest (j + 1) (done + m) l' t = wChunks rest (j + 1) (done + m) l t := by
      intro t
      by_cases hlast : rest = []
      · subst hlast
        rfl
      · have hm := hfull hlast
        exact ih hrest (j + 1) (done + m) t (by omega)
    simp only [wChunks, lane_and_topMask_congr h (show 8 * j + m ≤ k by omega) h64 h8, hnext]

/-- Two lane words with the same first n bits write the same (R95, R162). -/
theorem wBits_congr {l l' : U64} {n : Nat} (s : State) (h : laneBits l' n = laneBits l n) (h64 : n ≤ 64) :
    wBits l' n s = wBits l n s := by
  have hchunks : ∀ t, wChunks (chunkSizes n) 0 0 l' t = wChunks (chunkSizes n) 0 0 l t := fun t =>
    wChunks_congr (fullButLast_chunkSizes n) 0 0 t h (by rw [chunkSizes_sum]; omega) h64
  simp only [wBits, hchunks]

theorem respondWrite_wBits_withOpnd {l l' : U64} {n : Nat} (o : U64) (s : State) (h : laneBits l' n = laneBits l n)
    (h64 : n ≤ 64) : respondWrite (wBits l' n (s.withOpnd o)) = resultWithOpnd o (respondWrite (wBits l n s)) := by
  rw [wBits_congr _ h h64, wBits_withOpnd]
  cases wBits l n s <;> rfl

/-- Operands with the same first n bits have them alone in a lane word too (R150, R151). -/
theorem laneBits_lanes_congr {o o' : U64} {n : Nat} (h : laneBits o' n = laneBits o n) (h8 : n ≤ 8) :
    laneBits (lanes (lane o' 0)) n = laneBits (lanes (lane o 0)) n := by
  rw [laneBits_lanes_lane o' h8, laneBits_lanes_lane o h8, h]

/-! ### Commands with another operand -/

/-- The checks do not read OPND: a command follows another operand if its own rule does under the range it has
checked. -/
theorem command_withOpnd {a c ov : Bool} {own own' : State → Result} {o : U64} {s : State}
    (h : c = true → own' (s.withOpnd o) = resultWithOpnd o (own s)) :
    command a c ov own' (s.withOpnd o) = resultWithOpnd o (command a c ov own s) := by
  unfold command
  rw [State.withOpnd_fault]
  split_ifs with hf ha hc ho
  · rfl
  · rfl
  · rfl
  · rfl
  · exact h (by simpa using hc)

/-- A command without an operand does the same, whatever OPND holds (R95, 93 U12). -/
theorem exec_withOpnd_of_no_operand {i : Instr} {o : U64} (s : State) (hnone : i.operandBits o = none)
    (hpack : ∀ n, i ≠ .pack n) (hunpack : ∀ n, i ≠ .unpack n) (hgrow : i ≠ .wGrow) :
    exec i (s.withOpnd o) = resultWithOpnd o (exec i s) := by
  cases i with simp only [exec]
  | pack n => exact absurd rfl (hpack n)
  | unpack n => exact absurd rfl (hunpack n)
  | wGrow => exact absurd rfl hgrow
  | rBitb n => exact command_withOpnd fun _ => respondChunk_withOpnd o s _ _ _
  | rByte => exact command_withOpnd fun _ => respondChunk_withOpnd o s _ _ _
  | rBool => exact command_withOpnd fun _ => respondChunk_withOpnd o s _ _ _
  | rBits n => exact command_withOpnd fun _ => respondRead_withOpnd o s _
  | rField n => exact command_withOpnd fun _ => respondField_withOpnd o s _ _
  | rArr n => exact command_withOpnd fun _ => respondRead_withOpnd o s _
  | wAlign =>
    refine command_withOpnd fun _ => ?_
    rw [State.withOpnd_cfg]
    split
    · exact respondWrite_wPushPending_withOpnd o s
    · rfl
  | wFlush => exact command_withOpnd fun _ => respondWrite_wPushPending_withOpnd o s
  | rAlign | rRst | wLen | wRst => exact command_withOpnd fun _ => rfl
  | rPos | wPos | sysStat => rfl
  | _ => simp [Instr.operandBits] at hnone

/-- A writer data command does the same with any operand that has the same bits where it looks (R95, R150 to R154). -/
theorem exec_withOpnd_of_same_bits {i : Instr} {o : U64} {s : State} {bits : List Bool}
    (hs : i.operandBits s.opnd = some bits) (ho : i.operandBits o = some bits) :
    exec i (s.withOpnd o) = resultWithOpnd o (exec i s) := by
  have h := ho.trans hs.symm
  cases i with simp only [Instr.operandBits, Option.some.injEq, reduceCtorEq] at h hs <;>
    simp only [exec]
  | wBitb n =>
    refine command_withOpnd fun hc => ?_
    obtain ⟨-, h8⟩ := (chunkWidthOk_iff n).1 hc
    exact respondWrite_wBits_withOpnd o s (laneBits_lanes_congr h h8) (by omega)
  | wByte =>
    exact command_withOpnd fun _ =>
      respondWrite_wBits_withOpnd o s (laneBits_lanes_congr h (le_refl 8)) (by decide)
  | wBool =>
    refine command_withOpnd fun _ => respondWrite_wBits_withOpnd o s ?_ (by decide)
    rw [laneBits_lanes_bool, laneBits_lanes_bool]
    exact h
  | wBits n => exact command_withOpnd fun hc => respondWrite_wBits_withOpnd o s h ((bitCountOk_iff n).1 hc)
  | wField n =>
    refine command_withOpnd fun hc => ?_
    obtain ⟨-, h64⟩ := (fieldWidthOk_iff n).1 hc
    refine respondWrite_wBits_withOpnd o s ?_ h64
    rw [laneBits_packWord _ h64, laneBits_packWord _ h64]
    exact h

/-- Settles O46: only a writer data command looks at OPND here, and only at the bits it writes. -/
theorem unreadOperandBitsHaveNoEffect : Obligations.UnreadOperandBitsHaveNoEffect := by
  intro i o s t h hread
  have hsame : exec i (s.withOpnd o) = resultWithOpnd o (exec i s) := by
    rcases hread with ⟨bits, hs, ho⟩ | ⟨hnone, hpack, hunpack, hgrow⟩
    · exact exec_withOpnd_of_same_bits hs ho
    · exact exec_withOpnd_of_no_operand s hnone hpack hunpack hgrow
  rw [h] at hsame
  exact hsame

end Sys2Proof.Machine
end

/-! PROOFS. The codec (40_codec.md): packing and unpacking as arithmetic on the operand, from it the laws of R122, and what
PACK and UNPACK answer in each range of their width (R120, R121). -/

section
namespace Sys2Proof.Machine

/-! ### The two functions as arithmetic -/

/-- Shifting left by 64 − w multiplies, modulo the word (R120). -/
theorem packWord_eq_ofNat (v : U64) (w : Nat) : packWord v w = BitVec.ofNat 64 (v.toNat * 2 ^ (64 - w)) := by
  apply BitVec.eq_of_toNat_eq
  rw [packWord, BitVec.toNat_shiftLeft, BitVec.toNat_ofNat, Nat.shiftLeft_eq]

theorem toNat_unpackWord (l : U64) (w : Nat) : (unpackWord l w).toNat = l.toNat / 2 ^ (64 - w) := by
  rw [unpackWord, BitVec.toNat_ushiftRight, Nat.shiftRight_eq_div_pow]

/-- Shifting right by 64 − w divides (R121). -/
theorem unpackWord_eq_ofNat (l : U64) (w : Nat) : unpackWord l w = BitVec.ofNat 64 (l.toNat / 2 ^ (64 - w)) := by
  rw [← toNat_unpackWord, BitVec.ofNat_toNat, BitVec.setWidth_eq]

/-- What packing drops is the bits from w up: the low w bits land in the top of the word whole. -/
theorem toNat_packWord (v : U64) {w : Nat} (h64 : w ≤ 64) :
    (packWord v w).toNat = v.toNat % 2 ^ w * 2 ^ (64 - w) := by
  have hword : 2 ^ 64 = 2 ^ w * 2 ^ (64 - w) := by rw [← Nat.pow_add, Nat.add_sub_cancel' h64]
  rw [packWord_eq_ofNat, BitVec.toNat_ofNat, hword, Nat.mul_mod_mul_right]

/-! ### The laws of R122 -/

/-- Unpacking what was packed gives the low w bits (R122 item 2). -/
theorem toNat_unpackWord_packWord (v : U64) {w : Nat} (h64 : w ≤ 64) :
    (unpackWord (packWord v w) w).toNat = v.toNat % 2 ^ w := by
  rw [toNat_unpackWord, toNat_packWord v h64, Nat.mul_div_cancel _ (Nat.two_pow_pos _)]

/-- Packing what was unpacked clears all but the top w bits (R122 item 3). -/
theorem packWord_unpackWord (l : U64) (w : Nat) : packWord (unpackWord l w) w = topBits64 l w := by
  rw [packWord_eq_ofNat, toNat_unpackWord, Nat.div_mul_self_eq_mod_sub_self, topBits64]

/-- The bits from w up of the value do not show in the packed word. -/
theorem packWord_congr {v v' : U64} {w : Nat} (h64 : w ≤ 64) (h : v.toNat % 2 ^ w = v'.toNat % 2 ^ w) :
    packWord v w = packWord v' w := by
  apply BitVec.eq_of_toNat_eq
  rw [toNat_packWord v h64, toNat_packWord v' h64, h]

/-- A packed word has nothing below its top w bits (R122 item 4): it is the packing of what it unpacks to. -/
theorem topBits64_packWord (v : U64) {w : Nat} (h64 : w ≤ 64) : topBits64 (packWord v w) w = packWord v w := by
  rw [← packWord_unpackWord]
  apply packWord_congr h64
  rw [toNat_unpackWord_packWord v h64, Nat.mod_mod]

/-- Settles O17: each law is one of the four above, item 1 being item 2 for a value that fits. -/
theorem codecLaws : Obligations.CodecLaws := by
  intro v l w _ h64
  have hvalue := toNat_unpackWord_packWord v h64
  refine ⟨fun hfits => ?_, hvalue, packWord_unpackWord l w, (topBits64_packWord v h64).symm⟩
  apply BitVec.eq_of_toNat_eq
  rw [hvalue, Nat.mod_eq_of_lt hfits]

/-! ### The two commands -/

/-- The commands answer f of OPND and the width, after the checks of R198 with the width's range as theirs, and move
nothing else. -/
def CodecCommand (build : BitVec 8 → Instr) (f : U64 → Nat → U64) : Prop :=
  ∀ (n : BitVec 8) (s : State), exec (build n) s = command true (fieldWidthOk n) false
    (fun s => .next (s.respond .ok (ceil8 n.toNat) (f s.opnd n.toNat))) s

/-- PACK (R120). -/
theorem codecCommand_pack : CodecCommand .pack packWord := fun _ _ => rfl

/-- UNPACK (R121). -/
theorem codecCommand_unpack : CodecCommand .unpack unpackWord := fun _ _ => rfl

theorem command_precond (o : Bool) (own : State → Result) {s : State} (hf : s.fault = false) :
    command true false o own s = .next (s.raise .precond) := by simp [command, hf]

theorem fieldWidthOk_eq_false {n : BitVec 8} (h : n.toNat = 0 ∨ 64 < n.toNat) : fieldWidthOk n = false := by
  rw [fieldWidthOk, decide_eq_false_iff_not]
  omega

section Codec

variable {build : BitVec 8 → Instr} {f : U64 → Nat → U64} {n : BitVec 8} {s : State}

theorem CodecCommand.faulted (h : CodecCommand build f) (hf : s.fault = true) :
    exec (build n) s = .next s.refuseFaulted := by
  rw [h, command_faulted _ _ _ _ hf]

theorem CodecCommand.completes (h : CodecCommand build f) (hf : s.fault = false) (h1 : 1 ≤ n.toNat)
    (h64 : n.toNat ≤ 64) : exec (build n) s = .next (s.respond .ok (ceil8 n.toNat) (f s.opnd n.toNat)) := by
  rw [h, (fieldWidthOk_iff n).2 ⟨h1, h64⟩, command_own hf]

theorem CodecCommand.precond (h : CodecCommand build f) (hf : s.fault = false) (hn : n.toNat = 0 ∨ 64 < n.toNat) :
    exec (build n) s = .next (s.raise .precond) := by
  rw [h, fieldWidthOk_eq_false hn, command_precond _ _ hf]

end Codec

/-- A word is its op times 256 plus its count (R91). -/
theorem toNat_op_append (op n : BitVec 8) : (op ++ n).toNat = op.toNat * 2 ^ 8 + n.toNat := by
  rw [BitVec.toNat_append, ← Nat.shiftLeft_add_eq_or_of_lt n.isLt, Nat.shiftLeft_eq]

/-- Settles O18: the second command finds FAULT clear and the packed word in OPND. -/
theorem packThenUnpackGivesTheValue : Obligations.PackThenUnpackGivesTheValue := by
  intro n s hf h1 h64
  have hvalue : unpackWord (packWord s.opnd n.toNat) n.toNat = BitVec.ofNat 64 (s.opnd.toNat % 2 ^ n.toNat) := by
    rw [← toNat_unpackWord_packWord s.opnd h64, BitVec.ofNat_toNat, BitVec.setWidth_eq]
  refine ⟨_, codecCommand_pack.completes hf h1 h64, ?_⟩
  rw [← hvalue]
  exact codecCommand_unpack.completes hf h1 h64

/-- Settles O15: the three ranges of a codec command, and the left shift as a product. -/
theorem packShiftsTheValueToTheTop : Obligations.PackShiftsTheValueToTheTop := by
  refine fun n s => ⟨toNat_op_append 0x01 n, codecCommand_pack.faulted, fun hf h1 h64 => ?_, codecCommand_pack.precond⟩
  rw [← packWord_eq_ofNat]
  exact codecCommand_pack.completes hf h1 h64

/-- Settles O16: the three ranges of a codec command, and the right shift as a quotient. -/
theorem unpackShiftsTheFieldToTheBottom : Obligations.UnpackShiftsTheFieldToTheBottom := by
  refine fun n s =>
    ⟨toNat_op_append 0x02 n, codecCommand_unpack.faulted, fun hf h1 h64 => ?_, codecCommand_unpack.precond⟩
  rw [← unpackWord_eq_ofNat]
  exact codecCommand_unpack.completes hf h1 h64

end Sys2Proof.Machine
end

/-! PROOFS. The commands about positions (41_reader.md R135, R143, R144; 42_writer.md R169 to R171; 43_system.md R180) and
what the recoverable conditions leave alone (60_exceptions.md R199). -/

section
namespace Sys2Proof.Machine

/-! ### Recoverable conditions -/

/-- Settles O10: a command leaves FAULT and FCAUSE as they were or raises, and what it raises is fatal. -/
theorem recoverableConditionLeavesFaultAlone : Obligations.RecoverableConditionLeavesFaultAlone := by
  intro i s t h hst
  obtain ⟨u, hu, hkept | ⟨st, hfatal, rfl⟩⟩ := exec_answers i s <;> rw [hu] at h <;> cases h
  · exact hkept
  · rw [State.raise_status] at hst
    rcases hst with rfl | rfl | rfl <;> cases hfatal

/-! ### What an answer says of the checks -/

theorem command_posovf (own : State → Result) {s : State} (hf : s.fault = false) :
    command true true true own s = .next (s.raise .posovf) := by simp [command, hf]

/-- A command that answers OK or EOD has passed its checks, and its own rule answered (R198): what a failed check answers
is FAULTED or fatal. -/
theorem command_passed_of_status {a c o : Bool} {own : State → Result} {s t : State}
    (h : command a c o own s = .next t) (hst : t.status = .ok ∨ t.status = .eod) :
    s.fault = false ∧ a = true ∧ c = true ∧ o = false ∧ own s = .next t := by
  rcases command_cases a c o own s with ⟨-, e⟩ | ⟨-, -, e⟩ | ⟨-, -, -, e⟩ | ⟨-, -, -, -, e⟩ | ⟨hf, ha, hc, ho, e⟩ <;>
    rw [e] at h
  case inr.inr.inr.inr => exact ⟨hf, ha, hc, ho, h⟩
  all_goals
    cases h
    simp at hst

/-! ### Readouts and soft resets -/

theorem exec_wLen_of_buffer {s : State} (hf : s.fault = false) (hv : s.cfg.wvar ≠ .stream) :
    exec .wLen s = .next (s.respond .ok 0 (BitVec.ofNat 64 (ceil8 s.wpos.toNat))) := by
  simp only [exec]
  exact command_passed hf (decide_eq_true hv) rfl rfl rfl

/-- Settles O31: the three readouts make no check, and W.LEN passes its own on a buffer. -/
theorem readoutsAnswerTheRegisters : Obligations.ReadoutsAnswerTheRegisters :=
  ⟨rfl, rfl, rfl, rfl, fun _ => ⟨rfl, rfl, rfl, exec_wLen_of_buffer⟩⟩

theorem exec_rRst {s : State} (hf : s.fault = false) :
    exec .rRst s = .next ((s.setReader 0 0 0).respond .ok 0 0) := by
  simp only [exec]
  exact command_passed hf rfl rfl rfl rfl

theorem exec_wRst {s : State} (hf : s.fault = false) :
    exec .wRst s = .next ((s.setWriter 0 0 0).respond .ok 0 0) := by
  simp only [exec]
  exact command_passed hf rfl rfl rfl rfl

/-- With FAULT set every command but the readouts is answered FAULTED (R196). -/
theorem exec_faulted {i : Instr} {s : State} (hi : i.isReadout = false) (hf : s.fault = true) :
    exec i s = .next s.refuseFaulted := by
  obtain ⟨o, own, hexec, -⟩ := exec_checked hi s
  rw [hexec, command_faulted _ _ _ _ hf]

/-- Settles O30: with FAULT clear a soft reset loads its own cursor; it is no readout. -/
theorem softResetsClearOneCursor : Obligations.SoftResetsClearOneCursor :=
  ⟨rfl, rfl, fun _ => ⟨fun hf => ⟨exec_rRst hf, exec_wRst hf⟩, fun hf => ⟨exec_faulted rfl hf, exec_faulted rfl hf⟩⟩⟩

/-! ### R.ALIGN -/

theorem padBits_eq_mod (p : Nat) : padBits p = (8 - p % 8) % 8 := by unfold padBits alignUp ceil8; omega

/-- On a byte boundary with the pending byte discarded, R.ALIGN skips no bits and moves nothing (R135). -/
theorem exec_rAlign_aligned {s : State} (hf : s.fault = false) (hpos : s.rpos.toNat % 8 = 0) (hpend : s.rpend = 0)
    (hcnt : s.rpcnt = 0) : exec .rAlign s = .next (s.respond .ok 0 0) := by
  have hpad := (padBits_eq_zero_iff _).2 hpos
  have hlt := s.toNat_rpos_lt
  have hkept : s.setReader s.rpos.toNat 0 0 = s := by
    rw [State.setReader, BitVec.ofNat_toNat, BitVec.setWidth_eq, ← hpend]
    exact congrArg (fun c => { s with rpcnt := c }) hcnt.symm
  rw [exec_rAlign hf (fun _ => by unfold maxPos; omega), hpad, Nat.add_zero, hkept]

/-- Settles O29: R.ALIGN passes its checks where the boundary is in range, and leaves an aligned reader. -/
theorem readerAlignAdvancesToTheByteBoundary : Obligations.ReaderAlignAdvancesToTheByteBoundary := by
  refine ⟨rfl, fun s hf => ⟨fun hroom => ?_, fun hv hpast => ?_, fun t h hok => ?_⟩⟩
  · have hpos : s.cfg.rvar = .stream → s.rpos.toNat + padBits s.rpos.toNat ≤ maxPos := by
      intro hv
      rw [add_padBits]
      exact hroom.resolve_left (by simp [hv])
    rw [exec_rAlign hf hpos, add_padBits, padBits_eq_mod]
    rfl
  · have hover : readOverflows s (padBits s.rpos.toNat) = true := by
      rw [readOverflows, add_padBits]
      exact decide_eq_true ⟨hv, hpast⟩
    simp only [exec, execRAlign, hover]
    exact command_posovf _ hf
  · simp only [exec, execRAlign] at h
    obtain ⟨-, -, -, -, hown⟩ := command_passed_of_status h (.inl hok)
    cases hown
    refine exec_rAlign_aligned hf ?_ rfl rfl
    rw [State.respond_rpos, State.setReader_rpos, toNat_ofNat64_mod_eight, add_padBits, alignUp_mod]

end Sys2Proof.Machine
end

/-! PROOFS. Reads (41_reader.md R130 to R134, R137 to R139, R142): what a data command that ends OK or EOD has read, and
from it the exact reads of a buffer, the short reads of a stream, and the commands that are one and the same read. -/

section
namespace Sys2Proof.Machine

/-! ### A read that ends OK or EOD -/

theorem ReadAnswered.kept {i : Instr} {n k : Nat} {s t : State} {run : ReadRun} (h : ReadAnswered i n s run k t) :
    BufferReaderKept s t := by
  intro hv
  obtain ⟨hpend, hcnt⟩ := h.pending
  obtain ⟨hsrc, hpulls⟩ := h.source
  rw [hpend, hcnt, hsrc, hpulls]
  exact h.moved.kept hv

/-- A read moves at most what was asked for: all of it on OK, fewer whole bytes on EOD. -/
theorem ReadMoved.le {s : State} {taken : List Bool} {total done k : Nat} {run : ReadRun}
    (h : ReadMoved s taken total done run k) : k ≤ total := by
  rcases h.status with ⟨-, hk⟩ | ⟨-, hk, -⟩ <;> omega

theorem ReadMoved.eq_of_ok {s : State} {taken : List Bool} {total done k : Nat} {run : ReadRun}
    (h : ReadMoved s taken total done run k) (hok : run.status = .ok) : k = total := by
  rcases h.status with ⟨-, hk⟩ | ⟨heod, -⟩
  · exact hk
  · simp [hok] at heod

theorem readOverflows_eq_false_iff {s : State} {n : Nat} :
    readOverflows s n = false ↔ (s.cfg.rvar = .stream → s.rpos.toNat + n ≤ maxPos) := by
  simp only [readOverflows, decide_eq_false_iff_not, not_and, not_lt]

/-- The position check is made only of a command that exists (R198). -/
theorem command_congr_overflows {a o o' : Bool} (c : Bool) (own : State → Result) (s : State) (h : a = true → o = o') :
    command a c o own s = command a c o' own s := by
  cases a with
  | false => simp [command]
  | true => rw [h rfl]

/-- The checks of a reader data command: its row's variant and range, and the position of the whole request (R99, R100,
R195). R.ARR makes no position check, and needs none on the only variant that has it. -/
theorem exec_read_checks {i : Instr} {n : Nat} (s : State) (hn : i.readBits = some n) :
    ∃ own, exec i s = command (i.availableIn s.cfg) i.wellFormed (readOverflows s n) own s := by
  cases i with simp only [Instr.readBits, Option.some.injEq, reduceCtorEq] at hn <;> subst hn <;> simp only [exec]
  | rBitb c => exact ⟨_, congrArg (fun ok => command true ok _ _ s) (chunkWidthOk_eq c)⟩
  | rByte => exact ⟨_, rfl⟩
  | rBool => exact ⟨_, rfl⟩
  | rBits c => exact ⟨_, rfl⟩
  | rField c => exact ⟨_, congrArg (fun ok => command true ok _ _ s) (fieldWidthOk_eq c)⟩
  | rArr c =>
    simp only [execRArr]
    refine ⟨_, command_congr_overflows _ _ s fun ha => (readOverflows_eq_false fun hv => ?_).symm⟩
    simp [hv] at ha

/-- A reader data command that ends OK or EOD has passed its checks. -/
theorem exec_read_passed {i : Instr} {n : Nat} {s t : State} (hn : i.readBits = some n) (h : exec i s = .next t)
    (hst : t.status = .ok ∨ t.status = .eod) :
    s.fault = false ∧ i.availableIn s.cfg = true ∧ i.wellFormed = true ∧
      (s.cfg.rvar = .stream → s.rpos.toNat + n ≤ maxPos) := by
  obtain ⟨own, hexec⟩ := exec_read_checks s hn
  rw [hexec] at h
  obtain ⟨hf, ha, hw, hover, -⟩ := command_passed_of_status h hst
  exact ⟨hf, ha, hw, readOverflows_eq_false_iff.1 hover⟩

/-- Settles O24: the command has passed its checks, so it answers what RBits moved. -/
theorem readsConsumeExactlyWhatTheyReport : Obligations.ReadsConsumeExactlyWhatTheyReport := by
  intro i n s t hr hn h hst
  obtain ⟨hf, ha, hw, hpos⟩ := exec_read_passed hn h hst
  obtain ⟨u, run, k, hu, hanswered, hbuffer, -⟩ := exec_read_spec hf ha hw hn hpos hr
  rw [hu] at h
  cases h
  have hmoved := hanswered.moved
  have hcount : t.count.toNat = k := by
    rw [hanswered.count, BitVec.toNat_ofNat]
    have := readBits_le hw hn
    have := hmoved.le
    omega
  rw [hcount]
  simp only [hanswered.status] at hst ⊢
  refine ⟨hmoved.le, hmoved.eq_of_ok, fun heod => ⟨?_, fun hv => (hbuffer hv heod).1⟩, hmoved.enough, hanswered.rest,
    hanswered.pos, hanswered.whole, hanswered.short, hanswered.free, hanswered.kept, hanswered.only⟩
  rcases hmoved.status with ⟨hok, -⟩ | ⟨-, -, hmod⟩
  · simp [hok] at heod
  · exact hmod

/-! ### Reads that complete, and short reads of a stream -/

theorem unreadBits_zero (s : State) : unreadBits 0 s = [] :=
  List.eq_nil_of_length_eq_zero (Nat.le_zero.1 (length_unreadBits_le 0 s))

/-- No bits are the result 0, whatever its form. -/
theorem readResult_nil (i : Instr) : i.readResult [] = 0 := by
  cases i <;> rfl

/-- A read of no bits changes nothing but the response (R133, R142). -/
theorem exec_read_none {i : Instr} {s t : State} (hf : s.fault = false) (ha : i.availableIn s.cfg = true)
    (hw : i.wellFormed = true) (hn : i.readBits = some 0) (hpos : s.cfg.rvar = .stream → s.rpos.toNat ≤ maxPos)
    (hr : s.cfg.rvar = .buffer → s.cfg.rlen ≤ maxBytes ∧ s.rpos.toNat ≤ 8 * s.cfg.rlen) (h : exec i s = .next t) :
    t = { s with status := .ok, count := 0, result := 0 } := by
  obtain ⟨run, k, hrun, hmoved, -⟩ := rBits_spec s (Nat.zero_le 64) hr
  have hnone := rBits_zero (s := s) fun hv => (hr hv).2
  rw [hnone] at hrun
  cases hrun
  obtain ⟨u, hu, hanswered⟩ := exec_readAnswered hf ha hw hn hpos hnone hmoved
  rw [hu] at h
  cases h
  have hresult := hanswered.whole rfl
  rw [unreadBits_zero, readResult_nil] at hresult
  rw [hanswered.post, hanswered.status, hanswered.count, hmoved.eq_of_ok rfl, hresult, hanswered.free (.inl rfl)]
  rfl

/-- Settles O21: with the bits there and the source willing the read ends OK. -/
theorem readsWithEnoughBitsComplete : Obligations.ReadsWithEnoughBitsComplete := by
  intro i n s hf ha hw hn hbits hr hstream
  obtain ⟨t, run, ht, hok, hanswered, hpulled⟩ := exec_read_complete hf ha hw hn (fun hv => (hstream hv).1) hr
    (fun hv => (hstream hv).2) hbits
  refine ⟨t, ht, hanswered.status.trans hok, hanswered.count, hanswered.whole hok, hanswered.rest, hanswered.pos,
    hanswered.free (.inl hok), hpulled, fun h0 => ?_, hanswered.kept, hanswered.only⟩
  subst h0
  exact exec_read_none hf ha hw hn (fun hv => (hstream hv).1) hr ht

/-- Settles O22: too few bits end the read EOD, and a willing source gives their whole bytes. -/
theorem shortStreamReadDeliversWholeBytes : Obligations.ShortStreamReadDeliversWholeBytes := by
  intro i n s hf hv ha hw hn hpos hwill hfew
  obtain ⟨t, run, k, ht, hanswered, -, -, hshort⟩ :=
    exec_read_spec hf ha hw hn (fun _ => hpos) (fun hb => by simp [hv] at hb)
  have heod : run.status = .eod := by
    rcases hanswered.moved.status with ⟨-, hk⟩ | ⟨heod, -⟩
    · have henough := hanswered.moved.enough
      rw [hk] at henough
      omega
    · exact heod
  obtain ⟨-, hk⟩ := hshort hv hwill heod
  subst hk
  exact ⟨t, ht, hanswered.status.trans heod, hanswered.count, hanswered.pos, hanswered.rest,
    fun hne => ⟨hanswered.short heod hne, hanswered.free (.inr hne)⟩, hanswered.only⟩

/-! ### Exact reads of a buffer -/

theorem leftJustified_bitsAt (m : Memory) (p n : Nat) :
    leftJustified (bitsAt m p n) = BitVec.ofNat 64 (extract m p n * 2 ^ (64 - n)) := by
  rw [leftJustified, bitsAt_length, extract]

theorem availableIn_of_buffer {i : Instr} {n : Nat} {c : Params} (hv : c.rvar = .buffer) (hn : i.readBits = some n) :
    i.availableIn c = true := by
  cases i with
  | rArr m => exact decide_eq_true hv
  | rBitb | rByte | rBool | rBits | rField => rfl
  | _ => simp [Instr.readBits] at hn

/-- A read of bits that are in the buffer answers them, advances RPOS and changes nothing else (R62, R139 item 3). -/
theorem exec_read_buffer {i : Instr} {n : Nat} {s : State} (hf : s.fault = false) (hv : s.cfg.rvar = .buffer)
    (hlen : s.cfg.rlen ≤ maxBytes) (hw : i.wellFormed = true) (hn : i.readBits = some n)
    (hfit : s.rpos.toNat + n ≤ 8 * s.cfg.rlen) :
    exec i s = .next { s with rpos := BitVec.ofNat 64 (s.rpos.toNat + n), status := .ok, count := BitVec.ofNat 8 n,
                              result := i.readResult (bitsAt s.rbuf s.rpos.toNat n) } := by
  have ha := availableIn_of_buffer hv hn
  have hbits : unreadBits n s = bitsAt s.rbuf s.rpos.toNat n := by
    rw [unreadBits_buffer hv, min_eq_left (by omega)]
  have hstream : s.cfg.rvar ≠ .stream := by simp [hv]
  obtain ⟨t, run, ht, hok, hanswered, -⟩ := exec_read_complete hf ha hw hn (fun h => absurd h hstream)
    (fun _ => ⟨hlen, by omega⟩) (fun h => absurd h hstream) (by rw [hbits, bitsAt_length])
  obtain ⟨hpend, hcnt, hsrc, hpulls⟩ := hanswered.kept hv
  rw [ht, hanswered.only, hanswered.pos, hpend, hcnt, hsrc, hpulls, hanswered.status, hok, hanswered.count,
    hanswered.whole hok, hbits, hanswered.free (.inl hok)]

/-- Settles O19: each of the six is a read of its bits in the buffer. -/
theorem bufferReadsReturnTheExtractedBits : Obligations.BufferReadsReturnTheExtractedBits := by
  intro n s hf hv hlen
  have hcount : BitVec.ofNat 8 n.toNat = n := by rw [BitVec.ofNat_toNat, BitVec.setWidth_eq]
  refine ⟨fun h64 hfit => ?_, fun h8 hfit => ?_, fun h1 h64 hfit => ?_, fun h1 h8 hfit => ?_, fun hfit => ?_,
    fun hfit => ?_⟩
  · rw [exec_read_buffer hf hv hlen ((wellFormed_iff (.rBits n)).2 ⟨Nat.zero_le _, h64⟩) rfl hfit, hcount,
      Instr.readResult, leftJustified_bitsAt]
  · rw [exec_read_buffer hf hv hlen ((wellFormed_iff (.rArr n)).2 ⟨Nat.zero_le _, h8⟩) rfl hfit,
      Instr.readResult, leftJustified_bitsAt]
  · rw [exec_read_buffer hf hv hlen ((wellFormed_iff (.rField n)).2 ⟨h1, h64⟩) rfl hfit, hcount]
    rfl
  · rw [exec_read_buffer hf hv hlen ((wellFormed_iff (.rBitb n)).2 ⟨h1, h8⟩) rfl hfit, hcount,
      Instr.readResult, leftJustified_bitsAt]
  · rw [exec_read_buffer hf hv hlen rfl rfl hfit, Instr.readResult, leftJustified_bitsAt]
    rfl
  · rw [exec_read_buffer hf hv hlen rfl rfl hfit]
    rfl

/-! ### Commands that are one and the same read -/

/-- A one-chunk command that puts its byte in lane 0 answers as RBits does (R137, R139 item 2). -/
theorem respondChunk_lanes_eq_respondRead {n : Nat} (s : State) (h1 : 1 ≤ n) (h8 : n ≤ 8) :
    respondChunk n lanes (rChunk n s) = respondRead (rBits n s) := by
  obtain ⟨run, hrun⟩ := rBits_ne_error n s
  rw [respondChunk_of_rBits (result := lanes) id h1 h8 (fun _ => rfl) rfl hrun, hrun]
  rfl

/-- Settles O26: the same checks pass, and the same chunk is read. -/
theorem shortReadsAreOneCommand : Obligations.ShortReadsAreOneCommand := by
  refine ⟨rfl, fun s => ⟨fun n h1 h8 => ?_, rfl, fun hv => ?_⟩⟩
  · have hwidth := (chunkWidthOk_iff n).2 ⟨h1, h8⟩
    have hcount := (bitCountOk_iff n).2 (h8.trans (by decide))
    simp only [exec, execRBitb, execRBits, hwidth, hcount, respondChunk_lanes_eq_respondRead _ h1 h8]
  · have hover : readOverflows s (8 : BitVec 8).toNat = false := readOverflows_eq_false fun h => by simp [hv] at h
    simp only [exec, execRArr, execRBits, hv, hover]
    rfl

/-- R.BITS that ends OK or EOD: its checks passed, and its answer is what RBits handed back (R133). -/
theorem exec_rBits_answered {n : BitVec 8} {s t : State} (h : exec (.rBits n) s = .next t)
    (hst : t.status = .ok ∨ t.status = .eod) :
    s.fault = false ∧ n.toNat ≤ 64 ∧ readOverflows s n.toNat = false ∧
      ∃ run, rBits n.toNat s = .ok run ∧ t = run.post.respond run.status run.done run.res := by
  simp only [exec, execRBits] at h
  obtain ⟨hf, -, hcount, hover, hown⟩ := command_passed_of_status h hst
  obtain ⟨run, hrun⟩ := rBits_ne_error n.toNat s
  rw [hrun] at hown
  cases hown
  exact ⟨hf, (bitCountOk_iff n).1 hcount, hover, run, hrun, rfl⟩

/-- A run of chunks that ends OK has moved all of them (R137). -/
theorem rChunks_done_of_ok {sizes : List Nat} {j done : Nat} {res : U64} {s : State} {run : ReadRun}
    (h : rChunks sizes j done res s = .ok run) (hok : run.status = .ok) : run.done = done + sizes.sum := by
  induction sizes generalizing j done res s with
  | nil =>
    cases h
    rfl
  | cons m rest ih =>
    simp only [rChunks] at h
    split at h
    · cases h
    · cases h
      cases hok
    · rw [ih h, List.sum_cons, Nat.add_assoc]

/-- On a Buffer a request that ends OK lay inside it; it is the loop over its chunks (R137). -/
theorem rBits_of_ok {n : Nat} {s : State} {run : ReadRun} (h : rBits n s = .ok run) (hok : run.status = .ok) :
    (s.cfg.rvar = .buffer → s.rpos.toNat + n ≤ 8 * s.cfg.rlen) ∧ rChunks (chunkSizes n) 0 0 0 s = .ok run := by
  unfold rBits at h
  split at h
  · cases h
    cases hok
  · next hin => exact ⟨fun hv => not_lt.1 fun hpast => hin ⟨hv, hpast⟩, h⟩

theorem rBits_done_of_ok {n : Nat} {s : State} {run : ReadRun} (h : rBits n s = .ok run) (hok : run.status = .ok) :
    run.done = n := by
  rw [rChunks_done_of_ok (rBits_of_ok h hok).2 hok, chunkSizes_sum, Nat.zero_add]

/-- R.FIELD with its checks passed (R134). -/
theorem exec_rField_eq {n : BitVec 8} {s : State} (hf : s.fault = false) (h1 : 1 ≤ n.toNat) (h64 : n.toNat ≤ 64)
    (hover : readOverflows s n.toNat = false) :
    exec (.rField n) s = respondField n.toNat (rBits n.toNat s) := by
  simp only [exec]
  exact command_passed hf rfl ((fieldWidthOk_iff n).2 ⟨h1, h64⟩) hover rfl

/-- Settles O27: both commands have the same run of RBits behind them, and R.FIELD unpacks its lane word. -/
theorem fieldReadIsUnpackOfBitsRead : Obligations.FieldReadIsUnpackOfBitsRead := by
  intro n s t h1 h64 h
  refine ⟨fun hst => ?_, fun hst => ?_⟩
  · obtain ⟨hf, -, hover, run, hrun, rfl⟩ := exec_rBits_answered h (.inl hst)
    have hok : run.status = .ok := hst
    rw [exec_rField_eq hf h1 h64 hover, hrun]
    simp only [respondField, hok, rBits_done_of_ok hrun hok, unpackWord_eq_ofNat]
    rfl
  · obtain ⟨hf, -, hover, run, hrun, rfl⟩ := exec_rBits_answered h (.inr hst)
    have heod : run.status = .eod := hst
    refine ⟨Config.freeField run.post.freeIdx, ?_⟩
    rw [exec_rField_eq hf h1 h64 hover, hrun]
    simp only [respondField, heod]
    rfl

/-! ### Reads do not look at the last response -/

section Response

variable (s : State) (st : Status) (c : Nat) (r : U64)

theorem srcPull_respond : srcPull (s.respond st c r) = Prod.map id (State.respond · st c r) (srcPull s) := by
  unfold srcPull deliver
  rw [State.respond_env, State.respond_src]
  split
  · rfl
  · split <;> rfl
  · split <;> rfl

theorem rBufChunk_respond (n : Nat) :
    rBufChunk n (s.respond st c r) = (rBufChunk n s).map (Prod.map id (State.respond · st c r)) := by
  have hread : memReadR (s.respond st c r) = memReadR s := rfl
  unfold rBufChunk
  rw [hread, State.respond_rpos]
  dsimp only
  split
  · rfl
  · split <;> rfl

theorem rStreamChunk_respond (n : Nat) :
    rStreamChunk n (s.respond st c r) = Prod.map id (State.respond · st c r) (rStreamChunk n s) := by
  unfold rStreamChunk
  rw [srcPull_respond, State.respond_rpos, State.respond_rpend, State.respond_rpcnt]
  rcases srcPull s with ⟨_ | b, t⟩ <;> dsimp only <;> split_ifs <;> rfl

theorem rChunk_respond (m : Nat) :
    rChunk m (s.respond st c r) = (rChunk m s).map (Prod.map id (State.respond · st c r)) := by
  unfold rChunk
  rw [rBufChunk_respond, rStreamChunk_respond, State.respond_cfg, State.respond_rpos]
  split
  · split
    · rfl
    · cases rBufChunk m s <;> rfl
  · rfl

/-- Which chunks move, and what they leave, depends neither on the response before them nor on where the loop stands
(R137). -/
theorem rChunks_of_respond {sizes : List Nat} {j done : Nat} {res : U64} {run : ReadRun} {s : State}
    (h : rChunks sizes j done res (s.respond st c r) = .ok run) (j' done' : Nat) (res' : U64) :
    ∃ run', rChunks sizes j' done' res' s = .ok run' ∧ run'.status = run.status ∧
      run.post = run'.post.respond st c r := by
  induction sizes generalizing j done res s j' done' res' with
  | nil =>
    cases h
    exact ⟨_, rfl, rfl, rfl⟩
  | cons m rest ih =>
    simp only [rChunks, rChunk_respond] at h ⊢
    rcases hm : rChunk m s with f | ⟨_ | out, t⟩ <;> rw [hm] at h
    · cases h
    · cases h
      exact ⟨_, rfl, rfl, rfl⟩
    · exact ih h _ _ _

end Response

/-! ### One read after another -/

/-- A run of chunks that ends OK goes on with more of them from where it stands (R137). -/
theorem rChunks_append {xs ys : List Nat} {j done : Nat} {res : U64} {s : State} {run : ReadRun}
    (h : rChunks xs j done res s = .ok run) (hok : run.status = .ok) :
    rChunks (xs ++ ys) j done res s = rChunks ys (j + xs.length) run.done run.res run.post := by
  induction xs generalizing j done res s with
  | nil =>
    cases h
    rfl
  | cons m rest ih =>
    simp only [rChunks, List.cons_append] at h ⊢
    split at h
    · cases h
    · cases h
      cases hok
    · rw [List.length_cons, Nat.add_comm rest.length, ← Nat.add_assoc]
      exact ih h

/-- Whole bytes are cut off a request first (R15). -/
theorem chunkSizes_add {a : Nat} (ha : a % 8 = 0) (b : Nat) : chunkSizes (a + b) = chunkSizes a ++ chunkSizes b := by
  have hdiv : (a + b) / 8 = a / 8 + b / 8 := by omega
  have hmod : (a + b) % 8 = b % 8 := by omega
  unfold chunkSizes
  rw [if_pos ha, hdiv, hmod, List.replicate_add, List.append_nil, List.append_assoc]

/-- The bits after the first ones stand in the lane word after theirs (R137). -/
theorem leftJustified_append_shift {xs ys : List Bool} (hl : xs.length + ys.length ≤ 64) :
    leftJustified (xs ++ ys) = leftJustified xs ||| (leftJustified ys >>> xs.length) := by
  apply BitVec.eq_of_getLsbD_eq
  intro i hi
  rw [BitVec.getLsbD_or, BitVec.getLsbD_ushiftRight, leftJustified_getLsbD (by simpa using hl) hi,
    leftJustified_getLsbD (by omega) hi, List.length_append]
  by_cases hx : 63 - i < xs.length
  · have hboth : 63 - i < xs.length + ys.length := by omega
    rw [BitVec.getLsbD_of_ge _ _ (show 64 ≤ xs.length + i by omega), List.getD_append _ _ _ _ hx, Bool.or_false,
      decide_eq_true hx, decide_eq_true hboth]
  · have hplace : 63 - i - xs.length = 63 - (xs.length + i) := by omega
    have hrange : 63 - i < xs.length + ys.length ↔ 63 - (xs.length + i) < ys.length := by omega
    rw [leftJustified_getLsbD (by omega) (by omega), List.getD_append_right _ _ _ _ (by omega), decide_eq_false hx,
      Bool.false_and, Bool.false_or, hplace, decide_eq_decide.2 hrange]

/-- The whole request is in range: inside the buffer, or at positions a stream's cursor holds (R137, R195). -/
def ReadFits (s : State) (n : Nat) : Prop :=
  (s.cfg.rvar = .buffer → s.rpos.toNat + n ≤ 8 * s.cfg.rlen) ∧ (s.cfg.rvar = .stream → s.rpos.toNat + n ≤ maxPos)

/-- Two requests in range, one from where the other ends, are one request in range. -/
theorem ReadFits.add {s t : State} {a b : Nat} (h : ReadFits s a) (ht : ReadFits t b) (hcfg : t.cfg = s.cfg)
    (hpos : t.rpos = BitVec.ofNat 64 (s.rpos.toNat + a)) (hlen : s.cfg.rvar = .buffer → s.cfg.rlen ≤ maxBytes) :
    ReadFits s (a + b) := by
  obtain ⟨hbuffer, hstream⟩ := h
  obtain ⟨hbuffer', hstream'⟩ := ht
  rw [hcfg, hpos] at hbuffer' hstream'
  refine ⟨fun hv => ?_, fun hv => ?_⟩
  · have hin := hbuffer' hv
    rw [toNat_ofNat64_of_le_maxBytes (hbuffer hv) (hlen hv)] at hin
    omega
  · have hpast := hstream hv
    have hin := hstream' hv
    unfold maxPos at hpast
    rw [toNat_ofNat64 (by omega)] at hin
    omega

/-- R.BITS ends OK exactly when its checks pass, the request is in range and every chunk of it moves (R133, R137). -/
theorem exec_rBits_ok_iff {n : BitVec 8} {s t : State} : exec (.rBits n) s = .next t ∧ t.status = .ok ↔
    s.fault = false ∧ n.toNat ≤ 64 ∧ ReadFits s n.toNat ∧ ∃ run, rChunks (chunkSizes n.toNat) 0 0 0 s = .ok run ∧
      run.status = .ok ∧ t = run.post.respond .ok n.toNat run.res := by
  constructor
  · rintro ⟨h, hst⟩
    obtain ⟨hf, h64, hover, run, hrun, rfl⟩ := exec_rBits_answered h (.inl hst)
    have hok : run.status = .ok := hst
    obtain ⟨hbuffer, hchunks⟩ := rBits_of_ok hrun hok
    exact ⟨hf, h64, ⟨hbuffer, readOverflows_eq_false_iff.1 hover⟩, run, hchunks, hok,
      by rw [hok, rBits_done_of_ok hrun hok]⟩
  · rintro ⟨hf, h64, ⟨hbuffer, hstream⟩, run, hchunks, hok, rfl⟩
    have hrun : rBits n.toNat s = .ok run := by
      unfold rBits
      rw [if_neg fun hpast => absurd (hbuffer hpast.1) (not_le.2 hpast.2)]
      exact hchunks
    refine ⟨?_, rfl⟩
    simp only [exec]
    refine command_passed hf rfl ((bitCountOk_iff n).2 h64) (readOverflows_eq_false hstream) ?_
    rw [hrun, respondRead, hok, rBits_done_of_ok hrun hok]

/-- Every chunk of the request moved: what that did (R137). -/
theorem readMoved_of_chunks_ok {n : Nat} {s : State} {run : ReadRun} (hn : n ≤ 64)
    (hlen : s.cfg.rvar = .buffer → s.cfg.rlen ≤ maxBytes) (h : rChunks (chunkSizes n) 0 0 0 s = .ok run)
    (hok : run.status = .ok) : ReadMoved s [] n 0 run n := by
  obtain ⟨run', k, hrun, hmoved, -⟩ :=
    rChunks_spec (fullButLast_chunkSizes n) 0 [] s rfl (by rw [chunkSizes_sum]; omega) hlen
  rw [chunkSizes_sum] at hmoved
  have hsame : rChunks (chunkSizes n) 0 0 0 s = .ok run' := hrun
  rw [hsame] at h
  cases h
  rwa [hmoved.eq_of_ok hok] at hmoved

/-- The lane word of the whole request is the first's, with the second's lanes after it (R139 item 4). -/
theorem ReadMoved.res_append {a b : Nat} {s t : State} {whole run run' : ReadRun}
    (h : ReadMoved s [] (a + b) 0 whole (a + b)) (hfirst : ReadMoved s [] a 0 run a)
    (hsecond : ReadMoved t [] b 0 run' b) (hsame : unreadBits b t = unreadBits b run.post) (hab : a + b ≤ 64) :
    whole.res = run.res ||| (run'.res >>> a) := by
  have hsplit : unreadBits (a + b) s = unreadBits a s ++ unreadBits b t := by
    rw [hsame, hfirst.rest, ← unreadBits_add]
  rw [h.res, hfirst.res, hsecond.res, List.nil_append, List.nil_append, List.nil_append, hsplit,
    leftJustified_append_shift (by rw [hfirst.enough, hsecond.enough]; exact hab), hfirst.enough]

/-- Settles O28: the chunks of the two requests are the chunks of the whole one, and its bits are the first's and then the
second's. -/
theorem splitReadIsTheWholeRead : Obligations.SplitReadIsTheWholeRead := by
  intro a b s t u ha hab hlen hst htok htu huok
  obtain ⟨hf, ha64, hfit, run, hrun, hok, rfl⟩ := exec_rBits_ok_iff.1 ⟨hst, htok⟩
  obtain ⟨-, hb64, hfit', run', hrun', hok', rfl⟩ := exec_rBits_ok_iff.1 ⟨htu, huok⟩
  have hmoved := readMoved_of_chunks_ok ha64 hlen hrun hok
  have hcfg := hmoved.only.cfg_eq
  have hmoved' := readMoved_of_chunks_ok hb64 (by rw [State.respond_cfg, hcfg]; exact hlen) hrun' hok'
  obtain ⟨whole, hwhole, hstatus, hpost⟩ :=
    rChunks_of_respond _ _ _ hrun' (0 + (chunkSizes a.toNat).length) run.done run.res
  rw [← rChunks_append hrun hok, ← chunkSizes_add ha] at hwhole
  have hmovedWhole := readMoved_of_chunks_ok hab hlen hwhole (hstatus.trans hok')
  have hresult := hmovedWhole.res_append hmoved hmoved' rfl hab
  have hsum : (a + b).toNat = a.toNat + b.toNat := by
    rw [BitVec.toNat_add]
    omega
  rw [← hsum] at hwhole hab
  obtain ⟨hexec, -⟩ := exec_rBits_ok_iff.2 ⟨hf, hab, by rw [hsum]; exact hfit.add hfit' hcfg hmoved.pos hlen, whole,
    hwhole, hstatus.trans hok', rfl⟩
  have hcount : BitVec.ofNat 8 (a + b).toNat = a + b := by rw [BitVec.ofNat_toNat, BitVec.setWidth_eq]
  rw [hexec, hresult, hpost, State.respond, hcount]
  rfl

end Sys2Proof.Machine
end

/-! PROOFS. Writes (42_writer.md R150 to R154, R160 to R163, R172 items 1 to 3): what a data command that ends OK or CAPACITY
has written, where it completes, what a store that has no room leaves, and the commands that are one and the same write. -/

section
namespace Sys2Proof.Machine

/-! ### A write that ends OK or CAPACITY -/

/-- A command that answers neither FAULTED nor a fatal status has passed its checks, and its own rule answered (R198). -/
theorem command_passed_of_not_raised {a c o : Bool} {own : State → Result} {s t : State}
    (h : command a c o own s = .next t) (hfatal : t.status.isFatal = false) (hne : t.status ≠ .faulted) :
    s.fault = false ∧ a = true ∧ c = true ∧ o = false ∧ own s = .next t := by
  rcases command_cases a c o own s with ⟨-, e⟩ | ⟨-, -, e⟩ | ⟨-, -, -, e⟩ | ⟨-, -, -, -, e⟩ | ⟨hf, ha, hc, ho, e⟩ <;>
    rw [e] at h
  case inr.inr.inr.inr => exact ⟨hf, ha, hc, ho, h⟩
  case inl =>
    cases h
    exact absurd rfl hne
  all_goals
    cases h
    cases hfatal

theorem writeOverflows_eq_false_iff {s : State} {n : Nat} :
    writeOverflows s n = false ↔ (s.cfg.wvar = .stream → s.wpos.toNat + n ≤ maxPos) := by
  simp only [writeOverflows, decide_eq_false_iff_not, not_and, not_lt]

/-- The checks of a writer data command: its row's range and the position of the whole request (R100, R195). -/
theorem exec_write_checks {i : Instr} {bits : List Bool} (s : State) (hb : i.operandBits s.opnd = some bits) :
    ∃ own, exec i s = command true i.wellFormed (writeOverflows s bits.length) own s := by
  cases i with simp only [Instr.operandBits, Option.some.injEq, reduceCtorEq] at hb <;> subst hb <;>
    simp only [exec, laneBits_length, valueBits_length]
  | wBitb c => exact ⟨_, congrArg (fun ok => command true ok _ _ s) (chunkWidthOk_eq c)⟩
  | wField c => exact ⟨_, congrArg (fun ok => command true ok _ _ s) (fieldWidthOk_eq c)⟩
  | wByte | wBool | wBits c => exact ⟨_, rfl⟩

theorem operandBits_length_le {i : Instr} {o : U64} {bits : List Bool} (hw : i.wellFormed = true)
    (hb : i.operandBits o = some bits) : bits.length ≤ 64 := by
  obtain ⟨-, hhi⟩ := (wellFormed_iff i).1 hw
  cases i with simp only [Instr.operandBits, Option.some.injEq, reduceCtorEq] at hb <;> subst hb <;>
    simp only [Instr.countRange, Instr.countField] at hhi
  | wBitb c =>
    rw [laneBits_length]
    omega
  | wBits c => rwa [laneBits_length]
  | wField c => rwa [valueBits_length]
  | wByte =>
    rw [laneBits_length]
    decide
  | wBool => exact show 1 ≤ 64 by decide

/-- A writer data command that ends OK or CAPACITY has passed its checks. -/
theorem exec_write_passed {i : Instr} {bits : List Bool} {s t : State} (hb : i.operandBits s.opnd = some bits)
    (h : exec i s = .next t) (hst : t.status = .ok ∨ t.status = .capacity) :
    s.fault = false ∧ i.wellFormed = true ∧ (s.cfg.wvar = .stream → s.wpos.toNat + bits.length ≤ maxPos) := by
  obtain ⟨own, hexec⟩ := exec_write_checks s hb
  rw [hexec] at h
  obtain ⟨hf, -, hw, hover, -⟩ := command_passed_of_not_raised h (by rcases hst with e | e <;> rw [e] <;> rfl)
    (by rcases hst with e | e <;> rw [e] <;> decide)
  exact ⟨hf, hw, writeOverflows_eq_false_iff.1 hover⟩

/-- A write moves at most what was asked for: all of it on OK, fewer whole bytes on CAPACITY. -/
theorem WriterWrote.le {s : State} {l : U64} {n k : Nat} {run : WriteRun} (h : WriterWrote s l n run k) : k ≤ n := by
  rcases h.status with ⟨-, hk⟩ | ⟨-, -, hk, -⟩ <;> omega

theorem WriterWrote.eq_of_ok {s : State} {l : U64} {n k : Nat} {run : WriteRun} (h : WriterWrote s l n run k)
    (hok : run.status = .ok) : k = n := by
  rcases h.status with ⟨-, hk⟩ | ⟨hcap, -⟩
  · exact hk
  · simp [hok] at hcap

/-- The bits a write of an operand has appended are the operand's first. -/
theorem WriterWrote.written {s : State} {l : U64} {bits : List Bool} {k : Nat} {run : WriteRun}
    (h : WriterWrote s l bits.length run k) (hl : laneBits l bits.length = bits) :
    writtenBits run.post = writtenBits s ++ bits.take k := by
  rw [h.bits, laneBits_eq_take hl h.le]

/-- A writer data command that ends OK or CAPACITY answers what WBits wrote of its operand. -/
theorem exec_write_answered {i : Instr} {bits : List Bool} {s t : State} (hs : Inv s)
    (hb : i.operandBits s.opnd = some bits) (h : exec i s = .next t) (hst : t.status = .ok ∨ t.status = .capacity) :
    ∃ l run k, bits.length ≤ 64 ∧ laneBits l bits.length = bits ∧ t = run.post.respond run.status k 0 ∧
      WriterWrote s l bits.length run k ∧
      (s.cfg.wvar = .growable → run.status = .capacity → ∃ q, run.post = s.setGrown s.wcap s.wbuf q) := by
  obtain ⟨hf, hw, hpos⟩ := exec_write_passed hb h hst
  obtain ⟨l, run, k, hl, hexec, hwrote, -, hgrow, -⟩ := exec_write_spec hs hf hw hb hpos
  rw [hexec] at h
  cases h
  exact ⟨l, run, k, operandBits_length_le hw hb, hl, rfl, hwrote, hgrow⟩

/-- Settles O33: the command has passed its checks, so it answers what WBits wrote. -/
theorem writesAppendExactlyWhatTheyReport : Obligations.WritesAppendExactlyWhatTheyReport := by
  intro i bits s t hs hb h hst
  obtain ⟨l, run, k, hlen, hl, rfl, hwrote, hgrow⟩ := exec_write_answered hs hb h hst
  have hle := hwrote.le
  have hcount : (BitVec.ofNat 8 k).toNat = k := by
    rw [BitVec.toNat_ofNat]
    omega
  rw [State.respond_count, State.respond_status, hcount]
  refine ⟨hle, hwrote.eq_of_ok, fun hcap => ?_, hwrote.written hl, hwrote.pos, rfl, hwrote.frame, hwrote.kept,
    fun h0 => hwrote.zero (by rw [← hcount, h0]; rfl), fun hcap hv => ?_,
    hwrote.only.trans (onlyWriterMoved_respond _ _ _ _)⟩
  · rcases hwrote.status with ⟨hok, -⟩ | ⟨-, hmod, -, hnone⟩
    · simp [hok] at hcap
    · exact ⟨hmod, fun hv => by rw [hnone hv]; rfl⟩
  · obtain ⟨q, hpost⟩ := hgrow hv hcap
    rw [State.respond_wbuf, State.respond_wcap, hpost]
    exact ⟨rfl, rfl⟩

/-! ### Writes with room, and writes a buffer has no room for -/

/-- Room on a stream is also room for the position (R195). -/
theorem RoomFor.pos_le {s : State} {n : Nat} (h : RoomFor s n) (hv : s.cfg.wvar = .stream) :
    s.wpos.toNat + n ≤ maxPos := by
  simp only [RoomFor, hv] at h
  exact h.1

/-- A write of no bits changes nothing but the response (R153). -/
theorem exec_write_none {i : Instr} {s : State} (hs : Inv s) (hf : s.fault = false) (hw : i.wellFormed = true)
    (hb : i.operandBits s.opnd = some []) (hpos : s.cfg.wvar = .stream → s.wpos.toNat ≤ maxPos) :
    exec i s = .next (s.respond .ok 0 0) := by
  obtain ⟨-, ⟨-, hbuffer, -⟩, -⟩ := hs
  obtain ⟨l, -, -, hexec⟩ := exec_write_eq hf hw hb hpos
  rw [hexec, List.length_nil, wBits_zero l fun hv => (hbuffer (by simp [hv])).2.2]
  rfl

/-- Settles O32: with room WBits ends OK, with the whole operand written. -/
theorem writesWithRoomComplete : Obligations.WritesWithRoomComplete := by
  intro i bits s hs hf hw hb hroom
  obtain ⟨l, run, k, hl, hexec, hwrote, hok, -⟩ := exec_write_spec hs hf hw hb hroom.pos_le
  have hstatus := hok hroom
  have hk := hwrote.eq_of_ok hstatus
  subst hk
  have hwritten := hwrote.written hl
  rw [List.take_length] at hwritten
  refine ⟨_, hexec, hstatus, rfl, rfl, hwrote.pos, hwritten, hwrote.frame, hwrote.kept, hwrote.asked, fun hnil => ?_,
    hwrote.only.trans (onlyWriterMoved_respond _ _ _ _)⟩
  subst hnil
  rw [exec_write_none hs hf hw hb hroom.pos_le] at hexec
  exact (Host.Outcome.next.inj hexec).symm

/-- Settles O35: WBits stops before the first chunk past the capacity, whole bytes into the request. -/
theorem fixedWritesCommitTheBytesThatFit : Obligations.FixedWritesCommitTheBytesThatFit := by
  intro i bits s hs hf hv hw hb hpast
  obtain ⟨l, run, k, hl, hexec, hwrote, -, -, hfixed⟩ := exec_write_spec hs hf hw hb fun h => by simp [hv] at h
  obtain ⟨hcap, rfl⟩ := hfixed hv hpast
  exact ⟨_, hexec, hcap, rfl, hwrote.pos, hwrote.written hl, hwrote.frame, hwrote.kept,
    hwrote.only.trans (onlyWriterMoved_respond _ _ _ _)⟩

/-! ### The growable store asked -/

/-- A store that is not willing refuses, whatever the rest of the state (R55). -/
theorem growEnsure_refused {m : Nat} {s : State} (h : GrowWilling s (s.wcap + m) = false) :
    ∃ q, growEnsure m s = (false, s.setGrown s.wcap s.wbuf q) := by
  unfold GrowWilling at h
  unfold growEnsure
  cases hg : s.env.grows.head Config.endlessGrow with
  | none =>
    simp only [hg, decide_eq_false_iff_not] at h
    exact ⟨_, if_neg h⟩
  | some g =>
    cases g with
    | fail => exact ⟨_, rfl⟩
    | ok extra cells => simp [hg] at h

/-- WEnsure refuses a need above the capacity that is past the limit or that the store will not meet (R160). -/
theorem wEnsure_refused {n : Nat} {s : State} (hneed : s.wcap < ceil8 (s.wpos.toNat + n))
    (hwhy : maxBytes < ceil8 (s.wpos.toNat + n) ∨ GrowWilling s (ceil8 (s.wpos.toNat + n)) = false) :
    ∃ q, wEnsure n s = (false, s.setGrown s.wcap s.wbuf q) := by
  unfold wEnsure
  simp only [if_neg (not_le.2 hneed)]
  split
  · exact ⟨s.env.grows, rfl⟩
  · next hlimit =>
    apply growEnsure_refused
    rw [Nat.add_sub_cancel' hneed.le]
    exact hwhy.resolve_left hlimit

/-- Settles O34: WBits on a growable store starts with WEnsure and ends there when that refuses. -/
theorem growableWritesAreAllOrNothing : Obligations.GrowableWritesAreAllOrNothing := by
  intro i bits s hf hv hw hb hneed hwhy
  obtain ⟨l, -, -, hexec⟩ := exec_write_eq hf hw hb fun h => by simp [hv] at h
  obtain ⟨q, hrefused⟩ := wEnsure_refused hneed hwhy
  refine ⟨q, ?_⟩
  simp only [hexec, wBits, if_pos hv, hrefused]
  rfl

/-! ### Commands that are one and the same write -/

/-- The byte in lane 0 and the whole lane word write the same up to 8 bits (R150, R172 item 3). -/
theorem wBits_lanes_opndByte {n : Nat} (s : State) (h8 : n ≤ 8) :
    wBits (lanes (opndByte s)) n s = wBits (opndLanes s) n s :=
  wBits_congr s (laneBits_lanes_lane s.opnd h8) (h8.trans (by decide))

/-- Settles O37: the same checks pass, and WBits is given lane words with the same first bits. -/
theorem shortWritesAreOneCommand : Obligations.ShortWritesAreOneCommand := by
  intro s
  refine ⟨fun n h1 h8 => ?_, ?_, fun n t h1 h64 h => ?_⟩
  · have hwidth := (chunkWidthOk_iff n).2 ⟨h1, h8⟩
    have hcount := (bitCountOk_iff n).2 (h8.trans (by decide))
    simp only [exec, execWBitb, execWBits, hwidth, hcount, wBits_lanes_opndByte _ h8]
  · simp only [exec, execWByte, wBits_lanes_opndByte _ (le_refl 8)]
    rfl
  · have hwidth := (fieldWidthOk_iff n).2 ⟨h1, h64⟩
    have hcount := (bitCountOk_iff n).2 h64
    have hsame : exec (.wBits n) (s.withOpnd (packWord s.opnd n.toNat)) =
        resultWithOpnd (packWord s.opnd n.toNat) (exec (.wField n) s) := by
      simp only [exec, execWBits, execWField, hwidth, hcount]
      exact command_withOpnd fun _ => respondWrite_wBits_withOpnd _ s rfl h64
    rw [h] at hsame
    exact hsame

end Sys2Proof.Machine
end

/-! PROOFS. Positions and capacity (42_writer.md R155 to R157, R160, R164, R172 item 6): W.ALIGN and W.FLUSH, which on a
stream are one command, and W.GROW. -/

section
namespace Sys2Proof.Machine

/-! ### W.ALIGN on a buffer -/

/-- W.ALIGN on a buffer moves WPOS to the next byte boundary and changes nothing else (R155). -/
theorem exec_wAlign_buffer {s : State} (hf : s.fault = false) (hv : s.cfg.wvar ≠ .stream) :
    exec .wAlign s = .next ((s.setWpos (alignUp s.wpos.toNat)).respond .ok (padBits s.wpos.toNat) 0) := by
  simp only [exec]
  refine command_passed hf rfl rfl (writeOverflows_eq_false fun h => absurd h hv) ?_
  rw [if_neg hv, add_padBits]

/-- The bits a zero tail stands for. -/
theorem bitAt_of_tailZeroAt {m : Memory} {p j : Nat} (h : TailZeroAt m p) (hj : p ≤ j) (hbyte : j / 8 = p / 8) :
    bitAt m j = false := by
  unfold TailZeroAt at h
  rw [bitAt, hbyte]
  exact (and_tailMask_eq_zero_iff (by omega)).1 h _ (by omega)

/-- From a position to its byte's end a zero tail has only zeros (R155, R29 item 7). -/
theorem bitsAt_padBits {m : Memory} {p : Nat} (h : p % 8 ≠ 0 → TailZeroAt m p) :
    bitsAt m p (padBits p) = List.replicate (padBits p) false := by
  apply List.ext_getElem
  · simp
  · intro t ht _
    rw [bitsAt_length, padBits_eq_mod] at ht
    rw [bitsAt_getElem, List.getElem_replicate]
    exact bitAt_of_tailZeroAt (h (by omega)) (by omega) (by omega)

/-- The bits produced in a buffer are those below WPOS (R27, R169). -/
theorem writtenBits_buffer {s : State} (hv : s.cfg.wvar ≠ .stream) : writtenBits s = bitsAt s.wbuf 0 s.wpos.toNat := by
  unfold writtenBits
  split
  · next h => exact absurd h hv
  · rfl
  · rfl

/-- Settles O38: the boundary lies inside the capacity, so the bits passed over are the in-progress byte's tail. -/
theorem writerAlignOnABufferOnlyMovesThePosition : Obligations.WriterAlignOnABufferOnlyMovesThePosition := by
  intro s hf hv
  have hexec := exec_wAlign_buffer hf hv
  rw [← padBits_eq_mod]
  refine ⟨hexec, fun t hs htail h => ?_⟩
  rw [hexec] at h
  cases h
  obtain ⟨-, ⟨-, hbuffer, -⟩, -, -, -, -, hcap⟩ := hs
  have hle := alignUp_le (hbuffer hv).2.2
  have haligned : ((s.setWpos (alignUp s.wpos.toNat)).respond .ok (padBits s.wpos.toNat) 0).cfg.wvar ≠ .stream := hv
  rw [writtenBits_buffer hv, writtenBits_buffer haligned, State.respond_wpos, State.setWpos_wpos,
    toNat_ofNat64_of_le_maxBytes hle hcap, ← add_padBits, bitsAt_add, Nat.zero_add]
  exact congrArg _ (bitsAt_padBits (htail hv))

/-! ### W.ALIGN and W.FLUSH on a stream -/

theorem command_congr_own {a c o : Bool} {own own' : State → Result} {s : State} (h : own s = own' s) :
    command a c o own s = command a c o own' s := by
  unfold command
  rw [h]

/-- On a stream W.ALIGN and W.FLUSH both are WPushPending (R155, R157). -/
theorem exec_align_stream {i : Instr} {s : State} (hi : i = .wAlign ∨ i = .wFlush) (hv : s.cfg.wvar = .stream) :
    exec i s = command true true (writeOverflows s (padBits s.wpos.toNat))
      (fun s => respondWrite (.ok (wPushPending s))) s := by
  rcases hi with rfl | rfl <;> simp only [exec]
  · exact command_congr_own (if_pos hv)
  · rw [execWFlush, decide_eq_true hv]

/-- With the boundary at a position a stream's cursor holds, W.ALIGN and W.FLUSH answer what WPushPending hands back. -/
theorem exec_align_pushPending {i : Instr} {s : State} (hi : i = .wAlign ∨ i = .wFlush) (hf : s.fault = false)
    (hv : s.cfg.wvar = .stream) (hpos : alignUp s.wpos.toNat ≤ maxPos) :
    exec i s = respondWrite (.ok (wPushPending s)) := by
  rw [← add_padBits] at hpos
  rw [exec_align_stream hi hv, writeOverflows_eq_false fun _ => hpos, command_own hf]

theorem alignUp_of_aligned {p : Nat} (h : p % 8 = 0) : alignUp p = p := by
  rw [← add_padBits, (padBits_eq_zero_iff p).2 h, Nat.add_zero]

theorem wPushPending_aligned {s : State} (h : s.wpos.toNat % 8 = 0) : wPushPending s = ⟨.ok, 0, s⟩ := by
  rw [wPushPending, if_pos ((padBits_eq_zero_iff _).2 h)]

/-- On a byte boundary W.ALIGN and W.FLUSH skip no bits and move nothing (R155, R164). -/
theorem exec_align_aligned {i : Instr} {s : State} (hi : i = .wAlign ∨ i = .wFlush) (ha : i.availableIn s.cfg = true)
    (hf : s.fault = false) (hpos : s.wpos.toNat % 8 = 0) : exec i s = .next (s.respond .ok 0 0) := by
  by_cases hv : s.cfg.wvar = .stream
  · have hlt := s.toNat_wpos_lt
    have hroom : alignUp s.wpos.toNat ≤ maxPos := by
      rw [alignUp_of_aligned hpos]
      unfold maxPos
      omega
    rw [exec_align_pushPending hi hf hv hroom, wPushPending_aligned hpos]
    rfl
  · rcases hi with rfl | rfl
    · have hkept : s.setWpos s.wpos.toNat = s := by rw [State.setWpos, BitVec.ofNat_toNat, BitVec.setWidth_eq]
      rw [exec_wAlign_buffer hf hv, alignUp_of_aligned hpos, (padBits_eq_zero_iff _).2 hpos, hkept]
    · exact absurd (of_decide_eq_true ha) hv

/-- W.ALIGN or W.FLUSH that ends OK leaves the cursor on a byte boundary (R155, R164). -/
theorem exec_align_ok {i : Instr} {s t : State} (hi : i = .wAlign ∨ i = .wFlush) (h : exec i s = .next t)
    (hok : t.status = .ok) :
    i.availableIn t.cfg = true ∧ t.fault = false ∧ t.wpos.toNat % 8 = 0 ∧ t.result = 0 := by
  by_cases hv : s.cfg.wvar = .stream
  · rw [exec_align_stream hi hv] at h
    obtain ⟨hf, -, -, -, hown⟩ := command_passed_of_status h (.inl hok)
    have ha : i.availableIn s.cfg = true := by rcases hi with rfl | rfl <;> simp [Instr.availableIn, hv]
    rcases wPushPending_cases s with ⟨hpos, e⟩ | ⟨-, -, e⟩ | ⟨-, -, e⟩ <;> rw [e] at hown <;> cases hown
    · exact ⟨ha, hf, hpos, rfl⟩
    · cases hok
    · refine ⟨ha, hf, ?_, rfl⟩
      rw [State.respond_wpos, State.setWriter_wpos, toNat_ofNat64_mod_eight, alignUp_mod]
  · rcases hi with rfl | rfl <;> simp only [exec] at h <;>
      obtain ⟨hf, ha, -, -, hown⟩ := command_passed_of_status h (.inl hok)
    · rw [if_neg hv] at hown
      cases hown
      refine ⟨rfl, hf, ?_, rfl⟩
      rw [State.respond_wpos, State.setWpos_wpos, toNat_ofNat64_mod_eight, add_padBits, alignUp_mod]
    · exact absurd (of_decide_eq_true ha) hv

/-- Settles O40: the first leaves an aligned cursor, where a second moves nothing. -/
theorem writerAlignIsIdempotent : Obligations.WriterAlignIsIdempotent := by
  intro i s t hi h hok
  obtain ⟨ha, hf, hpos, hresult⟩ := exec_align_ok hi h hok
  rw [exec_align_aligned hi ha hf hpos, State.respond, ← hok, ← hresult]
  rfl

theorem sinkWilling_one_iff (s : State) : SinkWilling s 1 ↔ sinkAccepts s 0 = true := by
  simp [SinkWilling]

/-- Settles O39, by the cases of WPushPending and the position check before it. -/
theorem flushPushesThePendingByte : Obligations.FlushPushesThePendingByte := by
  refine ⟨fun i s hi hf hv => ⟨fun hpos => ?_, fun hpos hroom hwill => ?_, fun hpos hroom hno => ?_, fun hpast => ?_⟩,
    fun s hf hv => exec_absent hf (decide_eq_false hv)⟩
  · have ha : i.availableIn s.cfg = true := by rcases hi with rfl | rfl <;> simp [Instr.availableIn, hv]
    exact exec_align_aligned hi ha hf hpos
  · have hpad : 8 - s.wpos.toNat % 8 = padBits s.wpos.toNat := by
      rw [padBits_eq_mod]
      omega
    rw [sinkWilling_one_iff] at hwill
    rw [exec_align_pushPending hi hf hv hroom, hpad]
    rcases wPushPending_cases s with ⟨haligned, -⟩ | ⟨-, hno, -⟩ | ⟨-, -, e⟩
    · exact absurd haligned hpos
    · simp [hwill] at hno
    · rw [e]
      exact ⟨_, rfl⟩
  · rw [sinkWilling_one_iff] at hno
    rw [exec_align_pushPending hi hf hv hroom]
    rcases wPushPending_cases s with ⟨haligned, -⟩ | ⟨-, -, e⟩ | ⟨-, hwill, -⟩
    · exact absurd haligned hpos
    · rw [e]
      exact ⟨_, rfl⟩
    · exact absurd hwill hno
  · have hover : writeOverflows s (padBits s.wpos.toNat) = true := by
      rw [writeOverflows, add_padBits]
      exact decide_eq_true ⟨hv, hpast⟩
    rw [exec_align_stream hi hv, hover]
    exact command_posovf _ hf

/-! ### W.GROW -/

/-- W.GROW on a growable store is WEnsure for the bits in OPND (R156). -/
theorem exec_wGrow {s t : State} {ok : Bool} (hf : s.fault = false) (hv : s.cfg.wvar = .growable)
    (h : wEnsure s.opnd.toNat s = (ok, t)) :
    exec .wGrow s = .next (t.respond (if ok then .ok else .capacity) 0 0) := by
  simp only [exec]
  refine command_passed hf (decide_eq_true hv) rfl rfl ?_
  simp only [opndValue, h]
  cases ok <;> rfl

/-- WEnsure of a need that a legal store can meet and this one will: the capacity covers it and stays legal, and the bytes
that existed are as they were (R160, R55). -/
theorem wEnsure_grown {n : Nat} {s : State} (hneed : s.wcap < ceil8 (s.wpos.toNat + n))
    (hlimit : ceil8 (s.wpos.toNat + n) ≤ maxBytes) (hwill : GrowWilling s (ceil8 (s.wpos.toNat + n)) = true) :
    ∃ cap mem q, wEnsure n s = (true, s.setGrown cap mem q) ∧ ceil8 (s.wpos.toNat + n) ≤ cap ∧ cap ≤ maxBytes ∧
      ∀ a, a < s.wcap → Memory.read mem a = Memory.read s.wbuf a := by
  rcases wEnsure_spec n s with ⟨-, -, -, hpast | hno⟩ | ⟨cap, mem, q, h, hroom, -, hmax, hread, -⟩
  · omega
  · simp [hwill] at hno
  · exact ⟨cap, mem, q, h, hroom, hmax (by omega), hread⟩

/-- Settles O41, by the cases of WEnsure. -/
theorem growReservesCapacityOnly : Obligations.GrowReservesCapacityOnly := by
  intro s hf
  refine ⟨fun hv => exec_absent hf (decide_eq_false hv), fun hv hcovered => ?_, fun hv hneed hpast => ?_,
    fun hv hneed _ hno => ?_, fun hv hneed hlimit hwill => ?_⟩
  · exact exec_wGrow hf hv (if_pos hcovered)
  · refine exec_wGrow (ok := false) hf hv ?_
    rw [wEnsure, if_neg (not_le.2 hneed)]
    exact if_pos hpast
  · obtain ⟨q, h⟩ := wEnsure_refused hneed (.inr hno)
    exact ⟨q, exec_wGrow hf hv h⟩
  · obtain ⟨cap, mem, q, h, hroom, hmax, hread⟩ := wEnsure_grown hneed hlimit hwill
    exact ⟨cap, mem, q, exec_wGrow hf hv h, hroom, hmax, hread⟩

end Sys2Proof.Machine
end

/-! PROOFS. What the writer has produced stays and reads back (42_writer.md R163, R172 items 2 and 5): no command changes a
committed bit, and a reader over the bytes written answers the fields written. -/

section
namespace Sys2Proof.Machine

/-! ### Bit lists over a store -/

/-- Bits appended to those of a buffer stand from the old position on, after the old bits. -/
theorem bitsAt_of_appended {s t : State} {bits : List Bool} (hv : s.cfg.wvar ≠ .stream) (hcfg : t.cfg = s.cfg)
    (h : writtenBits t = writtenBits s ++ bits) :
    bitsAt t.wbuf 0 s.wpos.toNat = bitsAt s.wbuf 0 s.wpos.toNat ∧
      bitsAt t.wbuf s.wpos.toNat bits.length = bits := by
  rw [writtenBits_buffer hv, writtenBits_buffer (by rwa [hcfg])] at h
  have hpos : t.wpos.toNat = s.wpos.toNat + bits.length := by simpa using congrArg List.length h
  rw [hpos, bitsAt_add, Nat.zero_add] at h
  exact List.append_inj h (by rw [bitsAt_length, bitsAt_length])

theorem bitAt_of_bitsAt_eq {m m' : Memory} {n j : Nat} (h : bitsAt m 0 n = bitsAt m' 0 n) (hj : j < n) :
    bitAt m j = bitAt m' j := by
  have hbit := List.getElem_of_eq h (i := j) (by rwa [bitsAt_length])
  rwa [bitsAt_getElem, bitsAt_getElem, Nat.zero_add] at hbit

theorem writtenBits_stream {s : State} (hv : s.cfg.wvar = .stream) :
    writtenBits s = s.snk.flatMap byteBits ++ (byteBits s.wpend).take s.wpcnt.toNat := by
  simp only [writtenBits, hv]

/-- Bytes whose bits come first come first themselves. -/
theorem prefix_of_flatMap_byteBits {l l' : List Byte} (h : l.flatMap byteBits <+: l'.flatMap byteBits) : l <+: l' := by
  induction l generalizing l' with
  | nil => exact List.nil_prefix
  | cons b l ih =>
    cases l' with
    | nil => simpa [length_flatMap_byteBits] using h.length_le
    | cons b' l' =>
      obtain ⟨rest, hrest⟩ := h
      rw [List.flatMap_cons, List.flatMap_cons, List.append_assoc] at hrest
      obtain ⟨hb, hl⟩ := List.append_inj hrest (by rw [byteBits_length, byteBits_length])
      rw [byteBits_injective hb]
      exact (List.prefix_cons_inj b').2 (ih ⟨rest, hl⟩)

/-! ### Committed bits -/

/-- The bits below WPOS are as they were, and the sink has only been appended to (R163). -/
def CommittedKept (s t : State) : Prop :=
  (∀ j, j < s.wpos.toNat → bitAt t.wbuf j = bitAt s.wbuf j) ∧ s.snk <+: t.snk

theorem committedKept_of_eq {s t : State} (hbuf : t.wbuf = s.wbuf) (hsnk : t.snk = s.snk) : CommittedKept s t :=
  ⟨fun _ _ => by rw [hbuf], by rw [hsnk]⟩

/-- Bits appended to a stream's are in bytes appended to the sink's: a sink does not shrink (R56, R65). -/
theorem snk_prefix_of_appended {s t : State} {bits : List Bool} (hv : s.cfg.wvar = .stream) (hcfg : t.cfg = s.cfg)
    (h : writtenBits t = writtenBits s ++ bits) (hlen : s.snk.length ≤ t.snk.length) : s.snk <+: t.snk := by
  rw [writtenBits_stream hv, writtenBits_stream (by rwa [hcfg]), List.append_assoc] at h
  apply prefix_of_flatMap_byteBits
  refine List.prefix_of_prefix_length_le (List.prefix_append _ _) (h ▸ List.prefix_append _ _) ?_
  rw [length_flatMap_byteBits, length_flatMap_byteBits]
  omega

theorem WriterWrote.committedKept {s : State} {l : U64} {n k : Nat} {run : WriteRun} (h : WriterWrote s l n run k) :
    CommittedKept s run.post := by
  by_cases hv : s.cfg.wvar = .stream
  · obtain ⟨p, ⟨-, hlen⟩, -⟩ := h.pushed hv
    exact ⟨fun j _ => by rw [h.kept.2.1 hv], snk_prefix_of_appended hv h.only.cfg_eq h.bits (by omega)⟩
  · obtain ⟨-, -, hsnk, -⟩ := h.kept.1 hv
    obtain ⟨hbits, -⟩ := bitsAt_of_appended hv h.only.cfg_eq h.bits
    exact ⟨fun j hj => bitAt_of_bitsAt_eq hbits hj, by rw [hsnk]⟩

theorem respondWrite_wBits_committedKept {l : U64} {n : Nat} {s t : State} (hs : WriterSound s) (hn : n ≤ 64)
    (h : respondWrite (wBits l n s) = .next t) : CommittedKept s t := by
  obtain ⟨run, k, hrun, hwrote, -⟩ := wBits_spec l s hn hs.ready hs.pos_le
  rw [hrun] at h
  cases h
  exact hwrote.committedKept

theorem wPushPending_committedKept (s : State) : CommittedKept s (wPushPending s).post := by
  rcases wPushPending_cases s with ⟨-, e⟩ | ⟨-, -, e⟩ | ⟨-, -, e⟩ <;> rw [e]
  · exact committedKept_of_eq rfl rfl
  · exact committedKept_of_eq rfl rfl
  · exact ⟨fun _ _ => rfl, List.prefix_append _ _⟩

theorem wEnsure_committedKept (n : Nat) {s : State} (hpos : s.wpos.toNat ≤ 8 * s.wcap) :
    CommittedKept s (wEnsure n s).2 := by
  rcases wEnsure_spec n s with ⟨q, e, -⟩ | ⟨cap, mem, q, e, -, -, -, hread, -⟩ <;> rw [e]
  · exact committedKept_of_eq rfl rfl
  · refine ⟨fun j hj => ?_, List.prefix_rfl⟩
    unfold bitAt
    rw [State.setGrown_wbuf, hread _ (by omega)]

theorem exec_writer_committedKept {i : Instr} {s t : State} (hi : i.isWriter = true) (hs : WriterSound s)
    (h : exec i s = .next t) : CommittedKept s t := by
  have hsame : CommittedKept s s := committedKept_of_eq rfl rfl
  cases i with simp only [exec] at h
  | wBitb n =>
    refine command_keeps h hsame (fun _ => hsame) fun _ hc e => respondWrite_wBits_committedKept hs ?_ e
    have := ((chunkWidthOk_iff n).1 hc).2
    omega
  | wByte => exact command_keeps h hsame (fun _ => hsame) fun _ _ e => respondWrite_wBits_committedKept hs (by decide) e
  | wBool => exact command_keeps h hsame (fun _ => hsame) fun _ _ e => respondWrite_wBits_committedKept hs (by decide) e
  | wBits n =>
    exact command_keeps h hsame (fun _ => hsame) fun _ hc e =>
      respondWrite_wBits_committedKept hs ((bitCountOk_iff n).1 hc) e
  | wField n =>
    exact command_keeps h hsame (fun _ => hsame) fun _ hc e =>
      respondWrite_wBits_committedKept hs ((fieldWidthOk_iff n).1 hc).2 e
  | wAlign =>
    refine command_keeps h hsame (fun _ => hsame) fun _ _ e => ?_
    split at e <;> cases e
    · exact wPushPending_committedKept s
    · exact committedKept_of_eq rfl rfl
  | wGrow =>
    refine command_keeps h hsame (fun _ => hsame) fun ha _ e => ?_
    have hv : s.cfg.wvar ≠ .stream := by simp [of_decide_eq_true ha]
    have hgrown := wEnsure_committedKept (opndValue s).toNat (hs.pos_le hv)
    split at e <;>
    · next he =>
      rw [he] at hgrown
      cases e
      exact hgrown
  | wFlush =>
    refine command_keeps h hsame (fun _ => hsame) fun _ _ e => ?_
    cases e
    exact wPushPending_committedKept s
  | wLen | wRst =>
    refine command_keeps h hsame (fun _ => hsame) fun _ _ e => ?_
    cases e
    exact committedKept_of_eq rfl rfl
  | wPos =>
    cases h
    exact hsame
  | _ => cases hi

/-- Settles O42: a writer command appends to what is committed, the others leave WBUF and the sink alone. -/
theorem committedBitsAreNeverCorrupted : Obligations.CommittedBitsAreNeverCorrupted := by
  intro i s t hs h
  have hkept : CommittedKept s t := by
    cases hw : i.isWriter with
    | true => exact exec_writer_committedKept hw ((inv_iff s).1 hs).2.1 h
    | false =>
      obtain ⟨-, -, -, -, hbuf, -, hsnk, -⟩ := (exec_nonWriter_raisedOr hw h).reader_keeps
      exact committedKept_of_eq hbuf hsnk
  obtain ⟨hbits, pushed, hsnk⟩ := hkept
  exact ⟨hbits, pushed, hsnk.symm⟩

/-! ### One field written and read back -/

/-- The low n bits of a value are its value mod 2^n (R123). -/
theorem bitsValue_valueBits (v : U64) (n : Nat) : bitsValue (valueBits v n) = v.toNat % 2 ^ n := by
  apply Nat.eq_of_testBit_eq
  intro i
  rw [bitsValue_testBit, Nat.testBit_mod_two_pow, valueBits_length]
  by_cases hi : i < n
  · have hplace : n - 1 - (n - 1 - i) = i := by omega
    have hin : n - 1 - i < (valueBits v n).length := by
      rw [valueBits_length]
      omega
    rw [List.getD_eq_getElem _ _ hin, valueBits_getElem, hplace, BitVec.testBit_toNat]
  · rw [decide_eq_false hi, Bool.false_and, Bool.false_and]

/-- R.FIELD over the bits of a value answers that value mod 2^n and advances RPOS (R134, R123). -/
theorem exec_rField_valueBits {n : BitVec 8} {v : U64} {u : State} (hf : u.fault = false) (hv : u.cfg.rvar = .buffer)
    (hlen : u.cfg.rlen ≤ maxBytes) (h1 : 1 ≤ n.toNat) (h64 : n.toNat ≤ 64)
    (hfit : u.rpos.toNat + n.toNat ≤ 8 * u.cfg.rlen)
    (hbits : bitsAt u.rbuf u.rpos.toNat n.toNat = valueBits v n.toNat) :
    exec (.rField n) u = .next ((u.setRpos (u.rpos.toNat + n.toNat)).respond .ok n.toNat
      (BitVec.ofNat 64 (v.toNat % 2 ^ n.toNat))) := by
  rw [exec_read_buffer hf hv hlen ((wellFormed_iff (.rField n)).2 ⟨h1, h64⟩) rfl hfit, Instr.readResult, hbits,
    bitsValue_valueBits]
  rfl

/-- Settles O43: the field's bits stand from the old WPOS on, where the reader is. -/
theorem fieldWrittenIsReadBack : Obligations.FieldWrittenIsReadBack := by
  intro n s u hs hf hv h1 h64 hroom
  obtain ⟨t, ht, hok, -, -, -, hbits, -, -, -, -, honly⟩ := writesWithRoomComplete (.wField n) _ s hs hf
    ((wellFormed_iff (.wField n)).2 ⟨h1, h64⟩) rfl (by rwa [valueBits_length])
  obtain ⟨-, hfield⟩ := bitsAt_of_appended hv honly.cfg_eq hbits
  rw [valueBits_length] at hfield
  refine ⟨t, ht, hok, fun hfu hvu hlen hbuf hpos hfit => ?_⟩
  have hcount : BitVec.ofNat 8 n.toNat = n := by rw [BitVec.ofNat_toNat, BitVec.setWidth_eq]
  rw [exec_rField_valueBits hfu hvu hlen h1 h64 hfit (by rw [hbuf, hpos, hfield]), State.respond, hcount]
  rfl

/-! ### A sequence of fields written and read back -/

/-- The bits of a sequence of fields, in stream order (R123, R154). -/
def fieldBits (fields : List (BitVec 8 × U64)) : List Bool := fields.flatMap fun f => valueBits f.2 f.1.toNat

theorem fieldBits_cons (n : BitVec 8) (v : U64) (rest : List (BitVec 8 × U64)) :
    fieldBits ((n, v) :: rest) = valueBits v n.toNat ++ fieldBits rest := rfl

/-- Widths that R.FIELD and W.FIELD take (R100). -/
def FieldWidths (fields : List (BitVec 8 × U64)) : Prop := ∀ f ∈ fields, 1 ≤ f.1.toNat ∧ f.1.toNat ≤ 64

/-- W.FIELD that ends OK has appended the low bits of its operand (R154). -/
theorem exec_wField_ok {n : BitVec 8} {s t : State} (hs : Inv s) (h : exec (.wField n) s = .next t)
    (hok : t.status = .ok) :
    (1 ≤ n.toNat ∧ n.toNat ≤ 64) ∧ writtenBits t = writtenBits s ++ valueBits s.opnd n.toNat := by
  obtain ⟨-, hw, -⟩ := exec_write_passed rfl h (.inl hok)
  obtain ⟨l, run, k, -, hl, rfl, hwrote, -⟩ := exec_write_answered hs rfl h (.inl hok)
  have hwritten := hwrote.written hl
  rw [hwrote.eq_of_ok hok, List.take_length] at hwritten
  exact ⟨(wellFormed_iff (.wField n)).1 hw, hwritten⟩

theorem writeFields_spec {fields : List (BitVec 8 × U64)} {s t : State} (hs : Inv s) (h : writeFields fields s = some t) :
    Inv t ∧ t.cfg = s.cfg ∧ FieldWidths fields ∧ writtenBits t = writtenBits s ++ fieldBits fields := by
  induction fields generalizing s with
  | nil =>
    cases h
    exact ⟨hs, rfl, by simp [FieldWidths], (List.append_nil _).symm⟩
  | cons f rest ih =>
    obtain ⟨n, v⟩ := f
    have hs' : Inv { s with opnd := v } := hs
    rw [writeFields] at h
    split at h
    · next u hu =>
      split at h
      · next hok =>
        obtain ⟨hn, hfirst⟩ := exec_wField_ok hs' hu hok
        obtain ⟨ht, hcfg, hrest, hbits⟩ := ih (exec_inv hs' hu) h
        refine ⟨ht, hcfg.trans (exec_sharedKept hu).1, List.forall_mem_cons.2 ⟨hn, hrest⟩, ?_⟩
        rw [hbits, hfirst, fieldBits_cons, ← List.append_assoc]
        rfl
      · cases h
    · cases h
    · cases h

/-- R.FIELD commands over the bits of a sequence of fields answer the fields' values. -/
theorem readFields_of_bits {fields : List (BitVec 8 × U64)} {u : State} (hf : u.fault = false)
    (hv : u.cfg.rvar = .buffer) (hlen : u.cfg.rlen ≤ maxBytes) (hw : FieldWidths fields)
    (hfit : u.rpos.toNat + (fieldBits fields).length ≤ 8 * u.cfg.rlen)
    (hbits : bitsAt u.rbuf u.rpos.toNat (fieldBits fields).length = fieldBits fields) :
    readFields (fields.map fun f => f.1) u =
      some (fields.map fun f => BitVec.ofNat 64 (f.2.toNat % 2 ^ f.1.toNat)) := by
  induction fields generalizing u with
  | nil => rfl
  | cons f rest ih =>
    obtain ⟨n, v⟩ := f
    obtain ⟨⟨h1, h64⟩, hw'⟩ := List.forall_mem_cons.1 hw
    rw [fieldBits_cons, List.length_append, valueBits_length] at hfit hbits
    rw [bitsAt_add] at hbits
    obtain ⟨hfirst, hrest⟩ := List.append_inj hbits (by rw [bitsAt_length, valueBits_length])
    have hin : u.rpos.toNat + n.toNat ≤ 8 * u.cfg.rlen := by omega
    have hpos := toNat_ofNat64_of_le_maxBytes hin hlen
    rw [List.map_cons, readFields, exec_rField_valueBits hf hv hlen h1 h64 hin hfirst]
    simp only [State.respond_status, State.respond_result, if_true]
    rw [ih (u := (u.setRpos (u.rpos.toNat + n.toNat)).respond .ok n.toNat _) hf hv hlen hw'
      (by rw [State.respond_rpos, State.setRpos_rpos, hpos, Nat.add_assoc]; exact hfit)
      (by rw [State.respond_rpos, State.setRpos_rpos, hpos]; exact hrest)]
    rfl

/-- A store that reads as these bytes has their bits. -/
theorem bitsAt_of_bytes {m : Memory} {l : List Byte} (h : ∀ a, a < l.length → some (Memory.read m a) = l[a]?) :
    bitsAt m 0 (8 * l.length) = l.flatMap byteBits := by
  induction l using List.reverseRecOn with
  | nil => rfl
  | append_singleton l b ih =>
    have hinit : ∀ a, a < l.length → some (Memory.read m a) = l[a]? := fun a ha => by
      rw [h a (by simp; omega), List.getElem?_append_left ha]
    have hlast : Memory.read m l.length = b := by simpa using h l.length (by simp)
    rw [List.length_append, List.length_singleton, Nat.mul_add, bitsAt_add, Nat.zero_add, ih hinit,
      Nat.mul_one, ← byteBits_read, hlast, List.flatMap_append, List.flatMap_singleton]

/-- A list that the bits of a store start with is the first of those bits. -/
theorem bitsAt_of_prefix {m : Memory} {bits : List Bool} {p n : Nat} (h : bits <+: bitsAt m p n) :
    bits.length ≤ n ∧ bitsAt m p bits.length = bits := by
  have hle : bits.length ≤ n := by simpa using h.length_le
  exact ⟨hle, by rw [← bitsAt_take m p n _ hle, ← List.prefix_iff_eq_take.1 h]⟩

/-- After an OK W.FLUSH the sink's bytes start with all the bits produced (R164, R66 item 3). -/
theorem writtenBits_prefix_of_flush {s t : State} (hs : Inv s) (hv : s.cfg.wvar = .stream)
    (h : exec .wFlush s = .next t) (hok : t.status = .ok) : writtenBits s <+: t.snk.flatMap byteBits := by
  obtain ⟨-, ⟨hstream, -⟩, -⟩ := hs
  rw [exec_align_stream (.inr rfl) hv] at h
  obtain ⟨-, -, -, -, hown⟩ := command_passed_of_status h (.inl hok)
  rw [writtenBits_stream hv]
  rcases wPushPending_cases s with ⟨hpos, e⟩ | ⟨-, -, e⟩ | ⟨-, -, e⟩ <;> rw [e] at hown <;> cases hown
  · rw [hstream hv, hpos, List.take_zero, List.append_nil]
    exact List.prefix_rfl
  · cases hok
  · rw [State.respond_snk, State.setWriter_snk, State.setSink_snk, List.flatMap_append, List.flatMap_singleton]
    exact (List.prefix_append_right_inj _).2 (List.take_prefix _ _)

/-- A buffer at position 0, or a stream there with an empty sink, has produced no bits. -/
theorem writtenBits_start {s : State} (hs : Inv s) (hpos : s.wpos = 0) (hsnk : s.cfg.wvar = .stream → s.snk = []) :
    writtenBits s = [] := by
  by_cases hv : s.cfg.wvar = .stream
  · obtain ⟨-, ⟨hstream, -⟩, -⟩ := hs
    rw [writtenBits_stream hv, hsnk hv, hstream hv, hpos]
    rfl
  · rw [writtenBits_buffer hv, hpos]
    rfl

/-- Settles O44: the bits of the fields are those produced, and the reader's buffer starts with them. -/
theorem fieldSequenceWrittenIsReadBack : Obligations.FieldSequenceWrittenIsReadBack := by
  intro fields s t u hs hstart h hf hvu hru hlen
  obtain ⟨ht, hcfg, hw, hbits⟩ := writeFields_spec hs h
  have hzero : u.rpos.toNat = 0 := by rw [hru]; rfl
  refine ⟨fun hv hrlen hread => ?_, fun v hv hsnk hflush hok hrlen hread => ?_⟩
  · rw [writtenBits_start hs hstart fun h => absurd h hv, List.nil_append, writtenBits_buffer (by rwa [hcfg])] at hbits
    have hcount : (fieldBits fields).length = t.wpos.toNat := by rw [← hbits, bitsAt_length]
    have hin := ceil8_mul_ge t.wpos.toNat
    refine readFields_of_bits hf hvu hlen hw (by omega) ?_
    rw [hzero, hcount, ← hbits]
    refine bitsAt_congr fun j _ hj => ?_
    unfold bitAt
    rw [hread _ (by omega)]
  · rw [writtenBits_start hs hstart fun _ => hsnk, List.nil_append] at hbits
    have hprefix := writtenBits_prefix_of_flush ht (by rwa [hcfg]) hflush hok
    rw [hrlen] at hread
    rw [hbits, ← bitsAt_of_bytes hread] at hprefix
    obtain ⟨hfit, hfirst⟩ := bitsAt_of_prefix hprefix
    exact readFields_of_bits hf hvu hlen hw (by omega) (by rw [hzero]; exact hfirst)

end Sys2Proof.Machine
end

/-! PROOFS. The conditions (60_exceptions.md R191, R193, R195, R196, R200): what the faulted block answers, what raising a
fatal condition leaves, when PRECOND and POSOVF are raised, and reads past the end of a buffer. -/

section
namespace Sys2Proof.Machine

/-! ### The faulted block -/

/-- R.POS, W.POS and SYS.STAT are the readouts (R196). -/
theorem isReadout_eq_false {i : Instr} (hr : i ≠ .rPos) (hw : i ≠ .wPos) (hstat : i ≠ .sysStat) :
    i.isReadout = false := by
  cases i with
  | rPos => exact absurd rfl hr
  | wPos => exact absurd rfl hw
  | sysStat => exact absurd rfl hstat
  | _ => rfl

theorem illegalWord_of_faulted {s : State} (hf : s.fault = true) : illegalWord s = s.refuseFaulted := if_pos hf

theorem illegalWord_of_clear {s : State} (hf : s.fault = false) : illegalWord s = s.raise .illegal := by
  simp [illegalWord, hf]

/-- SYS.STAT's word with FAULT set (R180). -/
theorem statWord_of_faulted {s : State} (hf : s.fault = true) : statWord s = BitVec.ofNat 64 (16 + s.fcause.toNat) := by
  rw [statWord, hf]
  rfl

/-- Settles O8: the first check of every command but the readouts, and of a word that matches no row, is FAULT; the
readouts check nothing. -/
theorem faultedBlockPerformsOnlyTheReadouts : Obligations.FaultedBlockPerformsOnlyTheReadouts := by
  refine ⟨fun i s hf hr hw hstat => exec_faulted (isReadout_eq_false hr hw hstat) hf, fun s w o rest e hf hp hd => ?_,
    fun s hf => ⟨rfl, rfl, ?_⟩⟩
  · have hf' : (s.issue w o rest).fault = true := hf
    rw [step_illegalWord hp hd, illegalWord_of_faulted hf']
    rfl
  · rw [← statWord_of_faulted hf]
    rfl

/-! ### Raising a fatal condition -/

/-- A command that answers a fatal status has only raised it (R200). -/
theorem exec_fatal_raises {i : Instr} {s t : State} (h : exec i s = .next t) (hfatal : t.status.isFatal = true) :
    t = s.raise t.status := by
  obtain ⟨-, ⟨-, rfl⟩ | ⟨-, -, rfl⟩ | ⟨-, -, rfl⟩⟩ := exec_fatal_cases h hfatal <;> rfl

/-- Settles O9: every fatal answer is the state with its condition raised. -/
theorem fatalConditionChangesOnlyFault : Obligations.FatalConditionChangesOnlyFault := by
  refine ⟨fun s w o rest e hf hp hd => ?_, fun i s t h => ?_⟩
  · have hf' : (s.issue w o rest).fault = false := hf
    rw [step_illegalWord hp hd, illegalWord_of_clear hf']
    rfl
  · have hraised : ∀ st, st.isFatal = true → t.status = st → t = s.raise st := by
      rintro _ hfatal rfl
      exact exec_fatal_raises h hfatal
    exact ⟨hraised .precond rfl, hraised .illegal rfl, hraised .posovf rfl⟩

/-! ### PRECOND -/

/-- A readout takes no count, so it has none out of range. -/
theorem isReadout_of_not_wellFormed {i : Instr} (hw : i.wellFormed = false) : i.isReadout = false := by
  cases i with
  | rPos | wPos | sysStat => cases hw
  | _ => rfl

/-- A command that exists, with its count out of range, raises PRECOND (R193, R198). -/
theorem exec_illFormed {i : Instr} {s : State} (hf : s.fault = false) (ha : i.availableIn s.cfg = true)
    (hw : i.wellFormed = false) : exec i s = .next (s.raise .precond) := by
  obtain ⟨o, own, hexec, -⟩ := exec_checked (isReadout_of_not_wellFormed hw) s
  rw [hexec, ha, hw, command_precond _ _ hf]

/-- Settles O12: of the checks that raise a fatal condition the range check alone raises PRECOND. -/
theorem precondIsACountOutOfRange : Obligations.PrecondIsACountOutOfRange := by
  refine ⟨fun i s hf ha hw => exec_illFormed hf ha hw, fun i s t h hst => ?_⟩
  rcases exec_fatal_cases h (by rw [hst]; rfl) with ⟨hf, ⟨-, rfl⟩ | ⟨ha, hw, -⟩ | ⟨-, -, rfl⟩⟩
  · cases hst
  · exact ⟨hf, ha, hw⟩
  · cases hst

/-! ### POSOVF -/

theorem readOverflows_eq_true {s : State} {n : Nat} (hv : s.cfg.rvar = .stream) (hpast : maxPos < s.rpos.toNat + n) :
    readOverflows s n = true := decide_eq_true ⟨hv, hpast⟩

theorem writeOverflows_eq_true {s : State} {n : Nat} (hv : s.cfg.wvar = .stream) (hpast : maxPos < s.wpos.toNat + n) :
    writeOverflows s n = true := decide_eq_true ⟨hv, hpast⟩

/-- A stream read of more bits than the position has room for raises POSOVF (R195). -/
theorem exec_read_overflows {i : Instr} {n : Nat} {s : State} (hf : s.fault = false) (hv : s.cfg.rvar = .stream)
    (ha : i.availableIn s.cfg = true) (hw : i.wellFormed = true) (hn : i.readBits = some n)
    (hpast : maxPos < s.rpos.toNat + n) : exec i s = .next (s.raise .posovf) := by
  obtain ⟨own, hexec⟩ := exec_read_checks s hn
  rw [hexec, ha, hw, readOverflows_eq_true hv hpast, command_posovf _ hf]

/-- R.ALIGN on a stream, past the last position (R195, R135). -/
theorem exec_rAlign_overflows {s : State} (hf : s.fault = false) (hv : s.cfg.rvar = .stream)
    (hpast : maxPos < s.rpos.toNat + padBits s.rpos.toNat) : exec .rAlign s = .next (s.raise .posovf) := by
  simp only [exec]
  rw [execRAlign, readOverflows_eq_true hv hpast, command_posovf _ hf]

/-- A stream write of more bits than the position has room for raises POSOVF (R195). -/
theorem exec_write_overflows {i : Instr} {bits : List Bool} {s : State} (hf : s.fault = false)
    (hv : s.cfg.wvar = .stream) (hw : i.wellFormed = true) (hb : i.operandBits s.opnd = some bits)
    (hpast : maxPos < s.wpos.toNat + bits.length) : exec i s = .next (s.raise .posovf) := by
  obtain ⟨own, hexec⟩ := exec_write_checks s hb
  rw [hexec, hw, writeOverflows_eq_true hv hpast, command_posovf _ hf]

/-- W.ALIGN and W.FLUSH on a stream, past the last position (R195, R164). -/
theorem exec_align_overflows {i : Instr} {s : State} (hi : i = .wAlign ∨ i = .wFlush) (hf : s.fault = false)
    (hv : s.cfg.wvar = .stream) (hpast : maxPos < s.wpos.toNat + padBits s.wpos.toNat) :
    exec i s = .next (s.raise .posovf) := by
  rw [exec_align_stream hi hv, writeOverflows_eq_true hv hpast, command_posovf _ hf]

/-- The command's unit is configured as a stream. -/
def OnStream (i : Instr) (s : State) : Prop :=
  (i.isReader = true ∧ s.cfg.rvar = .stream) ∨ (i.isWriter = true ∧ s.cfg.wvar = .stream)

theorem onStream_of_readOverflows {i : Instr} {s : State} {n : Nat} (hi : i.isReader = true)
    (h : readOverflows s n = true) : OnStream i s := .inl ⟨hi, (of_decide_eq_true h).1⟩

theorem onStream_of_writeOverflows {i : Instr} {s : State} {n : Nat} (hi : i.isWriter = true)
    (h : writeOverflows s n = true) : OnStream i s := .inr ⟨hi, (of_decide_eq_true h).1⟩

/-- The outcome is POSOVF only where P. -/
def PosovfOnlyIf (P : Prop) (r : Result) : Prop := ∀ t, r = .next t → t.status = .posovf → P

theorem NeverFatal.posovfOnlyIf {r : Result} (h : NeverFatal r) (P : Prop) : PosovfOnlyIf P r := by
  intro t ht hst
  have hclear := h t ht
  rw [hst] at hclear
  cases hclear

/-- A command whose own rule raises nothing answers POSOVF only by its position check (R198). -/
theorem command_posovfOnlyIf {a c o : Bool} {own : State → Result} {s : State} {P : Prop} (hown : NeverFatal (own s))
    (ho : o = true → P) : PosovfOnlyIf P (command a c o own s) := by
  rcases command_cases a c o own s with ⟨-, e⟩ | ⟨-, -, e⟩ | ⟨-, -, -, e⟩ | ⟨-, -, -, hover, -⟩ | ⟨-, -, -, -, e⟩
  case inr.inr.inr.inl => exact fun _ _ _ => ho hover
  case inr.inr.inr.inr =>
    rw [e]
    exact hown.posovfOnlyIf P
  all_goals
    rw [e]
    intro t ht hst
    cases ht
    cases hst

/-- Each command's position check is that of its own unit, and only a stream's can fail (R195). -/
theorem exec_posovfOnlyIf_onStream (i : Instr) (s : State) : PosovfOnlyIf (OnStream i s) (exec i s) := by
  cases i with simp only [exec]
  | pack _ | unpack _ | rRst | wRst | wLen => exact command_posovfOnlyIf (neverFatal_respond _ rfl _ _) nofun
  | rPos | wPos | sysStat => exact (neverFatal_respond s rfl _ _).posovfOnlyIf _
  | rBitb _ | rByte | rBool =>
    exact command_posovfOnlyIf (respondChunk_neverFatal _ _ _) (onStream_of_readOverflows rfl)
  | rBits _ => exact command_posovfOnlyIf (respondRead_neverFatal _ _) (onStream_of_readOverflows rfl)
  | rField _ => exact command_posovfOnlyIf (respondField_neverFatal _ _ _) (onStream_of_readOverflows rfl)
  | rAlign => exact command_posovfOnlyIf (neverFatal_respond _ rfl _ _) (onStream_of_readOverflows rfl)
  | rArr _ => exact command_posovfOnlyIf (respondRead_neverFatal _ _) nofun
  | wBitb _ | wByte | wBool | wBits _ | wField _ =>
    exact command_posovfOnlyIf (respondWrite_wBits_neverFatal _ _ _) (onStream_of_writeOverflows rfl)
  | wAlign =>
    refine command_posovfOnlyIf ?_ (onStream_of_writeOverflows rfl)
    split
    · exact respondWrite_wPushPending_neverFatal s
    · exact neverFatal_respond _ rfl _ _
  | wFlush => exact command_posovfOnlyIf (respondWrite_wPushPending_neverFatal s) (onStream_of_writeOverflows rfl)
  | wGrow =>
    refine command_posovfOnlyIf ?_ nofun
    split <;> exact neverFatal_respond _ rfl _ _

/-- Settles O14: the position check stands before the command's own rule, and only a stream's unit can fail it. -/
theorem positionOverflowStopsBeforeAnyTransfer : Obligations.PositionOverflowStopsBeforeAnyTransfer := by
  refine ⟨fun i n s hf hv ha hw hn hpast => ?_, fun i n s hf hv hw hn hpast => ?_, exec_posovfOnlyIf_onStream⟩
  · rcases hn with hn | ⟨rfl, rfl⟩
    · exact exec_read_overflows hf hv ha hw hn hpast
    · exact exec_rAlign_overflows hf hv hpast
  · rcases hn with ⟨bits, hb, rfl⟩ | ⟨hi, rfl⟩
    · exact exec_write_overflows hf hv hw hb hpast
    · exact exec_align_overflows hi hf hv hpast

/-! ### A read past the end of a buffer -/

section PastTheEnd

variable {i : Instr} {n : Nat} {s : State}

theorem rChunk_past_end (hv : s.cfg.rvar = .buffer) (hpast : 8 * s.cfg.rlen < s.rpos.toNat + n) :
    rChunk n s = .ok (none, s) := by
  simp only [rChunk, hv, hpast, if_true]

theorem rBits_past_end (hv : s.cfg.rvar = .buffer) (hpast : 8 * s.cfg.rlen < s.rpos.toNat + n) :
    rBits n s = .ok ⟨.eod, 0, 0, s⟩ := if_pos ⟨hv, hpast⟩

theorem readOverflows_of_buffer (hv : s.cfg.rvar = .buffer) : readOverflows s n = false :=
  readOverflows_eq_false fun hstream => by simp [hv] at hstream

/-- Every data command but R.FIELD answers EOD with RESULT = 0 where the bits asked for are not all in the buffer, and moves
nothing (R138, R191). -/
theorem exec_read_past_end (hf : s.fault = false) (hv : s.cfg.rvar = .buffer) (hw : i.wellFormed = true)
    (hn : i.readBits = some n) (hpast : 8 * s.cfg.rlen < s.rpos.toNat + n) (hne : ∀ m, i ≠ .rField m) :
    exec i s = .next (s.respond .eod 0 0) := by
  obtain ⟨hlo, hhi⟩ := (wellFormed_iff i).1 hw
  have hover : readOverflows s n = false := readOverflows_of_buffer hv
  have hchunk := rChunk_past_end hv hpast
  have hbits := rBits_past_end hv hpast
  cases i with simp only [Instr.readBits, Option.some.injEq, reduceCtorEq] at hn <;> subst hn <;> simp only [exec]
  | rBitb c =>
    exact command_passed hf rfl ((chunkWidthOk_iff c).2 ⟨hlo, hhi⟩) hover (congrArg (respondChunk c.toNat lanes) hchunk)
  | rByte => exact command_passed hf rfl rfl hover (congrArg (respondChunk 8 lanes) hchunk)
  | rBool => exact command_passed hf rfl rfl hover (congrArg (respondChunk 1 _) hchunk)
  | rBits c => exact command_passed hf rfl ((bitCountOk_iff c).2 hhi) hover (congrArg respondRead hbits)
  | rArr c => exact command_passed hf (decide_eq_true hv) ((byteCountOk_iff c).2 hhi) rfl (congrArg respondRead hbits)
  | rField c => exact absurd rfl (hne c)

/-- R.FIELD there answers EOD with a free RESULT, and moves only the free-value counter (R134, log entry 5). -/
theorem exec_rField_past_end {c : BitVec 8} (hf : s.fault = false) (hv : s.cfg.rvar = .buffer)
    (hw : (Instr.rField c).wellFormed = true) (hpast : 8 * s.cfg.rlen < s.rpos.toNat + c.toNat) :
    exec (.rField c) s = .next (s.nextFree.respond .eod 0 (Config.freeField s.freeIdx)) := by
  obtain ⟨hlo, hhi⟩ := (wellFormed_iff (.rField c)).1 hw
  rw [exec_rField_eq (n := c) hf hlo hhi (readOverflows_of_buffer hv), rBits_past_end hv hpast]
  rfl

end PastTheEnd

/-- Settles O20: the bounds check of the whole request fails before any chunk is read. -/
theorem bufferReadPastTheEndChangesNothing : Obligations.BufferReadPastTheEndChangesNothing := by
  intro i n s hf hv hw hn hpast
  refine ⟨exec_read_past_end hf hv hw hn hpast, ?_⟩
  rintro c rfl
  cases hn
  exact ⟨_, exec_rField_past_end hf hv hw hpast⟩

end Sys2Proof.Machine
end

/-! PROOFS. Binding the block anew (70_reset_and_hazards.md R220, R222): what the model's check of the parameters says, one
constraint at a time, and from it when a rebinding is refused and what it loads otherwise. -/

section
namespace Sys2Proof.Machine

/-- R222, items 1 to 5, in its own terms: limits as numbers, the variants listed, pending bits one by one. -/
def Params.Legal (c : Params) : Prop :=
  c.rlen ≤ 2 ^ 61 - 1 ∧ c.wcap0 ≤ 2 ^ 61 - 1 ∧ c.rposInit < 2 ^ 64 ∧ c.wposInit < 2 ^ 64 ∧
  (c.rvar = .buffer → c.rposInit ≤ 8 * c.rlen ∧ c.rpendInit = 0) ∧
  (c.wvar = .fixed ∨ c.wvar = .growable → c.wposInit ≤ 8 * c.wcap0 ∧ c.wpendInit = 0) ∧
  (c.rvar = .stream → c.rposInit % 8 = 0 → c.rpendInit = 0) ∧
  (c.wvar = .stream → ∀ j, j < 8 - c.wposInit % 8 → c.wpendInit.getLsbD j = false)

/-- The in-memory variants of the writer (R7). -/
theorem wvar_ne_stream_iff (v : WVar) : v ≠ .stream ↔ v = .fixed ∨ v = .growable := by
  cases v <;> decide

/-- The model's check is R222. -/
theorem Params.valid_iff_legal (c : Params) : Params.valid c = true ↔ Params.Legal c := by
  have hpending : c.wpendInit &&& (0xFF - topMask (c.wposInit % 8)) = 0 ↔
      ∀ j, j < 8 - c.wposInit % 8 → c.wpendInit.getLsbD j = false := and_tailMask_eq_zero_iff (by omega)
  rw [Params.valid_iff, Params.Legal, hpending, wvar_ne_stream_iff, maxBytes, and_assoc, and_assoc]

/-- A rebinding to legal parameters and canonical buffers is the reset of the block so bound (R220). -/
theorem rebindAndReset_of_valid {b : Binding} (s : State) (h : b.valid = true) :
    rebindAndReset b s = .next (s.bind b).load := if_pos h

theorem rebindAndReset_of_not_valid {b : Binding} (s : State) (h : b.valid ≠ true) :
    rebindAndReset b s = .refused .configuration := if_neg h

/-- With canonical buffers only R222 is left to check (log entry 10). -/
theorem Binding.valid_iff_legal {b : Binding} (hr : Memory.wf b.rbuf = true) (hw : Memory.wf b.wbuf = true) :
    b.valid = true ↔ Params.Legal b.cfg := by
  rw [Binding.valid, hr, hw, Bool.and_true, Bool.and_true, Params.valid_iff_legal]

/-- Settles O49: on legal parameters the step is `State.load` of the block bound anew, on any others the refusal. -/
theorem configurationIsRefusedExactlyWhenIllegal : Obligations.ConfigurationIsRefusedExactlyWhenIllegal := by
  intro s b rest hp hr hw
  have hvalid := Binding.valid_iff_legal hr hw
  refine ⟨fun hlegal => ?_, fun hillegal => ?_⟩
  · exact ⟨(State.bind { s with pending := rest } b).load,
      (step_rebind hp).trans (rebindAndReset_of_valid _ (hvalid.2 hlegal)), rfl, rfl, rfl, rfl, rfl, rfl, rfl, rfl, rfl,
      toNat_loaded_count _ _, rfl, rfl, toNat_loaded_count _ _, rfl, rfl, rfl, rfl⟩
  · exact (step_rebind hp).trans (rebindAndReset_of_not_valid _ (mt hvalid.1 hillegal))

end Sys2Proof.Machine
end
